-- ==== Sys2Proof/Word.lean ====
section
/-! DEFINITION. The word types of the block: a 32-bit register or command word and an 8-bit byte
(00_scope.md R9; 10_state.md R23, R30). -/

namespace Sys2Proof

/-- A register word or a command word: 32 bits, bit 0 the least significant (R9). -/
abbrev Word := BitVec 32

/-- An 8-bit value: a threshold, a pin identifier, a buffer's sum or cursor (R23, R30, R70). -/
abbrev Byte := BitVec 8

/-- A byte offset inside the 4 KiB host register window (20_memory.md R60). -/
abbrev Offset := BitVec 12

end Sys2Proof
end

