-- ==== Sys2Proof/Syntax.lean ====
section
/-! DEFINITION. The commands of 30_encoding.md R85, one constructor for each row of the opcode table. -/

namespace Sys2Proof

/-- The SIDE operand (00_scope.md R13): 0 = low, 1 = high. -/
inductive Side where
  | low
  | high
deriving DecidableEq, Repr

/-- A host command. CH is a channel index, `val` a sample with `true` = 1 = touched (R82). -/
inductive Instr where
  /-- NOP, 43_control.md R201. -/
  | nop
  /-- TICK, 42_engine.md R160. -/
  | tick
  /-- CAL, 41_calibrator.md R121. -/
  | cal (ch : Nat)
  /-- BUF_RESET, 40_buffer.md R108. -/
  | bufReset (ch : Nat) (side : Side)
  /-- BUF_PUSH, 40_buffer.md R109. -/
  | bufPush (ch : Nat) (side : Side) (val : Bool)
  /-- INIT, 43_control.md R203. -/
  | init
deriving DecidableEq, Repr

end Sys2Proof
end

