-- ==== Sys2Proof/WellFormed.lean ====
section
/-! DEFINITION. Well-formed commands: those the command word of 30_encoding.md R80 can carry. -/

namespace Sys2Proof

/-- CH is a 5-bit field, 0..31 (30_encoding.md R80, R88). Whether the channel exists in the
configuration is no matter of form: it is checked at acceptance (R82). -/
def channelFits (ch : Nat) : Bool := decide (ch < 32)

/-- A command is well-formed when every operand fits its field. -/
def Instr.wf : Instr → Bool
  | .nop => true
  | .tick => true
  | .cal ch => channelFits ch
  | .bufReset ch _ => channelFits ch
  | .bufPush ch _ _ => channelFits ch
  | .init => true

end Sys2Proof
end

