-- ==== Sys2Proof/Decode.lean ====
section
/-! DEFINITION. The command decoder of 30_encoding.md R80 to R87, total on every word and on any bytes,
and the encoder of R88. -/

namespace Sys2Proof

/-- CH = cmd[12:8], unsigned (R82). -/
def fieldCh (w : Word) : Nat := (w.extractLsb' 8 5).toNat

/-- SIDE = cmd[13]: 0 low, 1 high (R82). -/
def fieldSide (w : Word) : Side := if w.getLsbD 13 then .high else .low

/-- VAL = cmd[14] (R82). -/
def fieldVal (w : Word) : Bool := w.getLsbD 14

/-- OP = cmd[3:0] (R81). -/
def fieldOp (w : Word) : Nat := (w.extractLsb' 0 4).toNat

/-- One row of the opcode map of R85. -/
structure OpRow where
  /-- The row's mnemonic, as the table spells it. -/
  mnemonic : String
  /-- The row's match. -/
  pattern : Word
  /-- The row's mask. -/
  mask : Word
  /-- The command a matching word stands for, its operands read by R82. -/
  read : Word → Instr

/-- The opcode map of R85, in its order. -/
def opcodeMap : List OpRow :=
  [ ⟨"NOP", 0x00000000#32, 0xFFFFFFFF#32, fun _ => .nop⟩,
    ⟨"TICK", 0x00000001#32, 0xFFFFFFFF#32, fun _ => .tick⟩,
    ⟨"CAL", 0x00000002#32, 0xFFFFE0FF#32, fun w => .cal (fieldCh w)⟩,
    ⟨"BUF_RESET", 0x00000003#32, 0xFFFFC0FF#32, fun w => .bufReset (fieldCh w) (fieldSide w)⟩,
    ⟨"BUF_PUSH", 0x00000004#32, 0xFFFF80FF#32,
      fun w => .bufPush (fieldCh w) (fieldSide w) (fieldVal w)⟩,
    ⟨"INIT", 0x00000005#32, 0xFFFFFFFF#32, fun _ => .init⟩ ]

/-- A row selects w when (w AND mask) = match (R84). -/
def rowMatches (w : Word) (r : OpRow) : Bool := (w &&& r.mask) == r.pattern

/-- The command a word stands for, `none` where no row matches and the word is ILLEGAL (R84). -/
def decodeWord (w : Word) : Option Instr :=
  (opcodeMap.find? (rowMatches w)).map (fun r => r.read w)

/-- Why bytes are no command. -/
inductive DecodeError where
  /-- OP 0x6..0xF (R86). -/
  | reservedOp
  /-- A one in bits [7:4] or [31:15], or in an operand field the command does not use (R83). -/
  | reservedBit
  /-- Fewer than the four bytes of a command word (R80); the port never carries this (R61). -/
  | truncated
deriving DecidableEq, Repr

/-- The name of the reason a word that matches no row is refused. -/
def illegalReason (w : Word) : DecodeError := if fieldOp w ≤ 5 then .reservedBit else .reservedOp

/-- The 32-bit word at four bytes, the first byte the least significant (20_memory.md R62). -/
def wordOfBytes (b0 b1 b2 b3 : Byte) : Word := b3 ++ b2 ++ b1 ++ b0

/-- Byte k of a word as a byte-addressed bus shows it: bits [8k+7 : 8k] (20_memory.md R62). -/
def byteOfWord (w : Word) (k : Nat) : Byte := w.extractLsb' (8 * k) 8

/-- The four bytes of a word, lowest address first (20_memory.md R62). -/
def bytesOfWord (w : Word) : List Byte :=
  [byteOfWord w 0, byteOfWord w 1, byteOfWord w 2, byteOfWord w 3]

/-- The decoder on bytes: the command and the bytes after it, or the reason by name. -/
def decode : List Byte → Except DecodeError (Instr × List Byte)
  | b0 :: b1 :: b2 :: b3 :: rest =>
    match decodeWord (wordOfBytes b0 b1 b2 b3) with
    | some i => .ok (i, rest)
    | none => .error (illegalReason (wordOfBytes b0 b1 b2 b3))
  | _ => .error .truncated

/-- The SIDE bit: L -> 0, H -> 1 (R88). -/
def sideBit : Side → Nat
  | .low => 0
  | .high => 1

/-- OP | (ch << 8) | (side << 13) | (val << 14) (R88). -/
def commandWord (op ch side val : Nat) : Word :=
  BitVec.ofNat 32 op ||| (BitVec.ofNat 32 ch <<< 8) ||| (BitVec.ofNat 32 side <<< 13)
    ||| (BitVec.ofNat 32 val <<< 14)

/-- The word of a command (R88); omitted operands are 0. -/
def encodeWord : Instr → Word
  | .nop => commandWord 0 0 0 0
  | .tick => commandWord 1 0 0 0
  | .cal ch => commandWord 2 ch 0 0
  | .bufReset ch side => commandWord 3 ch (sideBit side) 0
  | .bufPush ch side val => commandWord 4 ch (sideBit side) val.toNat
  | .init => commandWord 5 0 0 0

/-- The words of a well-formed command: always one (R80). -/
def encode (i : Instr) : List Word := [encodeWord i]

/-- What the decoder reads from an instruction whose `nbits` bits are `w`, every bit above them 0:
its bytes are laid out as R62 stores them and given to `decode`. -/
def decodeTableWord (nbits w : Nat) : Option Instr :=
  match decode (bytesOfWord (BitVec.ofNat 32 (w % 2 ^ nbits))) with
  | .ok (i, _) => some i
  | .error _ => none

end Sys2Proof
end

