-- ==== Sys2Proof/Config.lean ====
section
/-! DEFINITION. What an implementation fixes (00_scope.md R6) and the values the spec leaves free. -/

namespace Sys2Proof

/-- The construction parameters of 00_scope.md R6, one configuration record. -/
structure Params where
  /-- NUM_CHANNELS, the spec's C. -/
  numChannels : Nat
  /-- PIN_ID[c], one opaque 8-bit identifier for each channel. -/
  pinIds : List Byte
  /-- SAMPLES_NUM, the spec's N: the capacity of every buffer. -/
  samplesNum : Nat
  /-- LOW_FRACTION in whole percent. -/
  lowFractionPct : Nat
  /-- HIGH_FRACTION in whole percent. -/
  highFractionPct : Nat
  /-- PRESS_MARGIN, added to the high threshold after a calibration. -/
  pressMargin : Nat
  /-- RELEASE_MARGIN, subtracted from the low threshold after a calibration. -/
  releaseMargin : Nat
  /-- HYSTERESIS, the debounce tick count. -/
  hysteresis : Nat
  /-- MAX_TIME_IN_GRAYZONE, the gray-zone watchdog limit in ticks. -/
  maxTimeInGrayzone : Nat
  /-- MAX_PROBE_STEPS, the bound on coarse binary-search iterations. -/
  maxProbeSteps : Nat
deriving DecidableEq, Repr

/-- The configuration of `State.reset`. DESIGN CHOICE (log 2): the spec fixes none
(93_implementation_defined.md I9). The numbers are those of CFG-A in 95_test_vectors.md, with the
most channels R6 allows and the pin numbers of V-RST-1 continued. Unsafe for a claim that rests on
one of these numbers. -/
def Config.params : Params where
  numChannels := 32
  pinIds := (List.range 32).map (fun c => BitVec.ofNat 8 (0x10 + c))
  samplesNum := 32
  lowFractionPct := 90
  highFractionPct := 10
  pressMargin := 1
  releaseMargin := 1
  hysteresis := 2
  maxTimeInGrayzone := 10
  maxProbeSteps := 8

/-- FREE VALUE (log 8): the n-th word drawn for a channel register read while BUSY = 1, whose value
20_memory.md R65 leaves unspecified. Safe: nothing can be proved of it. -/
opaque Config.busyRead : Nat → Word

/-- CTCB_BASE, where the platform puts the register window (20_memory.md R64). A parameter with no
value here (log 9). Safe: nothing can be proved of it. -/
opaque Config.ctcbBase : Nat

end Sys2Proof
end

