-- ==== Sys2Proof/Machine/Arith.lean ====
section
/-! DEFINITION. The named arithmetic of 00_scope.md R10: exact integers, narrowed by name only. -/

namespace Sys2Proof.Machine

/-- floor_div(a, b): the greatest integer q with q*b <= a, for b > 0 (R10). -/
def floorDiv (a b : Int) : Int := a / b

/-- ceil_div(a, b): the least integer q with q*b >= a, for b > 0 (R10). -/
def ceilDiv (a b : Int) : Int := -((-a) / b)

/-- clamp8(v): v brought into 0..255 (R10). -/
def clamp8 (v : Int) : Int := if v < 0 then 0 else if v > 255 then 255 else v

/-- An integer of 0..255 as the 8-bit field that stores it. The rules bound every value given to it
(R122: "lo and hi are 8-bit values in 0..255 at every assignment"; R101: the sum is in 0..N). -/
def byte (v : Int) : Byte := BitVec.ofInt 8 v

/-- sat_inc32(v): v + 1, or 2^32 - 1 where v is that already (R10). -/
def satInc32 (v : Word) : Word := if v.toNat < 2 ^ 32 - 1 then v + 1 else v

end Sys2Proof.Machine
end

