-- ==== Sys2Proof/Machine/Params.lean ====
section
/-! DEFINITION. Well-formed configurations (00_scope.md R6, R8) and the decision constants (R7). -/

namespace Sys2Proof.Machine

/-- Every parameter is in its legal range (R6, R8). PIN_ID[c] is any byte, one for each channel; that
the SenseSource accepts it is assumed (R8, log 11). -/
def configWf (cfg : Params) : Bool :=
  decide (1 ≤ cfg.numChannels ∧ cfg.numChannels ≤ 32) &&
  decide (cfg.pinIds.length = cfg.numChannels) &&
  decide (1 ≤ cfg.samplesNum ∧ cfg.samplesNum ≤ 255) &&
  decide (cfg.lowFractionPct ≤ 100) &&
  decide (cfg.highFractionPct ≤ 100) &&
  decide (cfg.pressMargin ≤ 5) &&
  decide (cfg.releaseMargin ≤ 5) &&
  decide (cfg.hysteresis < 2 ^ 32) &&
  decide (cfg.maxTimeInGrayzone < 2 ^ 32) &&
  decide (cfg.maxProbeSteps ≤ 255)

/-- K_REL = floor_div(N * 10, 100) (R7). -/
def kRel (cfg : Params) : Int := floorDiv (cfg.samplesNum * 10) 100

/-- K_LOW = floor_div(N * LOW_FRACTION_PCT, 100) (R7). -/
def kLow (cfg : Params) : Int := floorDiv (cfg.samplesNum * cfg.lowFractionPct) 100

/-- K_HIGH = ceil_div(N * HIGH_FRACTION_PCT, 100) (R7). -/
def kHigh (cfg : Params) : Int := ceilDiv (cfg.samplesNum * cfg.highFractionPct) 100

/-- K_PRESS = ceil_div(N * 90, 100) (R7). -/
def kPress (cfg : Params) : Int := ceilDiv (cfg.samplesNum * 90) 100

/-- PIN_ID[c] (R6). A channel that does not exist has no pin; nothing reads one (log 14). -/
def pinOf (cfg : Params) (c : Nat) : Byte := cfg.pinIds.getD c 0

end Sys2Proof.Machine
end

