-- ==== Sys2Proof/Machine/State.lean ====
section
/-! DEFINITION. The state of the block (10_state.md R20 to R38), the inputs of the outside world, the
ways a step can stop, and the state after reset (10_state.md R49; 70_reset_and_hazards.md R250). -/

namespace Sys2Proof.Machine

/-- A RunningSumBuffer (10_state.md R30). -/
structure Buffer where
  /-- slot[0..N-1], `true` = touched; hidden from the host (R32). -/
  slots : List Bool
  /-- The slot the next push overwrites. -/
  cursor : Byte
  /-- The running sum. -/
  sum : Byte
deriving DecidableEq, Repr

/-- One channel's register set (10_state.md R23 to R29). -/
structure Channel where
  lowThreshold : Byte
  highThreshold : Byte
  pressed : Bool
  needsCalibration : Bool
  grayZoneTicks : Word
  debounceTicks : Word
  lowBuffer : Buffer
  highBuffer : Buffer
deriving DecidableEq, Repr

/-- The three temporaries the engine holds during one calibration (10_state.md R33). -/
structure CalTemps where
  highestLow : Byte
  lowestHigh : Byte
  probeCount : Byte
deriving DecidableEq, Repr

/-- A transaction the engine issues on the sense port (20_memory.md R70). -/
inductive SenseReq where
  | read (pin thr : Byte)
  | discharge
deriving DecidableEq, Repr

/-- A completed sense transaction: a READ with its answer (`true` = touched), or an acknowledged
DISCHARGE (20_memory.md R70, R72). -/
inductive SenseEvent where
  | read (pin thr : Byte) (touched : Bool)
  | discharge
deriving DecidableEq, Repr

/-- The commands that issue sense transactions, and so can be in progress (10_state.md R36). -/
inductive EngineCmd where
  | tick
  | cal (ch : Nat)
deriving DecidableEq, Repr

/-- What the engine works on while a command runs: the fields a command may write, the answers that
are at hand and the transactions completed so far, newest first. -/
structure Eng where
  chans : List Channel
  report : Word
  temps : Option CalTemps
  replies : List Bool
  log : List SenseEvent
deriving DecidableEq, Repr

/-- A command in progress (10_state.md R21: hidden sequencer state). `start` is the engine's state at
acceptance with, in `replies`, every answer received since. The position in the pseudocode is the
one these determine (log 6). -/
structure InProgress where
  cmd : EngineCmd
  start : Eng
deriving DecidableEq, Repr

/-- What the outside world does to the block (00_scope.md R5). -/
inductive Input where
  /-- The host writes `data` at a byte offset, `size` bytes wide (20_memory.md R61). -/
  | write (off : Offset) (size : Nat) (data : Word)
  /-- The host reads at a byte offset, `size` bytes wide (20_memory.md R61). -/
  | read (off : Offset) (size : Nat)
  /-- The SenseSource answers the outstanding transaction; for a DISCHARGE the bit carries nothing
  (20_memory.md R70; log 5). -/
  | reply (touched : Bool)
  /-- An answer to a transaction that a reset abandoned (70_reset_and_hazards.md R251). -/
  | staleReply (touched : Bool)
  /-- The platform asserts the reset input (70_reset_and_hazards.md R251). -/
  | reset
deriving DecidableEq, Repr

/-- The block has no faults (60_exceptions.md R223, R225): no step stops with one. Safe. -/
inductive Fault where
deriving DecidableEq, Repr

/-- Why a step gives no meaning. -/
inductive Refusal where
  /-- Raised by an arm of `exec` whose instruction has no meaning yet. Safe. -/
  | notModelled (mnemonic : String)
  /-- Raised by every step and every command under a configuration that is not well-formed, which
  00_scope.md R8 says a model shall refuse. Safe. -/
  | illFormedConfig
  /-- Raised by a host access that is not an aligned 32-bit word, which the port cannot express and
  20_memory.md R61 refuses (93_implementation_defined.md I4). Safe. -/
  | unsupportedAccess
deriving DecidableEq, Repr

/-- The state of the block and of its surroundings. `cfg` is fixed at construction and never written
(log 1); `inputs`, `senseLog`, `hostReads` and `draws` are the model's own (INVENTORY.md). -/
structure State where
  cfg : Params
  chans : List Channel
  busy : Bool
  lastErr : BitVec 4
  report : Word
  temps : Option CalTemps
  running : Option InProgress
  outstanding : Option SenseReq
  inputs : List Input
  senseLog : List SenseEvent
  hostReads : List (Offset × Word)
  draws : Nat
deriving DecidableEq, Repr

/-- The reset baseline of a buffer of capacity n: all zero (10_state.md R31). -/
def Buffer.baseline (n : Nat) : Buffer := ⟨List.replicate n false, 0, 0⟩

/-- A channel at its reset values (10_state.md R49). -/
def Channel.initial (n : Nat) : Channel where
  lowThreshold := 64
  highThreshold := 192
  pressed := false
  needsCalibration := true
  grayZoneTicks := 0
  debounceTicks := 0
  lowBuffer := Buffer.baseline n
  highBuffer := Buffer.baseline n

/-- Every channel of a configuration at its reset values. -/
def initialChannels (cfg : Params) : List Channel :=
  List.replicate cfg.numChannels (Channel.initial cfg.samplesNum)

/-- The block right after reset, built with the configuration `cfg` (10_state.md R49). -/
def State.resetOf (cfg : Params) : State where
  cfg := cfg
  chans := initialChannels cfg
  busy := false
  lastErr := 0
  report := 0
  temps := none
  running := none
  outstanding := none
  inputs := []
  senseLog := []
  hostReads := []
  draws := 0

/-- The machine right after reset, under the configuration of log 2. -/
def State.reset : State := State.resetOf Config.params

end Sys2Proof.Machine
end

