-- ==== Sys2Proof/Machine/Operands.lean ====
section
/-! DEFINITION. What the operands CH and SIDE select: a channel, and one of its two buffers
(30_encoding.md R82; 40_buffer.md R100). -/

namespace Sys2Proof.Machine

/-- Channel c. Out of range, where no channel exists, the reset channel of capacity 0 (log 14). -/
def channelAt (chans : List Channel) (c : Nat) : Channel := chans.getD c (Channel.initial 0)

/-- Channel c changed by f, every other channel as it was. -/
def updateChannel (chans : List Channel) (c : Nat) (f : Channel → Channel) : List Channel :=
  chans.modify c f

/-- The buffer of a channel on one side (R13, R100). -/
def bufferOf (ch : Channel) : Side → Buffer
  | .low => ch.lowBuffer
  | .high => ch.highBuffer

/-- A channel with the buffer on one side changed by f. -/
def updateBufferOf (side : Side) (f : Buffer → Buffer) (ch : Channel) : Channel :=
  match side with
  | .low => { ch with lowBuffer := f ch.lowBuffer }
  | .high => { ch with highBuffer := f ch.highBuffer }

/-- buf(c, side) (R100). -/
def bufferAt (chans : List Channel) (c : Nat) (side : Side) : Buffer :=
  bufferOf (channelAt chans c) side

/-- buf(c, side) changed by f; no primitive touches more than one buffer (R100). -/
def updateBuffer (chans : List Channel) (c : Nat) (side : Side) (f : Buffer → Buffer) :
    List Channel :=
  updateChannel chans c (updateBufferOf side f)

end Sys2Proof.Machine
end

