-- ==== Sys2Proof/Machine/Ops.lean ====
section
/-! DEFINITION. The shared operations: the buffer primitives (40_buffer.md R101 to R104), the sense port
(20_memory.md R70), command errors and acceptance (43_control.md R200; 60_exceptions.md R220, R221),
and the creation state (10_state.md R49). -/

namespace Sys2Proof.Machine

/-- Push(b, x) on a buffer of capacity n (R101). -/
def pushBuffer (n : Nat) (x : Bool) (b : Buffer) : Buffer where
  slots := b.slots.set b.cursor.toNat x
  cursor := byte ((b.cursor.toNat + 1) % n : Nat)
  sum := byte ((b.sum.toNat : Int) - (b.slots.getD b.cursor.toNat false).toNat + x.toNat)

/-- Reset(b) on a buffer of capacity n (R102). -/
def resetBuffer (n : Nat) (_ : Buffer) : Buffer := Buffer.baseline n

/-- Sum(b) (R103). -/
def sumAt (chans : List Channel) (c : Nat) (side : Side) : Nat :=
  (bufferAt chans c side).sum.toNat

/-- How far the engine gets with the answers at hand: to the end of what it was doing, or to a
transaction whose answer has not come (R70: the engine waits, there is no timeout). -/
inductive Run (α : Type) where
  | done (a : α) (e : Eng)
  | waiting (req : SenseReq) (e : Eng)
deriving Repr

/-- One part of a command's pseudocode, then the next. -/
def Run.andThen {α β : Type} (r : Run α) (next : α → Eng → Run β) : Run β :=
  match r with
  | .done a e => next a e
  | .waiting q e => .waiting q e

/-- Sense(pin, thr): one READ transaction and its answer (R70; 00_scope.md R11). -/
def sense (pin thr : Byte) (e : Eng) : Run Bool :=
  match e.replies with
  | [] => .waiting (.read pin thr) e
  | b :: rest => .done b { e with replies := rest, log := .read pin thr b :: e.log }

/-- Discharge(): one DISCHARGE transaction and its acknowledgement (R70; 00_scope.md R11). -/
def discharge (e : Eng) : Run Unit :=
  match e.replies with
  | [] => .waiting .discharge e
  | _ :: rest => .done () { e with replies := rest, log := .discharge :: e.log }

/-- Push into buf(c, side) while a command runs (R101). -/
def pushAt (cfg : Params) (c : Nat) (side : Side) (x : Bool) (e : Eng) : Eng :=
  { e with chans := updateBuffer e.chans c side (pushBuffer cfg.samplesNum x) }

/-- k fresh reads of channel c at threshold t, each pushed as it arrives (R104). -/
def readsInto (cfg : Params) (c : Nat) (side : Side) (t : Byte) : Nat → Eng → Run Unit
  | 0, e => .done () e
  | k + 1, e =>
    (sense (pinOf cfg c) t e).andThen fun x e => readsInto cfg c side t k (pushAt cfg c side x e)

/-- Fill(c, side, t): N fresh reads at t into buf(c, side) (R104). -/
def fill (cfg : Params) (c : Nat) (side : Side) (t : Byte) (e : Eng) : Run Unit :=
  readsInto cfg c side t cfg.samplesNum e

/-- The command-acceptance error codes (60_exceptions.md R220). -/
inductive CmdError where
  | ok
  | busy
  | illegal
  | badChannel
deriving DecidableEq, Repr

/-- The code LAST_ERR holds (60_exceptions.md R220). -/
def errorCode : CmdError → BitVec 4
  | .ok => 0
  | .busy => 1
  | .illegal => 2
  | .badChannel => 3

/-- `raise CmdError(code)`: LAST_ERR takes the code and nothing else changes (60_exceptions.md R221).
This is all the block has of taking an exception: nothing is saved, no mode changes, control goes
nowhere (R225), and there is no return (R226). -/
def raiseCmdError (err : CmdError) (s : State) : State := { s with lastErr := errorCode err }

/-- The acceptance checks of OnCmdWrite that follow decoding, and the command's effect where they pass
(43_control.md R200). `ch` is the CH operand of CAL, BUF_RESET and BUF_PUSH. A configuration that is
not well-formed is refused (00_scope.md R8). -/
def accept (ch : Option Nat) (effect : State → State) (s : State) :
    Host.Outcome State Fault Refusal :=
  if configWf s.cfg = false then .refused .illFormedConfig
  else if s.busy = true then .next (raiseCmdError .busy s)
  else if ch.any (fun c => decide (s.cfg.numChannels ≤ c)) = true then
    .next (raiseCmdError .badChannel s)
  else .next (effect (raiseCmdError .ok s))

/-- The channels, the buffers and REPORT at their creation values (43_control.md R203). -/
def createEngine (s : State) : State :=
  { s with chans := initialChannels s.cfg, report := 0 }

/-- The reset action (70_reset_and_hazards.md R250): any command in progress is abandoned without
completing it, and so is its outstanding transaction (R251). DESIGN CHOICE (log 12): the records of what
was observed before stay, and the abandoned transaction, issued but never answered, does not enter
`senseLog`; 20_memory.md R72 leaves that open. -/
def resetBlock (s : State) : State :=
  { createEngine s with
    lastErr := errorCode .ok
    busy := false
    temps := none
    running := none
    outstanding := none }

end Sys2Proof.Machine
end

