-- ==== Sys2Proof/Machine/BufferCommands.lean ====
section
/-! DEFINITION. The buffer commands BUF_RESET and BUF_PUSH (40_buffer.md R108, R109). -/

namespace Sys2Proof.Machine

/-- One buffer of the state changed by f. -/
def changeBuffer (ch : Nat) (side : Side) (f : Buffer → Buffer) (s : State) : State :=
  { s with chans := updateBuffer s.chans ch side f }

/-- BUF_RESET resets one buffer (R108). -/
def execBufReset (ch : Nat) (side : Side) (s : State) : Host.Outcome State Fault Refusal :=
  accept (some ch) (changeBuffer ch side (resetBuffer s.cfg.samplesNum)) s

/-- BUF_PUSH pushes one host-supplied sample into one buffer (R109). -/
def execBufPush (ch : Nat) (side : Side) (val : Bool) (s : State) :
    Host.Outcome State Fault Refusal :=
  accept (some ch) (changeBuffer ch side (pushBuffer s.cfg.samplesNum val)) s

end Sys2Proof.Machine
end

