-- ==== Sys2Proof/Machine/Control.lean ====
section
/-! DEFINITION. The control commands NOP and INIT (43_control.md R201, R203). -/

namespace Sys2Proof.Machine

/-- NOP does nothing but record success (R201). -/
def execNop (s : State) : Host.Outcome State Fault Refusal := accept none id s

/-- INIT puts the engine back into its creation state (R203). -/
def execInit (s : State) : Host.Outcome State Fault Refusal := accept none createEngine s

end Sys2Proof.Machine
end

