-- ==== Sys2Proof/Machine/Calibrator.lean ====
section
/-! DEFINITION. Calibrate(c) (41_calibrator.md R122 to R139), part by part in the pseudocode's order. -/

namespace Sys2Proof.Machine

/-- The variables of the coarse search, exact integers (R123; 00_scope.md R10). -/
structure Search where
  lo : Int
  hi : Int
  highestLow : Int
  lowestHigh : Int
deriving DecidableEq, Repr

/-- The starting bracket (R123). -/
def searchStart : Search := ⟨64, 192, 0, 255⟩

/-- The low-side update on the answer to the READ at lo (R125). -/
def probeLow (touched : Bool) (q : Search) : Search :=
  if touched then { q with highestLow := q.lo, lo := q.lo + floorDiv (q.hi - q.lo) 2 }
  else { q with lo := floorDiv (q.lo + q.highestLow) 2 }

/-- The high-side update on the answer to the READ at hi, with lo as just updated (R126). -/
def probeHigh (touched : Bool) (q : Search) : Search :=
  if touched then { q with hi := ceilDiv (q.hi + q.lowestHigh) 2 }
  else { q with lowestHigh := q.hi, hi := q.hi - floorDiv (q.hi - q.lo) 2 }

/-- The cross-over recovery at the end of an iteration (R127). -/
def crossOver (q : Search) : Search :=
  if q.hi ≤ q.lo then
    { q with
      lo := clamp8 (floorDiv (q.lo - q.hi - 1) 2)
      hi := clamp8 (ceilDiv (q.lo - q.hi + 1) 2) }
  else q

/-- One iteration of the coarse search on its two answers (R125 to R127). -/
def searchStep (lowTouched highTouched : Bool) (q : Search) : Search :=
  crossOver (probeHigh highTouched (probeLow lowTouched q))

/-- The temporaries the engine holds (10_state.md R33) after `count` iterations. -/
def holdTemps (count : Nat) (q : Search) (e : Eng) : Eng :=
  { e with temps := some ⟨byte q.highestLow, byte q.lowestHigh, byte count⟩ }

/-- The coarse search: `left` = MAX_PROBE_STEPS - probe_count iterations may still run (R124). -/
def coarse (cfg : Params) (c : Nat) : Nat → Search → Eng → Run Search
  | 0, q, e => .done q (holdTemps cfg.maxProbeSteps q e)
  | left + 1, q, e =>
    if q.hi > q.lo + 1 then
      (sense (pinOf cfg c) (byte q.lo)
        (holdTemps (cfg.maxProbeSteps - left) q e)).andThen fun x e =>
      (sense (pinOf cfg c) (byte q.hi)
        (holdTemps (cfg.maxProbeSteps - left) (probeLow x q) e)).andThen fun y e =>
      coarse cfg c left (searchStep x y q) e
    else .done q (holdTemps (cfg.maxProbeSteps - (left + 1)) q e)

/-- LowOK(s) (R130). -/
def lowOK (cfg : Params) (s : Nat) : Bool := decide ((s : Int) > kLow cfg)

/-- HighOK(h) (R130). -/
def highOK (cfg : Params) (h : Nat) : Bool := decide ((h : Int) < kHigh cfg)

/-- Low side, starting satisfied: walk up from lo = 255 - gap (R131). -/
def lowWalkUp (cfg : Params) (c : Nat) : Nat → Eng → Run Int
  | 0, e => .done 255 e
  | gap + 1, e =>
    (fill cfg c .low (byte (255 - gap)) e).andThen fun _ e =>
      if lowOK cfg (sumAt e.chans c .low) then lowWalkUp cfg c gap e
      else .done (255 - (gap + 1 : Nat)) e

/-- Low side, starting unsatisfied: walk down from lo (R132). -/
def lowWalkDown (cfg : Params) (c : Nat) : Nat → Eng → Run Int
  | 0, e => .done 0 e
  | lo + 1, e =>
    (fill cfg c .low (byte lo) e).andThen fun _ e =>
      if lowOK cfg (sumAt e.chans c .low) then .done lo e
      else lowWalkDown cfg c lo e

/-- High side, starting unsatisfied: walk up from hi = 255 - gap (R133). -/
def highWalkUp (cfg : Params) (c : Nat) : Nat → Eng → Run Int
  | 0, e => .done 255 e
  | gap + 1, e =>
    (fill cfg c .high (byte (255 - gap)) e).andThen fun _ e =>
      if highOK cfg (sumAt e.chans c .high) then .done (255 - gap) e
      else highWalkUp cfg c gap e

/-- High side, starting satisfied: walk down from hi (R134). -/
def highWalkDown (cfg : Params) (c : Nat) : Nat → Eng → Run Int
  | 0, e => .done 0 e
  | hi + 1, e =>
    (fill cfg c .high (byte hi) e).andThen fun _ e =>
      if highOK cfg (sumAt e.chans c .high) then highWalkDown cfg c hi e
      else .done (hi + 1 : Nat) e

/-- The low walk, its direction fixed by the initial fill (R129, R131, R132). -/
def lowWalk (cfg : Params) (c : Nat) (lo : Int) (e : Eng) : Run Int :=
  if lowOK cfg (sumAt e.chans c .low) then lowWalkUp cfg c (255 - lo).toNat e
  else lowWalkDown cfg c lo.toNat e

/-- The high walk, its direction fixed by the initial fill (R129, R133, R134). -/
def highWalk (cfg : Params) (c : Nat) (hi : Int) (e : Eng) : Run Int :=
  if highOK cfg (sumAt e.chans c .high) then highWalkDown cfg c hi.toNat e
  else highWalkUp cfg c (255 - hi).toNat e

/-- Fine adjustment: both fills, the low walk, the high walk; the thresholds it leaves (R129). -/
def fineAdjust (cfg : Params) (c : Nat) (q : Search) (e : Eng) : Run (Int × Int) :=
  (fill cfg c .low (byte q.lo) e).andThen fun _ e =>
  (fill cfg c .high (byte q.hi) e).andThen fun _ e =>
  (lowWalk cfg c q.lo e).andThen fun lo e =>
  (highWalk cfg c q.hi e).andThen fun hi e =>
  .done (lo, hi) e

/-- The low threshold after margin widening (R136). -/
def widenLow (cfg : Params) (lo : Int) : Int := clamp8 (lo - cfg.releaseMargin)

/-- The high threshold after margin widening (R136). -/
def widenHigh (cfg : Params) (hi : Int) : Int := clamp8 (hi + cfg.pressMargin)

/-- Margin widening and completion: the thresholds are written and the flag is cleared (R136, R139);
the temporaries do not survive (10_state.md R33). -/
def finishCalibration (cfg : Params) (c : Nat) (lo hi : Int) (e : Eng) : Eng :=
  { e with
    temps := none
    chans := updateChannel e.chans c fun ch =>
      { ch with
        lowThreshold := byte (widenLow cfg lo)
        highThreshold := byte (widenHigh cfg hi)
        needsCalibration := false } }

/-- Calibrate(c) (R122). -/
def calibrate (cfg : Params) (c : Nat) (e : Eng) : Run Unit :=
  (coarse cfg c cfg.maxProbeSteps searchStart e).andThen fun q e =>
  (fineAdjust cfg c q e).andThen fun r e =>
  .done () (finishCalibration cfg c r.1 r.2 e)

/-- Resetting the gray count, then Calibrate(c): TICK's step 1 for one channel, and CAL (R121;
42_engine.md R161). -/
def recalibrate (cfg : Params) (c : Nat) (e : Eng) : Run Unit :=
  calibrate cfg c
    { e with chans := updateChannel e.chans c fun ch => { ch with grayZoneTicks := 0 } }

end Sys2Proof.Machine
end

