-- ==== Sys2Proof/Machine/Flags.lean ====
section
/-! DEFINITION. The flags: the low-side and the high-side rule of a tick (42_engine.md R163 to R170) and
the report bitmap (R171). -/

namespace Sys2Proof.Machine

/-- The gray-zone watchdog, shared by both sides: count, and at MAX_TIME_IN_GRAYZONE clear the press
and schedule a recalibration (R166, R169). -/
def grayBand (cfg : Params) (ch : Channel) : Channel :=
  let g := satInc32 ch.grayZoneTicks
  if g.toNat ≥ cfg.maxTimeInGrayzone then
    { ch with grayZoneTicks := g, needsCalibration := true, pressed := false }
  else { ch with grayZoneTicks := g }

/-- The strong release band (R165). -/
def strongRelease (cfg : Params) (ch : Channel) : Channel :=
  let d := satInc32 ch.debounceTicks
  if d.toNat > cfg.hysteresis then
    { ch with pressed := false, needsCalibration := true, grayZoneTicks := 0, debounceTicks := 0 }
  else { ch with debounceTicks := d }

/-- The strong press band (R168). -/
def strongPress (ch : Channel) : Channel :=
  { ch with pressed := true, debounceTicks := 0, needsCalibration := true, grayZoneTicks := 0 }

/-- A steady band (R167, R170). -/
def steadyBand (ch : Channel) : Channel := { ch with grayZoneTicks := 0 }

/-- Step 3, on the low buffer's sum s (R165 to R167). -/
def lowRule (cfg : Params) (s : Nat) (ch : Channel) : Channel :=
  if (s : Int) ≤ kRel cfg then strongRelease cfg ch
  else if (s : Int) ≤ kLow cfg then grayBand cfg ch
  else steadyBand ch

/-- Step 4, on the high buffer's sum h (R168 to R170). -/
def highRule (cfg : Params) (h : Nat) (ch : Channel) : Channel :=
  if (h : Int) ≥ kPress cfg then strongPress ch
  else if (h : Int) ≥ kHigh cfg then grayBand cfg ch
  else steadyBand ch

/-- Steps 3 and 4 for one channel, on the sums of its own two buffers (R163, R164). -/
def decideChannel (cfg : Params) (ch : Channel) : Channel :=
  highRule cfg ch.highBuffer.sum.toNat (lowRule cfg ch.lowBuffer.sum.toNat ch)

/-- The sum over the listed channels of pressed << c, the first channel at bit 0 (R171). -/
def pressedBits : List Channel → Nat
  | [] => 0
  | ch :: rest => ch.pressed.toNat + 2 * pressedBits rest

/-- The word TICK writes to REPORT: bit c = pressed for c < C, the other bits 0 (R171). -/
def reportWord (cfg : Params) (chans : List Channel) : Word :=
  BitVec.ofNat 32 (pressedBits (chans.take cfg.numChannels))

end Sys2Proof.Machine
end

