-- ==== Sys2Proof/Machine/TouchEngine.lean ====
section
/-! DEFINITION. The pseudocode of TICK (42_engine.md R160 to R171) and of CAL (41_calibrator.md R121),
after acceptance. -/

namespace Sys2Proof.Machine

/-- A body for each listed channel in turn. -/
def forChannels (body : Nat → Eng → Run Unit) : List Nat → Eng → Run Unit
  | [], e => .done () e
  | c :: rest, e => (body c e).andThen fun _ e => forChannels body rest e

/-- Step 1 for channel c: calibrate it if it is flagged (R161). -/
def calibrateFlagged (cfg : Params) (c : Nat) (e : Eng) : Run Unit :=
  if (channelAt e.chans c).needsCalibration then recalibrate cfg c e else .done () e

/-- Step 2 for channel c: the low fill, then the high fill, at its thresholds (R162). -/
def sampleChannel (cfg : Params) (c : Nat) (e : Eng) : Run Unit :=
  (fill cfg c .low (channelAt e.chans c).lowThreshold e).andThen fun _ e =>
  fill cfg c .high (channelAt e.chans c).highThreshold e

/-- Steps 3 to 5: every channel's rules, then REPORT (R163 to R171). -/
def decideAndReport (cfg : Params) (e : Eng) : Eng :=
  { e with
    chans := e.chans.map (decideChannel cfg)
    report := reportWord cfg (e.chans.map (decideChannel cfg)) }

/-- TICK after acceptance, up to the point where BUSY falls (R160). -/
def runTick (cfg : Params) (e : Eng) : Run Unit :=
  (discharge e).andThen fun _ e =>
  (forChannels (calibrateFlagged cfg) (List.range cfg.numChannels) e).andThen fun _ e =>
  (forChannels (sampleChannel cfg) (List.range cfg.numChannels) e).andThen fun _ e =>
  .done () (decideAndReport cfg e)

/-- CAL after acceptance, up to the point where BUSY falls (41_calibrator.md R121). -/
def runCal (cfg : Params) (ch : Nat) (e : Eng) : Run Unit :=
  (discharge e).andThen fun _ e => recalibrate cfg ch e

/-- The pseudocode of a command that issues sense transactions. -/
def runCommand (cfg : Params) : EngineCmd → Eng → Run Unit
  | .tick, e => runTick cfg e
  | .cal ch, e => runCal cfg ch e

end Sys2Proof.Machine
end

