-- ==== Sys2Proof/Machine/Sequencer.lean ====
section
/-! DEFINITION. The engine's sequencer (10_state.md R21): it starts a command, carries it on with the
answers that have come, and completes it (10_state.md R36; 43_control.md R202). -/

namespace Sys2Proof.Machine

/-- The sense answers that come before anything else the outside world does. -/
def leadingReplies : List Input → List Bool
  | .reply b :: rest => b :: leadingReplies rest
  | _ => []

/-- What the outside world does after those answers. -/
def afterReplies : List Input → List Input
  | .reply _ :: rest => afterReplies rest
  | inputs => inputs

/-- The engine state a command starts from at acceptance, with no answer received yet. -/
def engineOf (s : State) : Eng := ⟨s.chans, s.report, none, [], s.senseLog⟩

/-- The command in progress with further answers received. -/
def receive (answers : List Bool) (p : InProgress) : InProgress :=
  { p with start := { p.start with replies := p.start.replies ++ answers } }

/-- What the engine holds, put back into the state. -/
def storeEngine (e : Eng) (s : State) : State :=
  { s with chans := e.chans, report := e.report, temps := e.temps, senseLog := e.log }

/-- Completion: BUSY falls (43_control.md R202). Answers that no transaction asked for stay among the
inputs; LAST_ERR is not written. -/
def completeCommand (e : Eng) (s : State) : State :=
  { storeEngine e s with
    busy := false
    running := none
    outstanding := none
    inputs := e.replies.map Input.reply ++ s.inputs }

/-- The command waits for the answer to `req` with BUSY = 1 (20_memory.md R70; 60_exceptions.md R234). -/
def suspendCommand (req : SenseReq) (p : InProgress) (e : Eng) (s : State) : State :=
  { storeEngine e s with
    busy := true
    running := some p
    outstanding := some req }

/-- The engine goes on with the answers that come next, to completion or to an answer that has not
come. -/
def advance (p : InProgress) (s : State) : State :=
  match runCommand s.cfg p.cmd (receive (leadingReplies s.inputs) p).start with
  | .done _ e => completeCommand e { s with inputs := afterReplies s.inputs }
  | .waiting req e =>
    suspendCommand req (receive (leadingReplies s.inputs) p) e
      { s with inputs := afterReplies s.inputs }

/-- An accepted TICK or CAL: BUSY rises and the engine starts (R160; 41_calibrator.md R121). -/
def startCommand (cmd : EngineCmd) (s : State) : State :=
  advance ⟨cmd, engineOf s⟩ { s with busy := true }

/-- A sense answer arrives: the command in progress goes on; with none in progress the answer is
ignored (70_reset_and_hazards.md R251). -/
def onReply (s : State) : State :=
  match s.running with
  | some p => advance p s
  | none => { s with inputs := s.inputs.tail }

end Sys2Proof.Machine
end

