-- ==== Sys2Proof/Machine/SenseCommands.lean ====
section
/-! DEFINITION. The commands that sense: TICK (42_engine.md R160) and CAL (41_calibrator.md R121). -/

namespace Sys2Proof.Machine

/-- TICK runs one evaluation tick over all channels (R160). -/
def execTick (s : State) : Host.Outcome State Fault Refusal := accept none (startCommand .tick) s

/-- CAL calibrates one channel now, whatever its flag (R121). -/
def execCal (ch : Nat) (s : State) : Host.Outcome State Fault Refusal :=
  accept (some ch) (startCommand (.cal ch)) s

end Sys2Proof.Machine
end

