-- ==== Sys2Proof/Machine/Dispatch.lean ====
section
/-! DEFINITION. One arm for each command. -/

namespace Sys2Proof.Machine

/-- An accepted CMD write's command, executed (43_control.md R200). -/
def exec (i : Instr) (s : State) : Host.Outcome State Fault Refusal :=
  match i with
  | .nop => Sys2Proof.Machine.execNop s
  | .tick => Sys2Proof.Machine.execTick s
  | .cal ch => Sys2Proof.Machine.execCal ch s
  | .bufReset ch side => Sys2Proof.Machine.execBufReset ch side s
  | .bufPush ch side val => Sys2Proof.Machine.execBufPush ch side val s
  | .init => Sys2Proof.Machine.execInit s

end Sys2Proof.Machine
end

