-- ==== Sys2Proof/Machine/Registers.lean ====
section
/-! DEFINITION. The host register map, read side (10_state.md R39 to R47; 20_memory.md R65). -/

namespace Sys2Proof.Machine

/-- STATUS (R41). -/
def statusWord (s : State) : Word := 0#24 ++ s.lastErr ++ 0#3 ++ BitVec.ofBool s.busy

/-- CFG0 (R40). -/
def cfg0Word (cfg : Params) : Word :=
  BitVec.ofNat 4 cfg.releaseMargin ++ BitVec.ofNat 4 cfg.pressMargin
    ++ BitVec.ofNat 8 cfg.maxProbeSteps ++ BitVec.ofNat 8 cfg.numChannels
    ++ BitVec.ofNat 8 cfg.samplesNum

/-- CFG1 (R40). -/
def cfg1Word (cfg : Params) : Word :=
  0#16 ++ BitVec.ofNat 8 cfg.highFractionPct ++ BitVec.ofNat 8 cfg.lowFractionPct

/-- CFG2 (R40). -/
def cfg2Word (cfg : Params) : Word := BitVec.ofNat 32 cfg.hysteresis

/-- CFG3 (R40). -/
def cfg3Word (cfg : Params) : Word := BitVec.ofNat 32 cfg.maxTimeInGrayzone

/-- CH_THR (R43). -/
def chThrWord (pin : Byte) (ch : Channel) : Word :=
  pin ++ 0#6 ++ BitVec.ofBool ch.needsCalibration ++ BitVec.ofBool ch.pressed
    ++ ch.highThreshold ++ ch.lowThreshold

/-- CH_LBUF and CH_HBUF (R46). -/
def bufWord (b : Buffer) : Word := 0#16 ++ b.cursor ++ b.sum

/-- The registers of one channel window (R39). -/
inductive ChannelReg where
  | thr
  | gray
  | deb
  | lbuf
  | hbuf
deriving DecidableEq, Repr

/-- What a byte offset selects (R39). -/
inductive RegSelect where
  | cmd
  | status
  | report
  | cfg0
  | cfg1
  | cfg2
  | cfg3
  | channel (c : Nat) (r : ChannelReg)
  | unmapped
deriving DecidableEq, Repr

/-- The register at an offset of a channel's window (R39). -/
def channelRegAt : Nat → Option ChannelReg
  | 0x00 => some .thr
  | 0x04 => some .gray
  | 0x08 => some .deb
  | 0x0C => some .lbuf
  | 0x10 => some .hbuf
  | _ => none

/-- The register map (R39); every other offset is unmapped (R47). -/
def selectReg (cfg : Params) (off : Nat) : RegSelect :=
  if off < 0x100 then
    match off with
    | 0x000 => .cmd
    | 0x004 => .status
    | 0x008 => .report
    | 0x00C => .cfg0
    | 0x010 => .cfg1
    | 0x014 => .cfg2
    | 0x018 => .cfg3
    | _ => .unmapped
  else if (off - 0x100) / 0x20 < cfg.numChannels then
    match channelRegAt ((off - 0x100) % 0x20) with
    | some r => .channel ((off - 0x100) / 0x20) r
    | none => .unmapped
  else .unmapped

/-- A channel register's architectural value (R43 to R46). -/
def channelWord (s : State) (c : Nat) : ChannelReg → Word
  | .thr => chThrWord (pinOf s.cfg c) (channelAt s.chans c)
  | .gray => (channelAt s.chans c).grayZoneTicks
  | .deb => (channelAt s.chans c).debounceTicks
  | .lbuf => bufWord (channelAt s.chans c).lowBuffer
  | .hbuf => bufWord (channelAt s.chans c).highBuffer

/-- A channel register read while BUSY = 1: the free word `draw` with the reserved fields 0 and the
PIN_ID field exact (20_memory.md R65; 93_implementation_defined.md I2). -/
def busyChannelWord (s : State) (c : Nat) (draw : Word) : ChannelReg → Word
  | .thr => pinOf s.cfg c ++ 0#6 ++ draw.extractLsb' 0 18
  | .gray => draw
  | .deb => draw
  | .lbuf => 0#16 ++ draw.extractLsb' 0 16
  | .hbuf => 0#16 ++ draw.extractLsb' 0 16

/-- The word a read of a register returns (R39 to R47; 20_memory.md R65). -/
def regWord (s : State) : RegSelect → Word
  | .cmd => 0
  | .status => statusWord s
  | .report => s.report
  | .cfg0 => cfg0Word s.cfg
  | .cfg1 => cfg1Word s.cfg
  | .cfg2 => cfg2Word s.cfg
  | .cfg3 => cfg3Word s.cfg
  | .channel c r => if s.busy then busyChannelWord s c (Config.busyRead s.draws) r else channelWord s c r
  | .unmapped => 0

/-- Whether a read of a register draws a free word. -/
def drawsWord (s : State) : RegSelect → Bool
  | .channel _ _ => s.busy
  | _ => false

/-- A host access is an aligned 32-bit word, or the port cannot express it (20_memory.md R61). -/
def alignedWord (off : Offset) (size : Nat) : Bool := decide (size = 4 ∧ off.toNat % 4 = 0)

/-- MemRead(off, size): the word is returned to the host, and no register changes (R63). -/
def memRead (off : Offset) (size : Nat) (s : State) : Host.Outcome State Fault Refusal :=
  if alignedWord off size then
    .next { s with
      hostReads := (off, regWord s (selectReg s.cfg off.toNat)) :: s.hostReads
      draws := s.draws + (drawsWord s (selectReg s.cfg off.toNat)).toNat }
  else .refused .unsupportedAccess

/-- The byte address of byte k of the word at an offset (20_memory.md R62, R64). -/
def byteAddress (off : Offset) (k : Nat) : Nat := Config.ctcbBase + off.toNat + k

end Sys2Proof.Machine
end

