-- ==== Sys2Proof/Machine/Port.lean ====
section
/-! DEFINITION. The host register port, write side, and what each input does (20_memory.md R61, R63;
43_control.md R200; 70_reset_and_hazards.md R251). -/

namespace Sys2Proof.Machine

/-- OnCmdWrite(w) (43_control.md R200). The checks after decoding stand in the command's own meaning. -/
def onCmdWrite (w : Word) (s : State) : Host.Outcome State Fault Refusal :=
  if s.busy = true then .next (raiseCmdError .busy s)
  else
    match decodeWord w with
    | none => .next (raiseCmdError .illegal s)
    | some i => exec i s

/-- MemWrite(off, size, data): only a write to CMD has an effect (10_state.md R47; 20_memory.md R63). -/
def memWrite (off : Offset) (size : Nat) (data : Word) (s : State) :
    Host.Outcome State Fault Refusal :=
  if alignedWord off size then
    if off = 0 then onCmdWrite data s else .next s
  else .refused .unsupportedAccess

/-- The next thing the outside world does, taken from the inputs. With nothing coming, nothing happens:
no command starts by itself (43_control.md R202), and a command whose answer has not come waits
(60_exceptions.md R234). -/
def takeInput (s : State) : Host.Outcome State Fault Refusal :=
  match s.inputs with
  | [] => .next s
  | .write off size data :: rest => memWrite off size data { s with inputs := rest }
  | .read off size :: rest => memRead off size { s with inputs := rest }
  | .reply _ :: _ => .next (onReply s)
  | .staleReply _ :: rest => .next { s with inputs := rest }
  | .reset :: rest => .next (resetBlock { s with inputs := rest })

/-- A command word at the head of the inputs: the next access is its write to CMD. -/
def placeCommand (w : Word) (s : State) : State :=
  { s with inputs := .write 0 4 w :: s.inputs }

end Sys2Proof.Machine
end

