-- ==== Sys2Proof/Machine/Step.lean ====
section
/-! DEFINITION. One step: the next input is taken, under a configuration that is well-formed. -/

namespace Sys2Proof.Machine

/-- One step of the block (00_scope.md R4, R5, R8). -/
def step (s : State) : Host.Outcome State Fault Refusal :=
  if configWf s.cfg = false then .refused .illFormedConfig else takeInput s

/-- `s` with the command word of `nbits` bits `w` coming next on CMD (log 3). -/
def State.withFetchWord (s : State) (nbits w : Nat) : State :=
  placeCommand (BitVec.ofNat 32 (w % 2 ^ nbits)) s

end Sys2Proof.Machine
end

