-- ==== Sys2Proof/Machine/HostProgram.lean ====
section
/-! DEFINITION. Host programs (30_encoding.md R88 to R90): what each statement expands to, and how a host
runs one against the block. A host is no part of the block: its accesses reach it as inputs. -/

namespace Sys2Proof.Machine

/-- A statement of the assembler syntax (R88 to R90). -/
inductive HostStmt where
  /-- A command (R88). -/
  | command (i : Instr)
  /-- WR off, word (R89). -/
  | wr (off : Offset) (word : Word)
  /-- RD off (R89). -/
  | rd (off : Offset)
  /-- CMDW word (R90). -/
  | cmdw (word : Word)
  /-- WAIT (R90). -/
  | wait
  /-- TICKW (R90). -/
  | tickw
  /-- CALW ch (R90). -/
  | calw (ch : Nat)
deriving DecidableEq, Repr

/-- What a statement is shorthand for: WR, RD, and WAIT's loop over RD (R89, R90). -/
inductive HostOp where
  | write (off : Offset) (word : Word)
  | read (off : Offset)
  | wait
deriving DecidableEq, Repr

/-- The expansion of a statement (R89, R90). -/
def expandStmt : HostStmt → List HostOp
  | .command i => [.write 0 (encodeWord i)]
  | .wr off word => [.write off word]
  | .rd off => [.read off]
  | .cmdw word => [.write 0 word]
  | .wait => [.wait]
  | .tickw => [.write 0 (encodeWord .tick), .wait]
  | .calw ch => [.write 0 (encodeWord (.cal ch)), .wait]

/-- The accesses of an expansion in which each WAIT finds BUSY = 1 `polls` times. That number is no choice
of the host: `waitLoop` determines it. -/
def opAccesses (polls : Nat) : HostOp → List Input
  | .write off word => [.write off 4 word]
  | .read off => [.read off 4]
  | .wait => List.replicate (polls + 1) (.read 4 4)

/-- The accesses of a statement in which a WAIT finds BUSY = 1 `polls` times. -/
def hostAccesses (polls : Nat) (stmt : HostStmt) : List Input :=
  (expandStmt stmt).flatMap (opAccesses polls)

/-- WAIT ends at the first read of STATUS with BUSY = 0 (R90). -/
def waitEnds (status : Word) : Bool := !status.getLsbD 0

/-- What the rest of the outside world does: entry by entry, what comes before each access of the host
(log 19). -/
abbrev World := List (List Input)

/-- How a run of host statements against the block ends. -/
inductive HostRun where
  /-- The statements are done; `world` is what the rest of the outside world still does. -/
  | ended (s : State) (world : World)
  /-- The account of the outside world is over and the host goes on: a WAIT still loops, or an access is
  still to come. -/
  | goingOn (s : State)
  /-- The model refuses an access. -/
  | refused (r : Refusal)
deriving DecidableEq, Repr

/-- One part of a host program, then the next. -/
def HostRun.andThen (r : HostRun) (next : World → State → HostRun) : HostRun :=
  match r with
  | .ended s world => next world s
  | .goingOn s => .goingOn s
  | .refused r => .refused r

/-- The block takes the inputs there are, one a step. -/
def takeInputs (s : State) : Host.Outcome State Fault Refusal :=
  Sys2Proof.core.run s.inputs.length s

/-- The outside world does `events`, then the host makes an access (20_memory.md R65). -/
def hostAccess (events : List Input) (access : Input) (s : State) :
    Host.Outcome State Fault Refusal :=
  match takeInputs { s with inputs := s.inputs ++ events } with
  | .next t => step { t with inputs := access :: t.inputs }
  | .fault f => .fault f
  | .refused r => .refused r

/-- The word the latest read of the host returned. -/
def lastRead (s : State) : Word := (s.hostReads.head?.map Prod.snd).getD 0

/-- WAIT: read STATUS, again and again while BUSY = 1 (R90). -/
def waitLoop : World → State → HostRun
  | [], s => .goingOn s
  | events :: world, s =>
    match hostAccess events (.read 4 4) s with
    | .next t => if waitEnds (lastRead t) then .ended t world else waitLoop world t
    | .fault f => nomatch f
    | .refused r => .refused r

/-- One access of the host. -/
def accessOnce (access : Input) : World → State → HostRun
  | [], s => .goingOn s
  | events :: world, s =>
    match hostAccess events access s with
    | .next t => .ended t world
    | .fault f => nomatch f
    | .refused r => .refused r

/-- One part of an expansion against the block (R89, R90). -/
def runOp : HostOp → World → State → HostRun
  | .write off word => accessOnce (.write off 4 word)
  | .read off => accessOnce (.read off 4)
  | .wait => waitLoop

/-- The parts of an expansion in turn. -/
def runOps : List HostOp → World → State → HostRun
  | [], world, s => .ended s world
  | op :: ops, world, s => (runOp op world s).andThen (runOps ops)

/-- A host program against the block: its statements in order (R88 to R90). -/
def runHost (program : List HostStmt) (world : World) (s : State) : HostRun :=
  runOps (program.flatMap expandStmt) world s

end Sys2Proof.Machine
end

