-- ==== Sys2Proof/Safety.lean ====
section
/-! DEFINITION. What counts as a good state and a safe run, and the terms the statements use. -/

namespace Sys2Proof.Machine

/-- The state accepts commands: its configuration is well-formed and no command is in progress
(43_control.md R200). -/
abbrev accepting (s : State) : Prop := configWf s.cfg = true ∧ s.busy = false

/-- The CH operand of a command that has one (30_encoding.md R82). -/
def commandChannel : Instr → Option Nat
  | .cal ch => some ch
  | .bufReset ch _ => some ch
  | .bufPush ch _ _ => some ch
  | _ => none

/-- A channel with the flags step 3 of a TICK finds: step 1 clears the flag and the gray count of a flagged
channel and writes neither `pressed` nor `debounce_ticks` (42_engine.md R161). Thresholds and buffers are
as before the TICK. -/
def afterStepOne (ch : Channel) : Channel :=
  if ch.needsCalibration then { ch with needsCalibration := false, grayZoneTicks := 0 } else ch

/-- A channel's flags and counters, as 95_test_vectors.md writes them. -/
def flagsOf (ch : Channel) : Bool × Bool × Word × Word :=
  (ch.pressed, ch.needsCalibration, ch.grayZoneTicks, ch.debounceTicks)

/-- A buffer of capacity n that meets the invariant of 10_state.md R30: N slots, the cursor on one of
them, the sum the number of ones. -/
abbrev bufferOk (n : Nat) (b : Buffer) : Prop :=
  b.slots.length = n ∧ b.cursor.toNat < n ∧ b.sum.toNat = b.slots.count true

/-- A channel both of whose buffers meet their invariant (R29, R30). -/
abbrev channelOk (n : Nat) (ch : Channel) : Prop :=
  bufferOk n ch.lowBuffer ∧ bufferOk n ch.highBuffer

/-- C channels, each in order (R20, R22). -/
abbrev channelsOk (cfg : Params) (chans : List Channel) : Prop :=
  chans.length = cfg.numChannels ∧ ∀ ch ∈ chans, channelOk cfg.samplesNum ch

/-- REPORT's bits C..31 are 0 (R38). -/
abbrev reportOk (cfg : Params) (r : Word) : Prop := r.toNat < 2 ^ cfg.numChannels

/-- A command in progress names a channel that exists (43_control.md R200). -/
def commandOk (cfg : Params) : EngineCmd → Bool
  | .tick => true
  | .cal ch => decide (ch < cfg.numChannels)

/-- The transaction a run waits on, if it waits. -/
def Run.request {α : Type} : Run α → Option SenseReq
  | .done _ _ => none
  | .waiting q _ => some q

/-- The engine state a run has reached. -/
def Run.eng {α : Type} : Run α → Eng
  | .done _ e => e
  | .waiting _ e => e

/-- A run with a change made to the engine state it has reached. -/
def Run.mapEng {α : Type} (g : Eng → Eng) : Run α → Run α
  | .done a e => .done a (g e)
  | .waiting q e => .waiting q (g e)

/-- The state holds what the pseudocode of the command in progress has reached with the answers
received: the same outstanding transaction, channels, REPORT, temporaries and history. -/
abbrev heldBy (s : State) (r : Run Unit) : Prop :=
  s.outstanding = r.request ∧ s.chans = r.eng.chans ∧ s.report = r.eng.report ∧
    s.temps = r.eng.temps ∧ s.senseLog = r.eng.log

/-- While a command p is in progress: BUSY = 1, a transaction is outstanding, and the state is the one
p's pseudocode has reached (10_state.md R21, R36; 20_memory.md R73). -/
abbrev progressOk (s : State) (p : InProgress) : Prop :=
  s.busy = true ∧ s.outstanding.isSome ∧ commandOk s.cfg p.cmd = true ∧
    channelsOk s.cfg p.start.chans ∧ reportOk s.cfg p.start.report ∧ p.start.temps = none ∧
    heldBy s (runCommand s.cfg p.cmd p.start)

/-- Between commands: BUSY = 0, nothing outstanding, no temporaries (10_state.md R33, R36). -/
abbrev idleOk (s : State) : Prop := s.busy = false ∧ s.outstanding = none ∧ s.temps = none

/-- The invariant every step keeps. -/
abbrev Inv (s : State) : Prop :=
  configWf s.cfg = true ∧ channelsOk s.cfg s.chans ∧ reportOk s.cfg s.report ∧
    s.lastErr.toNat ≤ 3 ∧ (s.running = none → idleOk s) ∧ ∀ p ∈ s.running, progressOk s p

/-- Every host access among the inputs is one the port can express (20_memory.md R61). -/
def inputExpressible : Input → Bool
  | .write off size _ => alignedWord off size
  | .read off size => alignedWord off size
  | _ => true

/-- An access of the host, as opposed to what the rest of the outside world does. -/
def isAccess : Input → Bool
  | .write .. => true
  | .read .. => true
  | _ => false

/-- A step that goes on: no fault and no refusal. -/
abbrev goesOn (o : Host.Outcome State Fault Refusal) : Prop := ∃ t, o = .next t

/-- A safe state: the next step goes on. -/
abbrev Safe (s : State) : Prop := goesOn (step s)

/-- A source that answers by pin and threshold alone. -/
abbrev Source := Byte → Byte → Bool

/-- A transaction that a source answered; a DISCHARGE says nothing of it. -/
def eventObeys (src : Source) : SenseEvent → Bool
  | .read pin thr touched => touched == src pin thr
  | .discharge => true

/-- Every transaction of a history was answered by the source. -/
abbrev obeys (src : Source) (log : List SenseEvent) : Prop :=
  ∀ ev ∈ log, eventObeys src ev = true

/-- The fixed-boundary source of 41_calibrator.md R141, with a boundary for each pin. -/
def fixedBoundary (boundary : Byte → Nat) : Source := fun pin thr => decide (thr.toNat ≤ boundary pin)

/-- The transaction a request becomes when `b` answers it. -/
def answered (b : Bool) : SenseReq → SenseEvent
  | .read pin thr => .read pin thr b
  | .discharge => .discharge

/-- The events of reads of one pin at one threshold, oldest first. -/
def readsAt (pin thr : Byte) (answers : List Bool) : List SenseEvent :=
  answers.map (SenseEvent.read pin thr)

/-- The answers of the j-th fill from here on, fills following one another (40_buffer.md R104). -/
def fillAnswers (cfg : Params) (answers : List Bool) (j : Nat) : List Bool :=
  (answers.drop (j * cfg.samplesNum)).take cfg.samplesNum

/-- The events of k fills of channel c, the j-th at threshold `thr j`, oldest first. -/
def fillEvents (cfg : Params) (c : Nat) (thr : Nat → Int) (answers : List Bool) (k : Nat) :
    List SenseEvent :=
  (List.range k).flatMap fun j => readsAt (pinOf cfg c) (byte (thr j)) (fillAnswers cfg answers j)

/-- The sense transactions completed between two states, newest first. -/
def newEvents (s t : State) : List SenseEvent :=
  t.senseLog.take (t.senseLog.length - s.senseLog.length)

/-- The most READs one calibration issues (41_calibrator.md R137). -/
def calibrationReads (cfg : Params) : Nat := 2 * cfg.maxProbeSteps + 512 * cfg.samplesNum

/-- The most sense transactions CAL issues: one DISCHARGE and one calibration (R121). -/
def calTransactions (cfg : Params) : Nat := 1 + calibrationReads cfg

/-- The most sense transactions TICK issues (42_engine.md R176). -/
def tickTransactions (cfg : Params) : Nat :=
  1 + cfg.numChannels * calibrationReads cfg + 2 * cfg.samplesNum * cfg.numChannels

end Sys2Proof.Machine
end

