-- ==== Sys2Proof/Certificates/Slice0/Obligations.lean ====
section
/-! DEFINITION. The statements for the provers. -/

open Sys2Proof Sys2Proof.Machine

/-! ### Encoding -/

/-- The decoder undoes the encoder on every well-formed command, whatever bytes follow (30_encoding.md
R80, R82, R84, R85, R88). -/
def Obligations.EncodeThenDecodeGivesTheCommand : Prop :=
  ∀ (i : Instr) (rest : List Byte), i.wf = true →
    decode (bytesOfWord (encodeWord i) ++ rest) = .ok (i, rest)

/-- Each legal word has one meaning, and is that command's encoding: no bit is dropped
(30_encoding.md R83, R84, R85). -/
def Obligations.DecodeThenEncodeGivesTheWord : Prop :=
  ∀ (w : Word) (i : Instr), decodeWord w = some i → encodeWord i = w ∧ i.wf = true

/-- The rows of the opcode map are disjoint (30_encoding.md R84). The spec marks R84 as derived, an
inference of its own. -/
def Obligations.AtMostOneRowMatches : Prop :=
  ∀ w : Word, opcodeMap.Pairwise fun r r' => ¬(rowMatches w r = true ∧ rowMatches w r' = true)

/-- A word is ILLEGAL exactly when its OP is reserved or a reserved or unused bit is one
(30_encoding.md R82, R83, R86). -/
def Obligations.IllegalWordsAreThoseWithReservedBits : Prop :=
  ∀ w : Word, decodeWord w = none ↔
    6 ≤ fieldOp w ∨ w.extractLsb' 4 4 ≠ 0 ∨ w.extractLsb' 15 17 ≠ 0 ∨
    ((fieldOp w = 0 ∨ fieldOp w = 1 ∨ fieldOp w = 5) ∧ w.extractLsb' 8 7 ≠ 0) ∨
    (fieldOp w = 2 ∧ w.extractLsb' 13 2 ≠ 0) ∨ (fieldOp w = 3 ∧ w.extractLsb' 14 1 ≠ 0)

/-- The encoding examples (30_encoding.md R91): each statement's word, and what the word decodes to.
The spec marks R91 as derived, an inference of its own. -/
def Obligations.EncodingExamples : Prop :=
  (encodeWord .tick = 0x00000001#32 ∧ decodeWord 0x00000001#32 = some .tick) ∧
  (encodeWord (.cal 3) = 0x00000302#32 ∧ decodeWord 0x00000302#32 = some (.cal 3)) ∧
  (encodeWord (.bufReset 0 .high) = 0x00002003#32 ∧
    decodeWord 0x00002003#32 = some (.bufReset 0 .high)) ∧
  (encodeWord (.bufPush 1 .low true) = 0x00004104#32 ∧
    decodeWord 0x00004104#32 = some (.bufPush 1 .low true)) ∧
  (encodeWord (.bufPush 31 .high true) = 0x00007F04#32 ∧
    decodeWord 0x00007F04#32 = some (.bufPush 31 .high true)) ∧
  (encodeWord .init = 0x00000005#32 ∧ decodeWord 0x00000005#32 = some .init) ∧
  decodeWord 0x00000010#32 = none ∧ decodeWord 0x00000006#32 = none ∧
  decodeWord 0x00000101#32 = none

/-! ### Steps and acceptance -/

/-- When the next access is a write to CMD of a word whose bytes decode to a command, and no command is
in progress, the step is that command's meaning with the access taken off the inputs; a word placed by
`withFetchWord` is run so by the very next step (43_control.md R200; log 3). -/
def Obligations.StepRunsTheDecodedCommand : Prop :=
  (∀ (s : State) (w : Word) (i : Instr) (rest : List Input), accepting s →
    s.inputs = .write 0 4 w :: rest → decode (bytesOfWord w) = .ok (i, []) →
    step s = exec i { s with inputs := rest }) ∧
  (∀ (s : State) (w : Nat) (i : Instr), accepting s → decodeTableWord 32 w = some i →
    step (s.withFetchWord 32 w) = exec i s)

/-- A rejected CMD write records the first error of BUSY, ILLEGAL, BAD_CHANNEL and changes nothing else;
with the two examples of 60_exceptions.md R222. -/
def Obligations.CommandErrorsByPriority : Prop :=
  (∀ (s : State) (w : Word) (rest : List Input), configWf s.cfg = true →
    s.inputs = .write 0 4 w :: rest →
    (s.busy = true → step s = .next { s with inputs := rest, lastErr := 1 }) ∧
    (s.busy = false → decodeWord w = none →
      step s = .next { s with inputs := rest, lastErr := 2 }) ∧
    (∀ i ch, s.busy = false → decodeWord w = some i → commandChannel i = some ch →
      s.cfg.numChannels ≤ ch → step s = .next { s with inputs := rest, lastErr := 3 })) ∧
  (∀ (s : State) (rest : List Input), configWf s.cfg = true → s.busy = true →
    s.inputs = .write 0 4 0x00000006#32 :: rest →
    step s = .next { s with inputs := rest, lastErr := 1 }) ∧
  (∀ (s : State) (rest : List Input), accepting s → s.cfg.numChannels = 4 →
    s.inputs = .write 0 4 0x00001F12#32 :: rest →
    step s = .next { s with inputs := rest, lastErr := 2 })

/-- Any number of host writes that arrive while a command is in progress change LAST_ERR at most, and
what the command then does with an answer is what it does without them, LAST_ERR apart
(60_exceptions.md R221; 43_control.md R200; 10_state.md R47). -/
def Obligations.WritesWhileBusyLeaveTheCommandAlone : Prop :=
  (∀ (s : State) (ws : List (Offset × Word)) (rest : List Input), configWf s.cfg = true →
    s.busy = true → (∀ p ∈ ws, p.1.toNat % 4 = 0) →
    s.inputs = ws.map (fun p => Input.write p.1 4 p.2) ++ rest →
    Sys2Proof.core.run ws.length s = .next
      { s with
        inputs := rest
        lastErr := if ws.any (fun p => p.1 == 0) then 1 else s.lastErr }) ∧
  (∀ (s t : State) (b : Bool) (rest : List Input) (code : BitVec 4), configWf s.cfg = true →
    s.busy = true → s.inputs = .reply b :: rest → step s = .next t →
    step { s with lastErr := code } = .next { t with lastErr := code })

/-- CAL, BUF_RESET and BUF_PUSH of a channel that does not exist record BAD_CHANNEL, and every command
while one is in progress records BUSY; nothing else changes (43_control.md R200). -/
def Obligations.RejectedCommandsChangeOnlyLastErr : Prop :=
  (∀ (i : Instr) (ch : Nat) (s : State), accepting s → commandChannel i = some ch →
    s.cfg.numChannels ≤ ch → exec i s = .next { s with lastErr := 3 }) ∧
  (∀ (i : Instr) (s : State), configWf s.cfg = true → s.busy = true →
    exec i s = .next { s with lastErr := 1 })

/-! ### Control commands -/

/-- NOP completes and changes LAST_ERR alone; only the zero word is NOP (43_control.md R201). -/
def Obligations.NopOnlyRecordsSuccess : Prop :=
  (∀ s : State, accepting s → exec .nop s = .next { s with lastErr := 0 }) ∧
  (∀ s : State, configWf s.cfg = true → s.busy = true →
    exec .nop s = .next { s with lastErr := 1 }) ∧
  decodeWord 0 = some .nop ∧ (∀ w : Word, fieldOp w = 0 → w ≠ 0 → decodeWord w = none)

/-- INIT completes with the creation values in every channel, buffer and REPORT, LAST_ERR = 0 and nothing
else changed; a second INIT changes nothing; while BUSY it is rejected; its word is 0x00000005 and no other
(43_control.md R203). -/
def Obligations.InitRestoresTheCreationState : Prop :=
  (∀ w : Word, decodeWord w = some .init ↔ w = 0x00000005#32) ∧
  ∀ s : State, configWf s.cfg = true →
    (s.busy = false → ∃ t, exec .init s = .next t ∧
      t = { s with chans := t.chans, report := 0, lastErr := 0 } ∧
      t.chans.length = s.cfg.numChannels ∧
      (∀ c < s.cfg.numChannels, channelAt t.chans c =
        { lowThreshold := 64, highThreshold := 192, pressed := false, needsCalibration := true,
          grayZoneTicks := 0, debounceTicks := 0,
          lowBuffer := ⟨List.replicate s.cfg.samplesNum false, 0, 0⟩,
          highBuffer := ⟨List.replicate s.cfg.samplesNum false, 0, 0⟩ }) ∧
      (∀ c < s.cfg.numChannels, regWord t (.channel c .thr) =
        (pinOf s.cfg c).setWidth 32 <<< 24 ||| 0x0002C040#32) ∧
      exec .init t = .next t) ∧
    (s.busy = true → exec .init s = .next { s with lastErr := 1 })

/-! ### Buffers -/

/-- A push: the oldest sample leaves the sum and the new one enters it, the slot under the cursor takes
the sample, the cursor advances modulo N, and the invariant of 10_state.md R30 stays (40_buffer.md
R101). -/
def Obligations.PushEvictsTheOldestSample : Prop :=
  ∀ (n : Nat) (b : Buffer) (x : Bool), 1 ≤ n → n ≤ 255 → bufferOk n b →
    let old := b.slots.getD b.cursor.toNat false
    (pushBuffer n x b).sum.toNat + old.toNat = b.sum.toNat + x.toNat ∧
      (pushBuffer n x b).sum.toNat ≤ n ∧
      (pushBuffer n x b).slots = b.slots.set b.cursor.toNat x ∧
      (pushBuffer n x b).cursor.toNat = (b.cursor.toNat + 1) % n ∧
      bufferOk n (pushBuffer n x b)

/-- Reset is idempotent: all slots 0, cursor 0, sum 0 (40_buffer.md R107). The spec marks R107 as
derived, an inference of its own. -/
def Obligations.ResetTwiceIsResetOnce : Prop :=
  ∀ (n : Nat) (b : Buffer),
    resetBuffer n (resetBuffer n b) = resetBuffer n b ∧
      resetBuffer n b = ⟨List.replicate n false, 0, 0⟩

/-- After a reset and any pushes, the sum is the number of ones among the last min(k, N) of them
(40_buffer.md R106). The spec marks R106 as derived, an inference of its own. -/
def Obligations.SumCountsTheLastPushes : Prop :=
  ∀ (n : Nat) (b : Buffer) (xs : List Bool), 1 ≤ n → n ≤ 255 →
    (xs.foldl (fun b x => pushBuffer n x b) (resetBuffer n b)).sum.toNat =
      (xs.drop (xs.length - min xs.length n)).count true

/-- BUF_PUSH completes: one push into one buffer of one channel, LAST_ERR = 0, nothing else changed
(40_buffer.md R109). -/
def Obligations.BufPushPushesIntoOneBuffer : Prop :=
  ∀ (ch : Nat) (side : Side) (val : Bool) (s : State), accepting s →
    channelsOk s.cfg s.chans → ch < s.cfg.numChannels →
    ∃ t b, exec (.bufPush ch side val) s = .next t ∧
      t = { s with chans := t.chans, lastErr := 0 } ∧
      t.chans.length = s.chans.length ∧
      channelAt t.chans ch = updateBufferOf side (fun _ => b) (channelAt s.chans ch) ∧
      (∀ c, c ≠ ch → channelAt t.chans c = channelAt s.chans c) ∧
      b.slots = (bufferAt s.chans ch side).slots.set (bufferAt s.chans ch side).cursor.toNat val ∧
      b.cursor.toNat = ((bufferAt s.chans ch side).cursor.toNat + 1) % s.cfg.samplesNum ∧
      b.sum.toNat = b.slots.count true

/-- BUF_RESET completes: one buffer of one channel all zero, LAST_ERR = 0, nothing else changed
(40_buffer.md R108). -/
def Obligations.BufResetClearsOneBuffer : Prop :=
  ∀ (ch : Nat) (side : Side) (s : State), accepting s → s.chans.length = s.cfg.numChannels →
    ch < s.cfg.numChannels →
    ∃ t, exec (.bufReset ch side) s = .next t ∧
      t = { s with chans := t.chans, lastErr := 0 } ∧
      t.chans.length = s.chans.length ∧
      channelAt t.chans ch =
        updateBufferOf side (fun _ => ⟨List.replicate s.cfg.samplesNum false, 0, 0⟩)
          (channelAt s.chans ch) ∧
      (∀ c, c ≠ ch → channelAt t.chans c = channelAt s.chans c)

/-- A fill with its N answers at hand completes: exactly N READs of the channel's pin at the
threshold, in order; the sum is the number of ones among the answers, whatever the buffer held; the
cursor is where it was; nothing but that buffer changes (40_buffer.md R104, R105). The spec marks
R105 as derived, an inference of its own. -/
def Obligations.FillSumIsTheTouchedCount : Prop :=
  ∀ (cfg : Params) (c : Nat) (side : Side) (t : Byte) (e : Eng), configWf cfg = true →
    channelsOk cfg e.chans → c < cfg.numChannels → cfg.samplesNum ≤ e.replies.length →
    ∃ b, fill cfg c side t e = .done ()
        { e with
          chans := updateBuffer e.chans c side (fun _ => b)
          replies := e.replies.drop cfg.samplesNum
          log := (readsAt (pinOf cfg c) t (e.replies.take cfg.samplesNum)).reverse ++ e.log } ∧
      b.sum.toNat = (e.replies.take cfg.samplesNum).count true ∧
      b.cursor = (bufferAt e.chans c side).cursor ∧ bufferOk cfg.samplesNum b

/-! ### Configuration -/

/-- The decision constants make every fraction comparison exactly, and lie in 0..N (00_scope.md R7).
The spec marks R7 as derived, an inference of its own. -/
def Obligations.DecisionConstantsAreExact : Prop :=
  ∀ cfg : Params, configWf cfg = true →
    (∀ s : Nat, s ≤ cfg.samplesNum →
      ((s : Int) ≤ kRel cfg ↔ 100 * s ≤ cfg.samplesNum * 10) ∧
      ((s : Int) ≤ kLow cfg ↔ 100 * s ≤ cfg.samplesNum * cfg.lowFractionPct) ∧
      ((s : Int) > kLow cfg ↔ 100 * s > cfg.samplesNum * cfg.lowFractionPct) ∧
      ((s : Int) ≥ kHigh cfg ↔ 100 * s ≥ cfg.samplesNum * cfg.highFractionPct) ∧
      ((s : Int) ≥ kPress cfg ↔ 100 * s ≥ cfg.samplesNum * 90)) ∧
    (0 ≤ kRel cfg ∧ kRel cfg ≤ cfg.samplesNum) ∧ (0 ≤ kLow cfg ∧ kLow cfg ≤ cfg.samplesNum) ∧
    (0 ≤ kHigh cfg ∧ kHigh cfg ≤ cfg.samplesNum) ∧ (0 ≤ kPress cfg ∧ kPress cfg ≤ cfg.samplesNum)

/-! ### Calibration -/

/-- The coarse search starts at lo 64, hi 192, highest_low 0, lowest_high 255; each answer moves its side
up or down as R125 and R126 say, each midpoint rounded as they say; 0 <= highest_low <= lo < hi <=
lowest_high <= 255 holds in every iteration, so the cross-over recovery never runs; at most
MAX_PROBE_STEPS iterations run, of two READs each (41_calibrator.md R123 to R128). The spec marks R128 as
derived, an inference of its own. -/
def Obligations.CoarseSearchStaysOrdered : Prop :=
  let ordered := fun q : Search =>
    0 ≤ q.highestLow ∧ q.highestLow ≤ q.lo ∧ q.lo < q.hi ∧ q.hi ≤ q.lowestHigh ∧ q.lowestHigh ≤ 255
  (searchStart.lo = 64 ∧ searchStart.hi = 192 ∧ searchStart.highestLow = 0 ∧
    searchStart.lowestHigh = 255) ∧
  (∀ q : Search,
    (∃ lo : Int, probeLow true q = ⟨lo, q.hi, q.lo, q.lowestHigh⟩ ∧
      2 * (lo - q.lo) ≤ q.hi - q.lo ∧ q.hi - q.lo < 2 * (lo - q.lo + 1)) ∧
    (∃ lo : Int, probeLow false q = ⟨lo, q.hi, q.highestLow, q.lowestHigh⟩ ∧
      2 * lo ≤ q.lo + q.highestLow ∧ q.lo + q.highestLow < 2 * (lo + 1)) ∧
    (∃ hi : Int, probeHigh true q = ⟨q.lo, hi, q.highestLow, q.lowestHigh⟩ ∧
      2 * (hi - 1) < q.hi + q.lowestHigh ∧ q.hi + q.lowestHigh ≤ 2 * hi) ∧
    (∃ hi : Int, probeHigh false q = ⟨q.lo, hi, q.highestLow, q.hi⟩ ∧
      2 * (q.hi - hi) ≤ q.hi - q.lo ∧ q.hi - q.lo < 2 * (q.hi - hi + 1))) ∧
  ordered searchStart ∧
  (∀ (q : Search) (a b : Bool), ordered q → q.hi > q.lo + 1 →
    ordered (searchStep a b q) ∧ searchStep a b q = probeHigh b (probeLow a q)) ∧
  (∀ (cfg : Params) (c k : Nat) (q q' : Search) (e e' : Eng), ordered q →
    coarse cfg c k q e = .done q' e' →
    ordered q' ∧ ∃ n ≤ k, e.replies.length = e'.replies.length + 2 * n)

/-- While the coarse search waits for an answer it holds its three temporaries: the threshold of the
outstanding READ of its own pin lies between highest_low and lowest_high, and probe_count is 1 to
MAX_PROBE_STEPS (10_state.md R33; 41_calibrator.md R122 to R126). -/
def Obligations.ProbesLieBetweenTheTemporaries : Prop :=
  ∀ (cfg : Params) (c k : Nat) (q : Search) (e e' : Eng) (req : SenseReq), configWf cfg = true →
    k ≤ cfg.maxProbeSteps → 0 ≤ q.highestLow → q.highestLow ≤ q.lo → q.lo < q.hi →
    q.hi ≤ q.lowestHigh → q.lowestHigh ≤ 255 → coarse cfg c k q e = .waiting req e' →
    ∃ (t : CalTemps) (thr : Byte), e'.temps = some t ∧ req = .read (pinOf cfg c) thr ∧
      t.highestLow ≤ thr ∧ thr ≤ t.lowestHigh ∧ 1 ≤ t.probeCount.toNat ∧
      t.probeCount.toNat ≤ cfg.maxProbeSteps

/-- Cross-over recovery: both results from the captured values, rounded down and up, clamped
(41_calibrator.md R127). -/
def Obligations.CrossOverRecoveryRoundsAndClamps : Prop :=
  ∀ q : Search,
    (q.lo < q.hi → crossOver q = q) ∧
    (q.hi ≤ q.lo → ∃ down up : Int,
      2 * down ≤ q.lo - q.hi - 1 ∧ q.lo - q.hi - 1 < 2 * (down + 1) ∧
      2 * (up - 1) < q.lo - q.hi + 1 ∧ q.lo - q.hi + 1 ≤ 2 * up ∧
      crossOver q =
        ⟨max 0 (min 255 down), max 0 (min 255 up), q.highestLow, q.lowestHigh⟩ ∧
      (q.lo = q.hi → down = -1))

/-- The low walks, fill by fill: up from a satisfied threshold to the last one whose fill is satisfied,
or 255; down from an unsatisfied one to the first whose fill is satisfied, or 0. The initial fill chooses:
fine adjustment fills low at lo and high at hi, then the low side walks up if LowOK holds of its own fill,
and down if not (41_calibrator.md R129, R131, R132). -/
def Obligations.LowWalkStopsAtTheCriterion : Prop :=
  ∀ (cfg : Params) (c gap lo : Nat) (e e' : Eng) (r : Int), configWf cfg = true →
    channelsOk cfg e.chans → c < cfg.numChannels →
    (gap ≤ 255 → lowWalkUp cfg c gap e = .done r e' →
      ∃ m rounds, m ≤ gap ∧ r = 255 - gap + m ∧ rounds = min (m + 1) gap ∧
        (∀ j < m, lowOK cfg ((fillAnswers cfg e.replies j).count true) = true) ∧
        (m < gap → lowOK cfg ((fillAnswers cfg e.replies m).count true) = false) ∧
        e'.replies = e.replies.drop (rounds * cfg.samplesNum) ∧
        e'.log = (fillEvents cfg c (fun j => 255 - gap + 1 + j) e.replies rounds).reverse ++ e.log) ∧
    (lo ≤ 255 → lowWalkDown cfg c lo e = .done r e' →
      ∃ rounds, rounds ≤ lo ∧ r = lo - rounds ∧
        (∀ j, j + 1 < rounds → lowOK cfg ((fillAnswers cfg e.replies j).count true) = false) ∧
        (∀ j, j + 1 = rounds → r ≠ 0 →
          lowOK cfg ((fillAnswers cfg e.replies j).count true) = true) ∧
        (rounds = 0 → lo = 0) ∧
        e'.replies = e.replies.drop (rounds * cfg.samplesNum) ∧
        e'.log = (fillEvents cfg c (fun j => lo - 1 - j) e.replies rounds).reverse ++ e.log) ∧
    (∀ start : Int,
      (lowOK cfg (sumAt e.chans c .low) = true →
        lowWalk cfg c start e = lowWalkUp cfg c (255 - start).toNat e) ∧
      (lowOK cfg (sumAt e.chans c .low) = false →
        lowWalk cfg c start e = lowWalkDown cfg c start.toNat e)) ∧
    (∀ (q : Search) (p : Int × Int), fineAdjust cfg c q e = .done p e' →
      ∃ e₁ e₂, e₁.replies = e.replies.drop (2 * cfg.samplesNum) ∧
        e₁.log = (readsAt (pinOf cfg c) (byte q.lo) (fillAnswers cfg e.replies 0) ++
          readsAt (pinOf cfg c) (byte q.hi) (fillAnswers cfg e.replies 1)).reverse ++ e.log ∧
        (lowOK cfg ((fillAnswers cfg e.replies 0).count true) = true →
          lowWalkUp cfg c (255 - q.lo).toNat e₁ = .done p.1 e₂) ∧
        (lowOK cfg ((fillAnswers cfg e.replies 0).count true) = false →
          lowWalkDown cfg c q.lo.toNat e₁ = .done p.1 e₂))

/-- The high walks, fill by fill: up from an unsatisfied threshold to the first whose fill is satisfied,
or 255; down from a satisfied one to the last whose fill is satisfied, or 0. The initial fill chooses:
once the low side is done, the high side walks down if HighOK holds of its own initial fill, and up if not
(41_calibrator.md R129, R133, R134). -/
def Obligations.HighWalkStopsAtTheCriterion : Prop :=
  ∀ (cfg : Params) (c gap hi : Nat) (e e' : Eng) (r : Int), configWf cfg = true →
    channelsOk cfg e.chans → c < cfg.numChannels →
    (gap ≤ 255 → highWalkUp cfg c gap e = .done r e' →
      ∃ rounds, rounds ≤ gap ∧ r = 255 - gap + rounds ∧
        (∀ j, j + 1 < rounds → highOK cfg ((fillAnswers cfg e.replies j).count true) = false) ∧
        (∀ j, j + 1 = rounds → r ≠ 255 →
          highOK cfg ((fillAnswers cfg e.replies j).count true) = true) ∧
        (rounds = 0 → gap = 0) ∧
        e'.replies = e.replies.drop (rounds * cfg.samplesNum) ∧
        e'.log = (fillEvents cfg c (fun j => 255 - gap + 1 + j) e.replies rounds).reverse ++ e.log) ∧
    (hi ≤ 255 → highWalkDown cfg c hi e = .done r e' →
      ∃ m rounds, m ≤ hi ∧ r = hi - m ∧ rounds = min (m + 1) hi ∧
        (∀ j < m, highOK cfg ((fillAnswers cfg e.replies j).count true) = true) ∧
        (m < hi → highOK cfg ((fillAnswers cfg e.replies m).count true) = false) ∧
        e'.replies = e.replies.drop (rounds * cfg.samplesNum) ∧
        e'.log = (fillEvents cfg c (fun j => hi - 1 - j) e.replies rounds).reverse ++ e.log) ∧
    (∀ start : Int,
      (highOK cfg (sumAt e.chans c .high) = true →
        highWalk cfg c start e = highWalkDown cfg c start.toNat e) ∧
      (highOK cfg (sumAt e.chans c .high) = false →
        highWalk cfg c start e = highWalkUp cfg c (255 - start).toNat e)) ∧
    (∀ (q : Search) (p : Int × Int), fineAdjust cfg c q e = .done p e' →
      ∃ e₁ e₂, e₁.replies = e.replies.drop (2 * cfg.samplesNum) ∧
        lowWalk cfg c q.lo e₁ = .done p.1 e₂ ∧
        (highOK cfg ((fillAnswers cfg e.replies 1).count true) = true →
          highWalkDown cfg c q.hi.toNat e₂ = .done p.2 e') ∧
        (highOK cfg ((fillAnswers cfg e.replies 1).count true) = false →
          highWalkUp cfg c (255 - q.hi).toNat e₂ = .done p.2 e'))

/-- Margins: the low threshold is lowered and the high one raised, clamped, with no READ
(41_calibrator.md R136); then both are written and the flag is cleared (R139). -/
def Obligations.MarginsWidenAndClamp : Prop :=
  ∀ (cfg : Params) (c : Nat) (lo hi : Int) (e : Eng), configWf cfg = true → c < e.chans.length →
    0 ≤ lo → lo ≤ 255 → 0 ≤ hi → hi ≤ 255 →
    ∃ low high : Byte, (low.toNat : Int) = max 0 (lo - cfg.releaseMargin) ∧
      (high.toNat : Int) = min 255 (hi + cfg.pressMargin) ∧
      finishCalibration cfg c lo hi e =
        { e with
          temps := none
          chans := updateChannel e.chans c fun ch =>
            { ch with lowThreshold := low, highThreshold := high, needsCalibration := false } }

/-- Fine adjustment on a source with a fixed boundary B leaves lo = B and hi = B + 1, wherever the
coarse search ended (41_calibrator.md R130, R141). The spec marks R141 as derived, an inference of
its own. -/
def Obligations.FineAdjustmentFindsTheBoundary : Prop :=
  ∀ (cfg : Params), configWf cfg = true → cfg.lowFractionPct < 100 → 0 < cfg.highFractionPct →
    (lowOK cfg cfg.samplesNum = true ∧ lowOK cfg 0 = false ∧ highOK cfg 0 = true ∧
      highOK cfg cfg.samplesNum = false) ∧
    ∀ (c : Nat) (q : Search) (e e' : Eng) (r : Int × Int) (boundary : Nat) (new : List SenseEvent),
      channelsOk cfg e.chans → c < cfg.numChannels → boundary ≤ 254 →
      0 ≤ q.lo → q.lo < q.hi → q.hi ≤ 255 →
      fineAdjust cfg c q e = .done r e' → e'.log = new ++ e.log →
      obeys (fixedBoundary fun _ => boundary) new →
      r = ((boundary : Int), (boundary : Int) + 1)

/-- A CAL that completes on a source with a fixed boundary B ends with the thresholds on both sides
of B, each its margin away (41_calibrator.md R141, R136). The spec marks R141 as derived, an
inference of its own. -/
def Obligations.CalBracketsTheBoundary : Prop :=
  ∀ (s t : State) (ch boundary : Nat), accepting s → channelsOk s.cfg s.chans →
    ch < s.cfg.numChannels → s.cfg.lowFractionPct < 100 → 0 < s.cfg.highFractionPct →
    boundary ≤ 254 → exec (.cal ch) s = .next t → t.busy = false →
    obeys (fixedBoundary fun _ => boundary) (newEvents s t) →
    (channelAt t.chans ch).lowThreshold.toNat = boundary - s.cfg.releaseMargin ∧
      (channelAt t.chans ch).highThreshold.toNat = min 255 (boundary + 1 + s.cfg.pressMargin) ∧
      (channelAt t.chans ch).lowThreshold.toNat ≤ boundary ∧
      boundary + 1 ≤ (channelAt t.chans ch).highThreshold.toNat

/-- A pin that always answers 0 ends at (0, PRESS_MARGIN), one that always answers 1 at (255 -
RELEASE_MARGIN, 255) (41_calibrator.md R143). The spec marks R143 as derived, an inference of its
own. -/
def Obligations.CalOfAConstantPin : Prop :=
  ∀ (s t : State) (ch : Nat), accepting s → channelsOk s.cfg s.chans → ch < s.cfg.numChannels →
    exec (.cal ch) s = .next t → t.busy = false →
    (obeys (fun _ _ => false) (newEvents s t) → 0 < s.cfg.highFractionPct →
      (channelAt t.chans ch).lowThreshold = 0 ∧
      (channelAt t.chans ch).highThreshold.toNat = s.cfg.pressMargin) ∧
    (obeys (fun _ _ => true) (newEvents s t) → s.cfg.lowFractionPct < 100 →
      (channelAt t.chans ch).lowThreshold.toNat = 255 - s.cfg.releaseMargin ∧
      (channelAt t.chans ch).highThreshold.toNat = 255)

/-- The order of the thresholds after a calibration: strict for a fixed boundary, not reversed for
the two constant sources and strict with a margin, and not guaranteed for every source
(41_calibrator.md R142). The spec marks R142 as derived, an inference of its own. -/
def Obligations.ThresholdOrderAfterCalibration : Prop :=
  (∀ (s t : State) (ch : Nat), accepting s → channelsOk s.cfg s.chans → ch < s.cfg.numChannels →
    exec (.cal ch) s = .next t → t.busy = false →
    (∀ boundary ≤ 254, s.cfg.lowFractionPct < 100 → 0 < s.cfg.highFractionPct →
      obeys (fixedBoundary fun _ => boundary) (newEvents s t) →
      (channelAt t.chans ch).lowThreshold < (channelAt t.chans ch).highThreshold) ∧
    (obeys (fun _ _ => false) (newEvents s t) →
      (channelAt t.chans ch).lowThreshold ≤ (channelAt t.chans ch).highThreshold ∧
      (1 ≤ s.cfg.pressMargin →
        (channelAt t.chans ch).lowThreshold < (channelAt t.chans ch).highThreshold)) ∧
    (obeys (fun _ _ => true) (newEvents s t) →
      (channelAt t.chans ch).lowThreshold ≤ (channelAt t.chans ch).highThreshold ∧
      (1 ≤ s.cfg.releaseMargin →
        (channelAt t.chans ch).lowThreshold < (channelAt t.chans ch).highThreshold))) ∧
  (∃ s t : State, accepting s ∧ channelsOk s.cfg s.chans ∧ s.cfg.lowFractionPct < 100 ∧
    0 < s.cfg.highFractionPct ∧ exec (.cal 0) s = .next t ∧ t.busy = false ∧
    (channelAt t.chans 0).highThreshold < (channelAt t.chans 0).lowThreshold)

/-- CAL completes once its answers are there: one DISCHARGE, then READs of the channel's own pin, at
most 2·MAX_PROBE_STEPS + 512·N of them; the flag is cleared, the gray count is 0, and besides the
channel's thresholds and buffers nothing else changes (41_calibrator.md R121, R137, R139, R140). The
spec marks R137 as derived, an inference of its own. -/
def Obligations.CalCompletesAndWritesOneChannel : Prop :=
  ∀ (s : State) (ch : Nat), accepting s → channelsOk s.cfg s.chans → ch < s.cfg.numChannels →
    calTransactions s.cfg ≤ (leadingReplies s.inputs).length →
    ∃ (t : State) (reads : List SenseEvent), exec (.cal ch) s = .next t ∧
      t = { s with
        chans := t.chans
        lastErr := 0
        temps := none
        running := none
        outstanding := none
        inputs := s.inputs.drop (reads.length + 1)
        senseLog := reads ++ .discharge :: s.senseLog } ∧
      reads.length ≤ calibrationReads s.cfg ∧
      (∀ ev ∈ reads, ∃ thr b, ev = .read (pinOf s.cfg ch) thr b) ∧
      channelsOk s.cfg t.chans ∧
      (∀ c, c ≠ ch → channelAt t.chans c = channelAt s.chans c) ∧
      (channelAt t.chans ch).needsCalibration = false ∧
      (channelAt t.chans ch).grayZoneTicks = 0 ∧
      (channelAt t.chans ch).pressed = (channelAt s.chans ch).pressed ∧
      (channelAt t.chans ch).debounceTicks = (channelAt s.chans ch).debounceTicks

/-- A calibration reads and writes only its own channel: whatever another channel holds, the calibration
does the same and leaves it as it was (41_calibrator.md R144). -/
def Obligations.CalibrationIgnoresOtherChannels : Prop :=
  ∀ (cfg : Params) (c d : Nat) (e : Eng), d ≠ c →
    channelAt (calibrate cfg c e).eng.chans d = channelAt e.chans d ∧
    (calibrate cfg c e).eng.report = e.report ∧
    ∀ f : Channel → Channel,
      calibrate cfg c { e with chans := updateChannel e.chans d f } =
        (calibrate cfg c e).mapEng fun e => { e with chans := updateChannel e.chans d f }

/-! ### The decision rules -/

/-- Step 3 by bands (42_engine.md R165, R166, R167). -/
def Obligations.LowSideBands : Prop :=
  ∀ (cfg : Params) (s : Nat) (ch : Channel), configWf cfg = true →
    let d := min (ch.debounceTicks.toNat + 1) (2 ^ 32 - 1)
    let g := min (ch.grayZoneTicks.toNat + 1) (2 ^ 32 - 1)
    ((s : Int) ≤ kRel cfg →
      (d > cfg.hysteresis → lowRule cfg s ch =
        { ch with
          pressed := false, needsCalibration := true, grayZoneTicks := 0, debounceTicks := 0 }) ∧
      (d ≤ cfg.hysteresis → lowRule cfg s ch =
        { ch with debounceTicks := BitVec.ofNat 32 d }) ∧
      (cfg.hysteresis = 0 → d > cfg.hysteresis) ∧
      (cfg.hysteresis = 2 ^ 32 - 1 → d ≤ cfg.hysteresis)) ∧
    (kRel cfg < s → (s : Int) ≤ kLow cfg →
      (g ≥ cfg.maxTimeInGrayzone → lowRule cfg s ch =
        { ch with
          grayZoneTicks := BitVec.ofNat 32 g, needsCalibration := true, pressed := false }) ∧
      (g < cfg.maxTimeInGrayzone → lowRule cfg s ch =
        { ch with grayZoneTicks := BitVec.ofNat 32 g })) ∧
    (kLow cfg < s → kRel cfg < s → lowRule cfg s ch = { ch with grayZoneTicks := 0 })

/-- Step 4 by bands (42_engine.md R168, R169, R170). -/
def Obligations.HighSideBands : Prop :=
  ∀ (cfg : Params) (h : Nat) (ch : Channel), configWf cfg = true →
    let g := min (ch.grayZoneTicks.toNat + 1) (2 ^ 32 - 1)
    (kPress cfg ≤ h → highRule cfg h ch =
      { ch with
        pressed := true, debounceTicks := 0, needsCalibration := true, grayZoneTicks := 0 }) ∧
    (kHigh cfg ≤ h → (h : Int) < kPress cfg →
      (g ≥ cfg.maxTimeInGrayzone → highRule cfg h ch =
        { ch with
          grayZoneTicks := BitVec.ofNat 32 g, needsCalibration := true, pressed := false }) ∧
      (g < cfg.maxTimeInGrayzone → highRule cfg h ch =
        { ch with grayZoneTicks := BitVec.ofNat 32 g })) ∧
    ((h : Int) < kHigh cfg → (h : Int) < kPress cfg → highRule cfg h ch =
      { ch with grayZoneTicks := 0 })

/-- A press in step 4 overrides whatever step 3 did, a release or a watchdog (42_engine.md R173).
The spec marks R173 as derived, an inference of its own. -/
def Obligations.PressWinsOverRelease : Prop :=
  ∀ (cfg : Params) (ch : Channel), kPress cfg ≤ ch.highBuffer.sum.toNat →
    decideChannel cfg ch =
      { ch with pressed := true, needsCalibration := true, grayZoneTicks := 0, debounceTicks := 0 }

/-- The shared gray count at the end of a tick: 0 unless the high side is in its gray band, and
there one more than the low side left (42_engine.md R174). The spec marks R174 as derived, an
inference of its own. -/
def Obligations.GrayCountIsShared : Prop :=
  ∀ (cfg : Params) (s h : Nat) (ch : Channel),
    ((h : Int) < kHigh cfg ∨ kPress cfg ≤ h →
      (highRule cfg h (lowRule cfg s ch)).grayZoneTicks = 0) ∧
    (kHigh cfg ≤ h → (h : Int) < kPress cfg →
      (highRule cfg h (lowRule cfg s ch)).grayZoneTicks.toNat =
        min ((lowRule cfg s ch).grayZoneTicks.toNat + 1) (2 ^ 32 - 1))

/-- A press ends in a completed TICK only through a strong release past HYSTERESIS or through the gray-zone
watchdog on one side, on the sums of that TICK's own fills and the counters step 1 leaves; the same of
steps 3 and 4 alone (42_engine.md R175; 10_state.md R25). The spec marks R175 as derived, an inference of
its own. -/
def Obligations.PressEndsOnlyByReleaseOrWatchdog : Prop :=
  let endsPress := fun (cfg : Params) (low high : Nat) (ch : Channel) =>
    ((low : Int) ≤ kRel cfg ∧ cfg.hysteresis < min (ch.debounceTicks.toNat + 1) (2 ^ 32 - 1)) ∨
    (kRel cfg < low ∧ (low : Int) ≤ kLow cfg ∧
      cfg.maxTimeInGrayzone ≤ min (ch.grayZoneTicks.toNat + 1) (2 ^ 32 - 1)) ∨
    (kHigh cfg ≤ high ∧ (high : Int) < kPress cfg ∧
      cfg.maxTimeInGrayzone ≤ min ((lowRule cfg low ch).grayZoneTicks.toNat + 1) (2 ^ 32 - 1))
  (∀ (s t : State) (c : Nat), accepting s → channelsOk s.cfg s.chans → exec .tick s = .next t →
    t.busy = false → (channelAt s.chans c).pressed = true → (channelAt t.chans c).pressed = false →
    endsPress s.cfg (bufferAt t.chans c .low).sum.toNat (bufferAt t.chans c .high).sum.toNat
      (afterStepOne (channelAt s.chans c))) ∧
  (∀ (cfg : Params) (ch : Channel), ch.pressed = true → (decideChannel cfg ch).pressed = false →
    endsPress cfg ch.lowBuffer.sum.toNat ch.highBuffer.sum.toNat ch)

/-- No command but a completed TICK turns a channel's `pressed` on (10_state.md R25; 43_control.md
R204). -/
def Obligations.OnlyTickSetsPressed : Prop :=
  ∀ (i : Instr) (s t : State) (c : Nat), exec i s = .next t →
    (channelAt s.chans c).pressed = false → (channelAt t.chans c).pressed = true →
    i = .tick ∧ t.busy = false

/-! ### TICK -/

/-- At the end of a TICK, REPORT bit c is `pressed` of channel c for c < C and the other bits are 0; BUSY
has fallen (42_engine.md R171). -/
def Obligations.ReportHoldsThePressedBits : Prop :=
  ∀ s t : State, accepting s → s.chans.length = s.cfg.numChannels →
    exec .tick s = .next t → t.busy = false →
    ∀ c < 32, t.report.getLsbD c =
      (decide (c < s.cfg.numChannels) && (channelAt t.chans c).pressed)

/-- TICK completes once its answers are there: one DISCHARGE, then READs of the channels' pins, at
most the number of 42_engine.md R176; the thresholds of a channel that was not flagged stay; every
channel's flags and counters are those the two rules leave from its own buffers' sums, for a flagged
channel with the flag and the gray count cleared first; besides the channels and REPORT nothing else
changes (R160, R161, R163, R164). The spec marks R176 as derived, an inference of its own. -/
def Obligations.TickCompletes : Prop :=
  ∀ s : State, accepting s → channelsOk s.cfg s.chans →
    tickTransactions s.cfg ≤ (leadingReplies s.inputs).length →
    ∃ (t : State) (reads : List SenseEvent), exec .tick s = .next t ∧
      t = { s with
        chans := t.chans
        report := t.report
        lastErr := 0
        temps := none
        running := none
        outstanding := none
        inputs := s.inputs.drop (reads.length + 1)
        senseLog := reads ++ .discharge :: s.senseLog } ∧
      reads.length + 1 ≤ tickTransactions s.cfg ∧
      (∀ ev ∈ reads, ∃ c < s.cfg.numChannels, ∃ thr b, ev = .read (pinOf s.cfg c) thr b) ∧
      channelsOk s.cfg t.chans ∧
      (∀ c < s.cfg.numChannels, (channelAt s.chans c).needsCalibration = false →
        (channelAt t.chans c).lowThreshold = (channelAt s.chans c).lowThreshold ∧
        (channelAt t.chans c).highThreshold = (channelAt s.chans c).highThreshold) ∧
      (∀ c < s.cfg.numChannels, flagsOf (channelAt t.chans c) =
        flagsOf (highRule s.cfg (bufferAt t.chans c .high).sum.toNat
          (lowRule s.cfg (bufferAt t.chans c .low).sum.toNat (afterStepOne (channelAt s.chans c)))))

/-- A TICK with no channel flagged, exactly: one DISCHARGE; for each channel in order N READs at its low
threshold and N at its high one; each sum the ones among its own fill; each channel's flags by the two
rules from those sums; REPORT the pressed bits (42_engine.md R160, R162, R163, R164, R171). -/
def Obligations.TickWithoutCalibrationExactly : Prop :=
  ∀ s : State, accepting s → channelsOk s.cfg s.chans →
    (∀ ch ∈ s.chans, ch.needsCalibration = false) →
    1 + 2 * s.cfg.samplesNum * s.cfg.numChannels ≤ (leadingReplies s.inputs).length →
    let answers := (leadingReplies s.inputs).drop 1
    let low := fun c => fillAnswers s.cfg answers (2 * c)
    let high := fun c => fillAnswers s.cfg answers (2 * c + 1)
    ∃ t : State, exec .tick s = .next t ∧
      t = { s with
        chans := t.chans
        report := t.report
        lastErr := 0
        temps := none
        running := none
        outstanding := none
        inputs := s.inputs.drop (1 + 2 * s.cfg.samplesNum * s.cfg.numChannels)
        senseLog := ((List.range s.cfg.numChannels).flatMap fun c =>
            readsAt (pinOf s.cfg c) (channelAt s.chans c).lowThreshold (low c) ++
            readsAt (pinOf s.cfg c) (channelAt s.chans c).highThreshold (high c)).reverse ++
          .discharge :: s.senseLog } ∧
      t.chans.length = s.chans.length ∧
      (∀ c < s.cfg.numChannels,
        flagsOf (channelAt t.chans c) = flagsOf (highRule s.cfg ((high c).count true)
          (lowRule s.cfg ((low c).count true) (channelAt s.chans c))) ∧
        (channelAt t.chans c).lowThreshold = (channelAt s.chans c).lowThreshold ∧
        (channelAt t.chans c).highThreshold = (channelAt s.chans c).highThreshold ∧
        (bufferAt t.chans c .low).sum.toNat = (low c).count true ∧
        (bufferAt t.chans c .high).sum.toNat = (high c).count true ∧
        (bufferAt t.chans c .low).cursor = (bufferAt s.chans c .low).cursor ∧
        (bufferAt t.chans c .high).cursor = (bufferAt s.chans c .high).cursor) ∧
      (∀ c < 32, t.report.getLsbD c =
        (decide (c < s.cfg.numChannels) && (channelAt t.chans c).pressed))

/-- The first TICK after reset, on pins that each have a fixed boundary, calibrates every channel to its
own boundary and leaves it unpressed, unflagged and steady (70_reset_and_hazards.md R252;
41_calibrator.md R141; 42_engine.md R161 to R171). -/
def Obligations.FirstTickFindsEveryBoundary : Prop :=
  ∀ (cfg : Params) (ins : List Input) (boundary : Byte → Nat) (t : State), configWf cfg = true →
    cfg.lowFractionPct < 100 → 0 < cfg.highFractionPct → (∀ pin, boundary pin ≤ 254) →
    exec .tick { State.resetOf cfg with inputs := ins } = .next t → t.busy = false →
    obeys (fixedBoundary boundary) t.senseLog →
    t.report = 0 ∧ ∀ c < cfg.numChannels,
      flagsOf (channelAt t.chans c) = (false, false, 0, 0) ∧
      (channelAt t.chans c).lowThreshold.toNat = boundary (pinOf cfg c) - cfg.releaseMargin ∧
      (channelAt t.chans c).highThreshold.toNat =
        min 255 (boundary (pinOf cfg c) + 1 + cfg.pressMargin) ∧
      (bufferAt t.chans c .low).sum.toNat = cfg.samplesNum ∧
      (bufferAt t.chans c .high).sum.toNat = 0

/-- A completed TICK on pins that always answer 1 presses and flags every channel; on pins that
always answer 0 it counts or commits a release on every channel and presses none (42_engine.md
R178). The spec marks R178 as derived, an inference of its own. -/
def Obligations.TickOnConstantPins : Prop :=
  ∀ s t : State, accepting s → channelsOk s.cfg s.chans → exec .tick s = .next t →
    t.busy = false →
    (obeys (fun _ _ => true) (newEvents s t) →
      t.report.toNat = 2 ^ s.cfg.numChannels - 1 ∧
      ∀ c < s.cfg.numChannels, flagsOf (channelAt t.chans c) = (true, true, 0, 0)) ∧
    (obeys (fun _ _ => false) (newEvents s t) → 0 < s.cfg.highFractionPct →
      ∀ c < s.cfg.numChannels,
        let d := min ((channelAt s.chans c).debounceTicks.toNat + 1) (2 ^ 32 - 1)
        (d > s.cfg.hysteresis → flagsOf (channelAt t.chans c) = (false, true, 0, 0)) ∧
        (d ≤ s.cfg.hysteresis → flagsOf (channelAt t.chans c) =
          ((channelAt s.chans c).pressed, false, 0, BitVec.ofNat 32 d)))

/-! ### Commands in progress, reset and whole-machine rules -/

/-- While an answer does not come, the command waits: with nothing coming nothing changes, and whatever
the host does BUSY stays 1 and the command, its outstanding transaction and the channels stay as they
are; its writes to CMD are rejected with BUSY (60_exceptions.md R234). -/
def Obligations.UnansweredCommandWaits : Prop :=
  ∀ (s : State) (p : InProgress), configWf s.cfg = true → s.busy = true → s.running = some p →
    (s.inputs = [] → step s = .next s) ∧
    (∀ (x : Input) (rest : List Input), s.inputs = x :: rest → inputExpressible x = true →
      x ≠ .reset → (∀ b, x ≠ .reply b) →
      ∃ t, step s = .next t ∧ t.inputs = rest ∧ t.busy = true ∧ t.running = some p ∧
        t.outstanding = s.outstanding ∧ t.chans = s.chans ∧ t.report = s.report ∧
        t.temps = s.temps ∧ t.senseLog = s.senseLog ∧
        (∀ w, x = .write 0 4 w → t.lastErr = 1))

/-- The reset input, at any moment, leaves the reset state of the configuration, and an answer that comes
after it is ignored; the records of what was observed stay and an abandoned transaction enters none of
them, which is the model's choice (log 12) (70_reset_and_hazards.md R250, R251; 10_state.md R49). -/
def Obligations.ResetLeavesTheResetState : Prop :=
  ∀ (s : State) (rest : List Input), configWf s.cfg = true → s.inputs = .reset :: rest →
    ∃ t, step s = .next t ∧
      t = { State.resetOf s.cfg with
        inputs := rest
        senseLog := s.senseLog
        hostReads := s.hostReads
        draws := s.draws } ∧
      ∀ (b : Bool) (rest' : List Input), rest = .reply b :: rest' ∨ rest = .staleReply b :: rest' →
        step t = .next { t with inputs := rest' }

/-- A command whose answers come in two parts ends as one whose answers all come at once (10_state.md
R21; 20_memory.md R72; how the model holds the sequencer is its own choice, log 6). -/
def Obligations.AnswersMayComeInParts : Prop :=
  ∀ (i : Instr) (s a : State) (xs ys : List Bool) (rest : List Input), accepting s → ys ≠ [] →
    exec i { s with inputs := xs.map Input.reply } = .next a → a.busy = true →
    step { a with inputs := ys.map Input.reply ++ rest } =
      exec i { s with inputs := (xs ++ ys).map Input.reply ++ rest }

/-- The outstanding transaction is the one the next answer completes: the history so far stays, and that
transaction is the next of it (20_memory.md R70, R72, R73). -/
def Obligations.OutstandingTransactionIsAnsweredNext : Prop :=
  ∀ (s t : State) (q : SenseReq) (b : Bool) (rest : List Input), Inv s →
    s.outstanding = some q → s.inputs = .reply b :: rest → step s = .next t →
    ∃ new, t.senseLog = new ++ answered b q :: s.senseLog

/-- Under a well-formed configuration no command faults or is refused, and no step does unless the host
tries an access the port cannot express (60_exceptions.md R223; 41_calibrator.md R140). -/
def Obligations.EveryStepGoesOn : Prop :=
  (∀ (i : Instr) (s : State), configWf s.cfg = true → goesOn (exec i s)) ∧
  (∀ s : State, configWf s.cfg = true → (∀ x ∈ s.inputs.head?, inputExpressible x = true) → Safe s)

/-- The invariant holds after reset, in every well-formed configuration (10_state.md R49). -/
def Obligations.ResetStateIsGood : Prop :=
  ∀ cfg : Params, configWf cfg = true → Inv (State.resetOf cfg)

/-- Every step keeps the invariant: C channels with good buffers, no stray REPORT bit, a defined LAST_ERR,
and BUSY = 1 exactly while a command holds an outstanding transaction, in the state its pseudocode has
reached (10_state.md R20, R30, R36, R38; 60_exceptions.md R220; 20_memory.md R73). -/
def Obligations.EveryStepKeepsTheInvariant : Prop :=
  ∀ s t : State, Inv s → step s = .next t → Inv t

/-- Nothing writes the configuration (00_scope.md R6; 10_state.md R20; 70_reset_and_hazards.md R250). -/
def Obligations.ConfigurationIsNeverWritten : Prop :=
  (∀ (i : Instr) (s t : State), exec i s = .next t → t.cfg = s.cfg) ∧
  (∀ s t : State, step s = .next t → t.cfg = s.cfg)

/-- REPORT changes only at the end of a TICK, at INIT and at reset (10_state.md R42;
70_reset_and_hazards.md R256). -/
def Obligations.ReportChangesOnlyAtTheEndOfATick : Prop :=
  ∀ s t : State, Inv s → step s = .next t → t.report ≠ s.report →
    (∃ rest, s.inputs = .reset :: rest) ∨
    (∃ w rest, s.inputs = .write 0 4 w :: rest ∧ s.busy = false ∧ t.busy = false ∧
      (decodeWord w = some .init ∨ decodeWord w = some .tick)) ∨
    (∃ p, s.running = some p ∧ p.cmd = .tick ∧ t.busy = false)

/-! ### Registers -/

/-- STATUS, field by field, BUSY or not; it reads 0 after reset, and writes to it are ignored
(10_state.md R41). -/
def Obligations.StatusRegister : Prop :=
  ∀ (s : State) (rest : List Input), configWf s.cfg = true →
    (s.inputs = .read 0x004 4 :: rest → ∃ w : Word,
      step s = .next { s with inputs := rest, hostReads := (0x004, w) :: s.hostReads } ∧
      w.getLsbD 0 = s.busy ∧ w.extractLsb' 1 3 = 0 ∧ w.extractLsb' 4 4 = s.lastErr ∧
      w.extractLsb' 8 24 = 0) ∧
    (∀ v, s.inputs = .write 0x004 4 v :: rest → step s = .next { s with inputs := rest }) ∧
    regWord (State.resetOf s.cfg) (selectReg s.cfg 0x004) = 0

/-- CFG0 to CFG3 read the configuration, field by field, before and after anything, and writes to them
are ignored (10_state.md R40). -/
def Obligations.ConfigurationRegisters : Prop :=
  ∀ s : State, configWf s.cfg = true →
    ((regWord s (selectReg s.cfg 0x00C)).extractLsb' 0 8).toNat = s.cfg.samplesNum ∧
    ((regWord s (selectReg s.cfg 0x00C)).extractLsb' 8 8).toNat = s.cfg.numChannels ∧
    ((regWord s (selectReg s.cfg 0x00C)).extractLsb' 16 8).toNat = s.cfg.maxProbeSteps ∧
    ((regWord s (selectReg s.cfg 0x00C)).extractLsb' 24 4).toNat = s.cfg.pressMargin ∧
    ((regWord s (selectReg s.cfg 0x00C)).extractLsb' 28 4).toNat = s.cfg.releaseMargin ∧
    ((regWord s (selectReg s.cfg 0x010)).extractLsb' 0 8).toNat = s.cfg.lowFractionPct ∧
    ((regWord s (selectReg s.cfg 0x010)).extractLsb' 8 8).toNat = s.cfg.highFractionPct ∧
    (regWord s (selectReg s.cfg 0x010)).extractLsb' 16 16 = 0 ∧
    (regWord s (selectReg s.cfg 0x014)).toNat = s.cfg.hysteresis ∧
    (regWord s (selectReg s.cfg 0x018)).toNat = s.cfg.maxTimeInGrayzone ∧
    (State.resetOf s.cfg).cfg = s.cfg ∧
    ∀ off ∈ ([0x00C, 0x010, 0x014, 0x018] : List Offset), ∀ (v : Word) (rest : List Input),
      s.inputs = .write off 4 v :: rest → step s = .next { s with inputs := rest }

/-- The channel registers while no command is in progress, field by field; their reset values; writes to
them are ignored (10_state.md R43, R44, R45, R46). -/
def Obligations.ChannelRegisters : Prop :=
  (∀ (s : State) (c : Nat), s.busy = false →
    let ch := channelAt s.chans c
    let thr := regWord s (.channel c .thr)
    thr.extractLsb' 0 8 = ch.lowThreshold ∧ thr.extractLsb' 8 8 = ch.highThreshold ∧
    thr.getLsbD 16 = ch.pressed ∧ thr.getLsbD 17 = ch.needsCalibration ∧
    thr.extractLsb' 18 6 = 0 ∧ thr.extractLsb' 24 8 = pinOf s.cfg c ∧
    regWord s (.channel c .gray) = ch.grayZoneTicks ∧
    regWord s (.channel c .deb) = ch.debounceTicks ∧
    (∀ side r, (side = Side.low ∧ r = .lbuf) ∨ (side = Side.high ∧ r = .hbuf) →
      (regWord s (.channel c r)).extractLsb' 0 8 = (bufferAt s.chans c side).sum ∧
      (regWord s (.channel c r)).extractLsb' 8 8 = (bufferAt s.chans c side).cursor ∧
      (regWord s (.channel c r)).extractLsb' 16 16 = 0)) ∧
  (∀ (cfg : Params) (c : Nat), c < cfg.numChannels →
    regWord (State.resetOf cfg) (.channel c .thr) =
      (pinOf cfg c).setWidth 32 <<< 24 ||| 0x0002C040#32 ∧
    ∀ r, r ≠ .thr → regWord (State.resetOf cfg) (.channel c r) = 0) ∧
  (∀ (s : State) (off : Offset) (c : Nat) (r : ChannelReg) (w : Word) (rest : List Input),
    configWf s.cfg = true → selectReg s.cfg off.toNat = .channel c r → off.toNat % 4 = 0 →
    s.inputs = .write off 4 w :: rest → step s = .next { s with inputs := rest })

/-- A read takes its value from the register its offset selects, and changes no register: the map of
10_state.md R39 (20_memory.md R63, R65). -/
def Obligations.ReadsFollowTheRegisterMap : Prop :=
  ∀ (s : State) (off : Offset) (rest : List Input), configWf s.cfg = true →
    s.inputs = .read off 4 :: rest → off.toNat % 4 = 0 →
    ∃ w n, step s = .next { s with
        inputs := rest, hostReads := (off, w) :: s.hostReads, draws := s.draws + n } ∧
      (off.toNat = 0x000 → w = 0) ∧
      (off.toNat = 0x004 → w = statusWord s) ∧
      (off.toNat = 0x008 → w = s.report) ∧
      (off.toNat = 0x00C → w = cfg0Word s.cfg) ∧
      (off.toNat = 0x010 → w = cfg1Word s.cfg) ∧
      (off.toNat = 0x014 → w = cfg2Word s.cfg) ∧
      (off.toNat = 0x018 → w = cfg3Word s.cfg) ∧
      (∀ c < s.cfg.numChannels, s.busy = false →
        (off.toNat = 0x100 + 0x20 * c + 0x00 →
          w = chThrWord (pinOf s.cfg c) (channelAt s.chans c)) ∧
        (off.toNat = 0x100 + 0x20 * c + 0x04 → w = (channelAt s.chans c).grayZoneTicks) ∧
        (off.toNat = 0x100 + 0x20 * c + 0x08 → w = (channelAt s.chans c).debounceTicks) ∧
        (off.toNat = 0x100 + 0x20 * c + 0x0C → w = bufWord (bufferAt s.chans c .low)) ∧
        (off.toNat = 0x100 + 0x20 * c + 0x10 → w = bufWord (bufferAt s.chans c .high)))

/-- An unmapped offset reads 0, CMD reads 0, and a write to any offset but CMD is ignored, LAST_ERR
included (10_state.md R47). -/
def Obligations.UnmappedOffsetsReadZero : Prop :=
  (∀ (s : State) (off : Offset) (rest : List Input), configWf s.cfg = true →
    s.inputs = .read off 4 :: rest → off.toNat % 4 = 0 →
    off.toNat ∉ [0x004, 0x008, 0x00C, 0x010, 0x014, 0x018] →
    (∀ c < s.cfg.numChannels, ∀ k ∈ [0x00, 0x04, 0x08, 0x0C, 0x10],
      off.toNat ≠ 0x100 + 0x20 * c + k) →
    step s = .next { s with inputs := rest, hostReads := (off, 0) :: s.hostReads }) ∧
  (∀ (s : State) (off : Offset) (w : Word) (rest : List Input), configWf s.cfg = true →
    s.inputs = .write off 4 w :: rest → off.toNat % 4 = 0 → off ≠ 0 →
    step s = .next { s with inputs := rest })

/-- A channel register read while BUSY = 1: the PIN_ID field is exact and the reserved fields read 0,
whatever else the free word holds, and no register changes (20_memory.md R65). -/
def Obligations.BusyChannelReadsKeepFixedFields : Prop :=
  ∀ (s : State) (c k : Nat) (off : Offset) (rest : List Input), configWf s.cfg = true →
    s.busy = true → c < s.cfg.numChannels → k ∈ [0x00, 0x04, 0x08, 0x0C, 0x10] →
    off.toNat = 0x100 + 0x20 * c + k → s.inputs = .read off 4 :: rest →
    ∃ w : Word, step s = .next { s with
        inputs := rest, hostReads := (off, w) :: s.hostReads, draws := s.draws + 1 } ∧
      (k = 0x00 → w.extractLsb' 24 8 = pinOf s.cfg c ∧ w.extractLsb' 18 6 = 0) ∧
      (k = 0x0C ∨ k = 0x10 → w.extractLsb' 16 16 = 0)

/-- What the model refuses: an access that is not an aligned word (20_memory.md R61), and everything under
a configuration that is not well-formed (00_scope.md R8). -/
def Obligations.RefusedAccessesAndConfigurations : Prop :=
  (∀ (s : State) (off : Offset) (size : Nat) (w : Word) (rest : List Input),
    configWf s.cfg = true → size ≠ 4 ∨ off.toNat % 4 ≠ 0 →
    (s.inputs = .read off size :: rest → step s = .refused .unsupportedAccess) ∧
    (s.inputs = .write off size w :: rest → step s = .refused .unsupportedAccess)) ∧
  (∀ s : State, configWf s.cfg = false →
    step s = .refused .illFormedConfig ∧ ∀ i, exec i s = .refused .illFormedConfig)

/-- A command statement is one write of its word to CMD; WR and RD are one access each; CMDW, TICKW, CALW
and WAIT are their expansions. Run against the block, a TICKW or CALW whose answers come before its second
read of STATUS leaves what its command leaves where the answers are all at hand, the two reads recorded
(30_encoding.md R88, R89, R90; log 19). -/
def Obligations.HostStatementsAreTheirAccesses : Prop :=
  (∀ (i : Instr) (polls : Nat), hostAccesses polls (.command i) = [.write 0 4 (encodeWord i)]) ∧
  (∀ (off : Offset) (polls : Nat), hostAccesses polls (.rd off) = [.read off 4]) ∧
  (∀ (off : Offset) (w : Word) (polls : Nat), hostAccesses polls (.wr off w) = [.write off 4 w]) ∧
  (∀ (w : Word) (polls : Nat), hostAccesses polls (.cmdw w) = hostAccesses polls (.wr 0 w)) ∧
  (∀ polls, hostAccesses polls .tickw =
    hostAccesses polls (.command .tick) ++ hostAccesses polls .wait) ∧
  (∀ ch polls, hostAccesses polls (.calw ch) =
    hostAccesses polls (.command (.cal ch)) ++ hostAccesses polls .wait) ∧
  (∀ polls, hostAccesses polls .wait = List.replicate (polls + 1) (.read 4 4)) ∧
  (∀ s : State, waitEnds (statusWord s) = !s.busy) ∧
  (∀ (i : Instr) (stmt : HostStmt) (s a u : State) (answers : List Bool) (world : World),
    (i = .tick ∧ stmt = .tickw ∨ ∃ ch, i = .cal ch ∧ stmt = .calw ch) → i.wf = true →
    accepting s → s.inputs = [] → exec i s = .next a → a.busy = true →
    exec i { s with inputs := answers.map Input.reply } = .next u → u.busy = false →
    runHost [stmt] ([] :: [] :: answers.map Input.reply :: world) s = .ended
      { u with
        inputs := []
        hostReads := (4, statusWord u) :: (4, statusWord a) :: u.hostReads } world)

/-- One iteration of the coarse search READs at lo and then at hi, and goes on from the two updates; with
MAX_PROBE_STEPS iterations made, or hi <= lo + 1, it ends without a READ and leaves its variables; a
calibration is this search from its starting values, then fine adjustment from where it ended, then the
margins (41_calibrator.md R122, R124, R125, R126). -/
def Obligations.CoarseIterationReadsLowThenHigh : Prop :=
  ∀ (cfg : Params) (c k : Nat) (q : Search) (e : Eng),
    (q.hi > q.lo + 1 →
      (e.replies = [] →
        (coarse cfg c (k + 1) q e).request = some (.read (pinOf cfg c) (byte q.lo))) ∧
      (∀ a, e.replies = [a] →
        (coarse cfg c (k + 1) q e).request = some (.read (pinOf cfg c) (byte q.hi))) ∧
      (∀ a b rest, e.replies = a :: b :: rest →
        coarse cfg c (k + 1) q e = coarse cfg c k (searchStep a b q)
          { e with
            replies := rest
            log := .read (pinOf cfg c) (byte q.hi) b :: .read (pinOf cfg c) (byte q.lo) a
              :: e.log })) ∧
    (k = 0 ∨ q.hi ≤ q.lo + 1 → ∃ temps, coarse cfg c k q e = .done q { e with temps := temps }) ∧
    calibrate cfg c e = (coarse cfg c cfg.maxProbeSteps searchStart e).andThen fun q e =>
      (fineAdjust cfg c q e).andThen fun p e => .done () (finishCalibration cfg c p.1 p.2 e)

/-- A WAIT, whatever the rest of the outside world does: it ends only at a read of STATUS with BUSY = 0,
and every read before that one found BUSY = 1; with BUSY = 0 it ends at its first read; while BUSY = 1
and nothing happens it reads on for ever (30_encoding.md R90; 20_memory.md R67; 60_exceptions.md R234;
log 19). -/
def Obligations.WaitEndsAtTheFirstIdleRead : Prop :=
  (∀ (s t : State) (world rest : World), configWf s.cfg = true →
    (∀ x ∈ s.inputs ++ world.flatten, isAccess x = false) →
    runHost [.wait] world s = .ended t rest →
    ∃ found : List Word, world.length = found.length + 1 + rest.length ∧
      rest = world.drop (found.length + 1) ∧ (∀ w ∈ found, w.getLsbD 0 = true) ∧
      t.busy = false ∧
      t.hostReads = (4, statusWord t) :: found.map (fun w => (4, w)) ++ s.hostReads) ∧
  (∀ (s : State) (world : World), configWf s.cfg = true → s.inputs = [] → s.busy = false →
    runHost [.wait] ([] :: world) s = .ended
      { s with hostReads := (4, statusWord s) :: s.hostReads } world) ∧
  (∀ (s : State) (n : Nat), configWf s.cfg = true → s.inputs = [] → s.busy = true →
    runHost [.wait] (List.replicate n []) s = .goingOn
      { s with hostReads := List.replicate n (4, statusWord s) ++ s.hostReads })
end

