-- ==== Sys2Proof/Laws/State.lean ====
section
/-! SUPPORT. One lemma for each field of the state, and of the engine's state, under each named update. -/

namespace Sys2Proof.Machine

@[simp] theorem raiseCmdError_cfg (err : CmdError) (s : State) :
    (raiseCmdError err s).cfg =
      s.cfg := rfl
@[simp] theorem raiseCmdError_chans (err : CmdError) (s : State) :
    (raiseCmdError err s).chans =
      s.chans := rfl
@[simp] theorem raiseCmdError_busy (err : CmdError) (s : State) :
    (raiseCmdError err s).busy =
      s.busy := rfl
@[simp] theorem raiseCmdError_lastErr (err : CmdError) (s : State) :
    (raiseCmdError err s).lastErr =
      errorCode err := rfl
@[simp] theorem raiseCmdError_report (err : CmdError) (s : State) :
    (raiseCmdError err s).report =
      s.report := rfl
@[simp] theorem raiseCmdError_temps (err : CmdError) (s : State) :
    (raiseCmdError err s).temps =
      s.temps := rfl
@[simp] theorem raiseCmdError_running (err : CmdError) (s : State) :
    (raiseCmdError err s).running =
      s.running := rfl
@[simp] theorem raiseCmdError_outstanding (err : CmdError) (s : State) :
    (raiseCmdError err s).outstanding =
      s.outstanding := rfl
@[simp] theorem raiseCmdError_inputs (err : CmdError) (s : State) :
    (raiseCmdError err s).inputs =
      s.inputs := rfl
@[simp] theorem raiseCmdError_senseLog (err : CmdError) (s : State) :
    (raiseCmdError err s).senseLog =
      s.senseLog := rfl
@[simp] theorem raiseCmdError_hostReads (err : CmdError) (s : State) :
    (raiseCmdError err s).hostReads =
      s.hostReads := rfl
@[simp] theorem raiseCmdError_draws (err : CmdError) (s : State) :
    (raiseCmdError err s).draws =
      s.draws := rfl

@[simp] theorem createEngine_cfg (s : State) : (createEngine s).cfg = s.cfg := rfl
@[simp] theorem createEngine_chans (s : State) :
    (createEngine s).chans =
      initialChannels s.cfg := rfl
@[simp] theorem createEngine_busy (s : State) : (createEngine s).busy = s.busy := rfl
@[simp] theorem createEngine_lastErr (s : State) : (createEngine s).lastErr = s.lastErr := rfl
@[simp] theorem createEngine_report (s : State) : (createEngine s).report = 0 := rfl
@[simp] theorem createEngine_temps (s : State) : (createEngine s).temps = s.temps := rfl
@[simp] theorem createEngine_running (s : State) : (createEngine s).running = s.running := rfl
@[simp] theorem createEngine_outstanding (s : State) :
    (createEngine s).outstanding =
      s.outstanding := rfl
@[simp] theorem createEngine_inputs (s : State) : (createEngine s).inputs = s.inputs := rfl
@[simp] theorem createEngine_senseLog (s : State) : (createEngine s).senseLog = s.senseLog := rfl
@[simp] theorem createEngine_hostReads (s : State) : (createEngine s).hostReads = s.hostReads := rfl
@[simp] theorem createEngine_draws (s : State) : (createEngine s).draws = s.draws := rfl

@[simp] theorem resetBlock_cfg (s : State) : (resetBlock s).cfg = s.cfg := rfl
@[simp] theorem resetBlock_chans (s : State) : (resetBlock s).chans = initialChannels s.cfg := rfl
@[simp] theorem resetBlock_busy (s : State) : (resetBlock s).busy = false := rfl
@[simp] theorem resetBlock_lastErr (s : State) : (resetBlock s).lastErr = 0 := rfl
@[simp] theorem resetBlock_report (s : State) : (resetBlock s).report = 0 := rfl
@[simp] theorem resetBlock_temps (s : State) : (resetBlock s).temps = none := rfl
@[simp] theorem resetBlock_running (s : State) : (resetBlock s).running = none := rfl
@[simp] theorem resetBlock_outstanding (s : State) : (resetBlock s).outstanding = none := rfl
@[simp] theorem resetBlock_inputs (s : State) : (resetBlock s).inputs = s.inputs := rfl
@[simp] theorem resetBlock_senseLog (s : State) : (resetBlock s).senseLog = s.senseLog := rfl
@[simp] theorem resetBlock_hostReads (s : State) : (resetBlock s).hostReads = s.hostReads := rfl
@[simp] theorem resetBlock_draws (s : State) : (resetBlock s).draws = s.draws := rfl

@[simp] theorem storeEngine_cfg (e : Eng) (s : State) : (storeEngine e s).cfg = s.cfg := rfl
@[simp] theorem storeEngine_chans (e : Eng) (s : State) : (storeEngine e s).chans = e.chans := rfl
@[simp] theorem storeEngine_busy (e : Eng) (s : State) : (storeEngine e s).busy = s.busy := rfl
@[simp] theorem storeEngine_lastErr (e : Eng) (s : State) :
    (storeEngine e s).lastErr =
      s.lastErr := rfl
@[simp] theorem storeEngine_report (e : Eng) (s : State) :
    (storeEngine e s).report =
      e.report := rfl
@[simp] theorem storeEngine_temps (e : Eng) (s : State) : (storeEngine e s).temps = e.temps := rfl
@[simp] theorem storeEngine_running (e : Eng) (s : State) :
    (storeEngine e s).running =
      s.running := rfl
@[simp] theorem storeEngine_outstanding (e : Eng) (s : State) :
    (storeEngine e s).outstanding =
      s.outstanding := rfl
@[simp] theorem storeEngine_inputs (e : Eng) (s : State) :
    (storeEngine e s).inputs =
      s.inputs := rfl
@[simp] theorem storeEngine_senseLog (e : Eng) (s : State) :
    (storeEngine e s).senseLog =
      e.log := rfl
@[simp] theorem storeEngine_hostReads (e : Eng) (s : State) :
    (storeEngine e s).hostReads =
      s.hostReads := rfl
@[simp] theorem storeEngine_draws (e : Eng) (s : State) : (storeEngine e s).draws = s.draws := rfl

@[simp] theorem completeCommand_cfg (e : Eng) (s : State) : (completeCommand e s).cfg = s.cfg := rfl
@[simp] theorem completeCommand_chans (e : Eng) (s : State) :
    (completeCommand e s).chans =
      e.chans := rfl
@[simp] theorem completeCommand_busy (e : Eng) (s : State) :
    (completeCommand e s).busy =
      false := rfl
@[simp] theorem completeCommand_lastErr (e : Eng) (s : State) :
    (completeCommand e s).lastErr =
      s.lastErr := rfl
@[simp] theorem completeCommand_report (e : Eng) (s : State) :
    (completeCommand e s).report =
      e.report := rfl
@[simp] theorem completeCommand_temps (e : Eng) (s : State) :
    (completeCommand e s).temps =
      e.temps := rfl
@[simp] theorem completeCommand_running (e : Eng) (s : State) :
    (completeCommand e s).running =
      none := rfl
@[simp] theorem completeCommand_outstanding (e : Eng) (s : State) :
    (completeCommand e s).outstanding =
      none := rfl
@[simp] theorem completeCommand_inputs (e : Eng) (s : State) :
    (completeCommand e s).inputs =
      e.replies.map Input.reply ++ s.inputs := rfl
@[simp] theorem completeCommand_senseLog (e : Eng) (s : State) :
    (completeCommand e s).senseLog =
      e.log := rfl
@[simp] theorem completeCommand_hostReads (e : Eng) (s : State) :
    (completeCommand e s).hostReads =
      s.hostReads := rfl
@[simp] theorem completeCommand_draws (e : Eng) (s : State) :
    (completeCommand e s).draws =
      s.draws := rfl

@[simp] theorem suspendCommand_cfg (req : SenseReq) (p : InProgress) (e : Eng) (s : State) :
    (suspendCommand req p e s).cfg =
      s.cfg := rfl
@[simp] theorem suspendCommand_chans (req : SenseReq) (p : InProgress) (e : Eng) (s : State) :
    (suspendCommand req p e s).chans =
      e.chans := rfl
@[simp] theorem suspendCommand_busy (req : SenseReq) (p : InProgress) (e : Eng) (s : State) :
    (suspendCommand req p e s).busy =
      true := rfl
@[simp] theorem suspendCommand_lastErr (req : SenseReq) (p : InProgress) (e : Eng) (s : State) :
    (suspendCommand req p e s).lastErr =
      s.lastErr := rfl
@[simp] theorem suspendCommand_report (req : SenseReq) (p : InProgress) (e : Eng) (s : State) :
    (suspendCommand req p e s).report =
      e.report := rfl
@[simp] theorem suspendCommand_temps (req : SenseReq) (p : InProgress) (e : Eng) (s : State) :
    (suspendCommand req p e s).temps =
      e.temps := rfl
@[simp] theorem suspendCommand_running (req : SenseReq) (p : InProgress) (e : Eng) (s : State) :
    (suspendCommand req p e s).running =
      some p := rfl
@[simp] theorem suspendCommand_outstanding (req : SenseReq) (p : InProgress) (e : Eng) (s : State) :
    (suspendCommand req p e s).outstanding =
      some req := rfl
@[simp] theorem suspendCommand_inputs (req : SenseReq) (p : InProgress) (e : Eng) (s : State) :
    (suspendCommand req p e s).inputs =
      s.inputs := rfl
@[simp] theorem suspendCommand_senseLog (req : SenseReq) (p : InProgress) (e : Eng) (s : State) :
    (suspendCommand req p e s).senseLog =
      e.log := rfl
@[simp] theorem suspendCommand_hostReads (req : SenseReq) (p : InProgress) (e : Eng) (s : State) :
    (suspendCommand req p e s).hostReads =
      s.hostReads := rfl
@[simp] theorem suspendCommand_draws (req : SenseReq) (p : InProgress) (e : Eng) (s : State) :
    (suspendCommand req p e s).draws =
      s.draws := rfl

@[simp] theorem changeBuffer_cfg (ch : Nat) (side : Side) (f : Buffer → Buffer) (s : State) :
    (changeBuffer ch side f s).cfg =
      s.cfg := rfl
@[simp] theorem changeBuffer_chans (ch : Nat) (side : Side) (f : Buffer → Buffer) (s : State) :
    (changeBuffer ch side f s).chans =
      updateBuffer s.chans ch side f := rfl
@[simp] theorem changeBuffer_busy (ch : Nat) (side : Side) (f : Buffer → Buffer) (s : State) :
    (changeBuffer ch side f s).busy =
      s.busy := rfl
@[simp] theorem changeBuffer_lastErr (ch : Nat) (side : Side) (f : Buffer → Buffer) (s : State) :
    (changeBuffer ch side f s).lastErr =
      s.lastErr := rfl
@[simp] theorem changeBuffer_report (ch : Nat) (side : Side) (f : Buffer → Buffer) (s : State) :
    (changeBuffer ch side f s).report =
      s.report := rfl
@[simp] theorem changeBuffer_temps (ch : Nat) (side : Side) (f : Buffer → Buffer) (s : State) :
    (changeBuffer ch side f s).temps =
      s.temps := rfl
@[simp] theorem changeBuffer_running (ch : Nat) (side : Side) (f : Buffer → Buffer) (s : State) :
    (changeBuffer ch side f s).running =
      s.running := rfl
@[simp] theorem changeBuffer_outstanding (ch : Nat) (side : Side) (f : Buffer → Buffer) (s : State) :
    (changeBuffer ch side f s).outstanding =
      s.outstanding := rfl
@[simp] theorem changeBuffer_inputs (ch : Nat) (side : Side) (f : Buffer → Buffer) (s : State) :
    (changeBuffer ch side f s).inputs =
      s.inputs := rfl
@[simp] theorem changeBuffer_senseLog (ch : Nat) (side : Side) (f : Buffer → Buffer) (s : State) :
    (changeBuffer ch side f s).senseLog =
      s.senseLog := rfl
@[simp] theorem changeBuffer_hostReads (ch : Nat) (side : Side) (f : Buffer → Buffer) (s : State) :
    (changeBuffer ch side f s).hostReads =
      s.hostReads := rfl
@[simp] theorem changeBuffer_draws (ch : Nat) (side : Side) (f : Buffer → Buffer) (s : State) :
    (changeBuffer ch side f s).draws =
      s.draws := rfl

@[simp] theorem placeCommand_cfg (w : Word) (s : State) : (placeCommand w s).cfg = s.cfg := rfl
@[simp] theorem placeCommand_chans (w : Word) (s : State) :
    (placeCommand w s).chans =
      s.chans := rfl
@[simp] theorem placeCommand_busy (w : Word) (s : State) : (placeCommand w s).busy = s.busy := rfl
@[simp] theorem placeCommand_lastErr (w : Word) (s : State) :
    (placeCommand w s).lastErr =
      s.lastErr := rfl
@[simp] theorem placeCommand_report (w : Word) (s : State) :
    (placeCommand w s).report =
      s.report := rfl
@[simp] theorem placeCommand_temps (w : Word) (s : State) :
    (placeCommand w s).temps =
      s.temps := rfl
@[simp] theorem placeCommand_running (w : Word) (s : State) :
    (placeCommand w s).running =
      s.running := rfl
@[simp] theorem placeCommand_outstanding (w : Word) (s : State) :
    (placeCommand w s).outstanding =
      s.outstanding := rfl
@[simp] theorem placeCommand_inputs (w : Word) (s : State) :
    (placeCommand w s).inputs =
      .write 0 4 w :: s.inputs := rfl
@[simp] theorem placeCommand_senseLog (w : Word) (s : State) :
    (placeCommand w s).senseLog =
      s.senseLog := rfl
@[simp] theorem placeCommand_hostReads (w : Word) (s : State) :
    (placeCommand w s).hostReads =
      s.hostReads := rfl
@[simp] theorem placeCommand_draws (w : Word) (s : State) :
    (placeCommand w s).draws =
      s.draws := rfl

@[simp] theorem pushAt_chans (cfg : Params) (c : Nat) (side : Side) (x : Bool) (e : Eng) :
    (pushAt cfg c side x e).chans =
      updateBuffer e.chans c side (pushBuffer cfg.samplesNum x) := rfl
@[simp] theorem pushAt_report (cfg : Params) (c : Nat) (side : Side) (x : Bool) (e : Eng) :
    (pushAt cfg c side x e).report =
      e.report := rfl
@[simp] theorem pushAt_temps (cfg : Params) (c : Nat) (side : Side) (x : Bool) (e : Eng) :
    (pushAt cfg c side x e).temps =
      e.temps := rfl
@[simp] theorem pushAt_replies (cfg : Params) (c : Nat) (side : Side) (x : Bool) (e : Eng) :
    (pushAt cfg c side x e).replies =
      e.replies := rfl
@[simp] theorem pushAt_log (cfg : Params) (c : Nat) (side : Side) (x : Bool) (e : Eng) :
    (pushAt cfg c side x e).log =
      e.log := rfl

@[simp] theorem holdTemps_chans (count : Nat) (q : Search) (e : Eng) :
    (holdTemps count q e).chans =
      e.chans := rfl
@[simp] theorem holdTemps_report (count : Nat) (q : Search) (e : Eng) :
    (holdTemps count q e).report =
      e.report := rfl
@[simp] theorem holdTemps_temps (count : Nat) (q : Search) (e : Eng) :
    (holdTemps count q e).temps =
      some ⟨byte q.highestLow, byte q.lowestHigh, byte count⟩ := rfl
@[simp] theorem holdTemps_replies (count : Nat) (q : Search) (e : Eng) :
    (holdTemps count q e).replies =
      e.replies := rfl
@[simp] theorem holdTemps_log (count : Nat) (q : Search) (e : Eng) :
    (holdTemps count q e).log =
      e.log := rfl

@[simp] theorem decideAndReport_chans (cfg : Params) (e : Eng) :
    (decideAndReport cfg e).chans =
      e.chans.map (decideChannel cfg) := rfl
@[simp] theorem decideAndReport_report (cfg : Params) (e : Eng) :
    (decideAndReport cfg e).report =
      reportWord cfg (e.chans.map (decideChannel cfg)) := rfl
@[simp] theorem decideAndReport_temps (cfg : Params) (e : Eng) :
    (decideAndReport cfg e).temps =
      e.temps := rfl
@[simp] theorem decideAndReport_replies (cfg : Params) (e : Eng) :
    (decideAndReport cfg e).replies =
      e.replies := rfl
@[simp] theorem decideAndReport_log (cfg : Params) (e : Eng) :
    (decideAndReport cfg e).log =
      e.log := rfl

@[simp] theorem finishCalibration_chans (cfg : Params) (c : Nat) (lo hi : Int) (e : Eng) :
    (finishCalibration cfg c lo hi e).chans =
      updateChannel e.chans c fun ch => { ch with lowThreshold := byte (widenLow cfg lo), highThreshold := byte (widenHigh cfg hi), needsCalibration := false } := rfl
@[simp] theorem finishCalibration_report (cfg : Params) (c : Nat) (lo hi : Int) (e : Eng) :
    (finishCalibration cfg c lo hi e).report =
      e.report := rfl
@[simp] theorem finishCalibration_temps (cfg : Params) (c : Nat) (lo hi : Int) (e : Eng) :
    (finishCalibration cfg c lo hi e).temps =
      none := rfl
@[simp] theorem finishCalibration_replies (cfg : Params) (c : Nat) (lo hi : Int) (e : Eng) :
    (finishCalibration cfg c lo hi e).replies =
      e.replies := rfl
@[simp] theorem finishCalibration_log (cfg : Params) (c : Nat) (lo hi : Int) (e : Eng) :
    (finishCalibration cfg c lo hi e).log =
      e.log := rfl

@[simp] theorem strongPress_lowThreshold (ch : Channel) :
    (strongPress ch).lowThreshold =
      ch.lowThreshold := rfl
@[simp] theorem strongPress_highThreshold (ch : Channel) :
    (strongPress ch).highThreshold =
      ch.highThreshold := rfl
@[simp] theorem strongPress_pressed (ch : Channel) : (strongPress ch).pressed = true := rfl
@[simp] theorem strongPress_needsCalibration (ch : Channel) :
    (strongPress ch).needsCalibration =
      true := rfl
@[simp] theorem strongPress_grayZoneTicks (ch : Channel) : (strongPress ch).grayZoneTicks = 0 := rfl
@[simp] theorem strongPress_debounceTicks (ch : Channel) : (strongPress ch).debounceTicks = 0 := rfl
@[simp] theorem strongPress_lowBuffer (ch : Channel) :
    (strongPress ch).lowBuffer =
      ch.lowBuffer := rfl
@[simp] theorem strongPress_highBuffer (ch : Channel) :
    (strongPress ch).highBuffer =
      ch.highBuffer := rfl

@[simp] theorem steadyBand_lowThreshold (ch : Channel) :
    (steadyBand ch).lowThreshold =
      ch.lowThreshold := rfl
@[simp] theorem steadyBand_highThreshold (ch : Channel) :
    (steadyBand ch).highThreshold =
      ch.highThreshold := rfl
@[simp] theorem steadyBand_pressed (ch : Channel) : (steadyBand ch).pressed = ch.pressed := rfl
@[simp] theorem steadyBand_needsCalibration (ch : Channel) :
    (steadyBand ch).needsCalibration =
      ch.needsCalibration := rfl
@[simp] theorem steadyBand_grayZoneTicks (ch : Channel) : (steadyBand ch).grayZoneTicks = 0 := rfl
@[simp] theorem steadyBand_debounceTicks (ch : Channel) :
    (steadyBand ch).debounceTicks =
      ch.debounceTicks := rfl
@[simp] theorem steadyBand_lowBuffer (ch : Channel) :
    (steadyBand ch).lowBuffer =
      ch.lowBuffer := rfl
@[simp] theorem steadyBand_highBuffer (ch : Channel) :
    (steadyBand ch).highBuffer =
      ch.highBuffer := rfl

end Sys2Proof.Machine
end

