-- ==== Sys2Proof/Laws/Accept.lean ====
section
/-! SUPPORT. What acceptance of a command can do, said once (43_control.md R200). -/

namespace Sys2Proof.Machine

theorem accept_none (effect : State → State) (s : State) :
    accept none effect s =
      if configWf s.cfg = false then .refused .illFormedConfig
      else if s.busy = true then .next (raiseCmdError .busy s)
      else .next (effect (raiseCmdError .ok s)) := by
  simp [accept]

theorem accept_some (ch : Nat) (effect : State → State) (s : State) :
    accept (some ch) effect s =
      if configWf s.cfg = false then .refused .illFormedConfig
      else if s.busy = true then .next (raiseCmdError .busy s)
      else if s.cfg.numChannels ≤ ch then .next (raiseCmdError .badChannel s)
      else .next (effect (raiseCmdError .ok s)) := by
  simp [accept]

/-- All that acceptance can do: a rejection that changes LAST_ERR alone, or the command's effect on the
state with LAST_ERR cleared (43_control.md R200). -/
theorem accept_cases {ch : Option Nat} {effect : State → State} {s t : State}
    (h : accept ch effect s = .next t) :
    configWf s.cfg = true ∧
      ((s.busy = true ∧ t = raiseCmdError .busy s) ∨
       (s.busy = false ∧ (∃ c, ch = some c ∧ s.cfg.numChannels ≤ c) ∧
          t = raiseCmdError .badChannel s) ∨
       (s.busy = false ∧ (∀ c, ch = some c → c < s.cfg.numChannels) ∧
          t = effect (raiseCmdError .ok s))) := by
  cases ch with
  | none =>
    rw [accept_none] at h
    split_ifs at h with h1 h2 <;> cases h
    · exact ⟨by simpa using h1, .inl ⟨h2, rfl⟩⟩
    · exact ⟨by simpa using h1, .inr (.inr ⟨by simpa using h2, by simp, rfl⟩)⟩
  | some c =>
    rw [accept_some] at h
    split_ifs at h with h1 h2 h3 <;> cases h
    · exact ⟨by simpa using h1, .inl ⟨h2, rfl⟩⟩
    · exact ⟨by simpa using h1, .inr (.inl ⟨by simpa using h2, ⟨c, rfl, h3⟩, rfl⟩)⟩
    · refine ⟨by simpa using h1, .inr (.inr ⟨by simpa using h2, ?_, rfl⟩)⟩
      rintro c' ⟨⟩
      omega

end Sys2Proof.Machine
end

