-- ==== Sys2Proof/Laws/Arith.lean ====
section
/-! SUPPORT. The named arithmetic, said once: what floor_div, ceil_div, clamp8 and sat_inc32 give, when a
narrowing is exact, and what a well-formed configuration bounds. -/

namespace Sys2Proof.Machine

theorem floorDiv_le (a : Int) {b : Int} (hb : 0 < b) : floorDiv a b * b ≤ a :=
  Int.ediv_mul_le a (by omega)

theorem lt_floorDiv_add_one (a : Int) {b : Int} (hb : 0 < b) : a < (floorDiv a b + 1) * b :=
  Int.lt_ediv_add_one_mul_self a hb

theorem le_ceilDiv (a : Int) {b : Int} (hb : 0 < b) : a ≤ ceilDiv a b * b := by
  have := floorDiv_le (-a) hb
  unfold floorDiv at this
  unfold ceilDiv
  linarith [Int.neg_mul (-a / b) b]

theorem ceilDiv_sub_one_lt (a : Int) {b : Int} (hb : 0 < b) : (ceilDiv a b - 1) * b < a := by
  have := lt_floorDiv_add_one (-a) hb
  unfold floorDiv at this
  unfold ceilDiv
  linarith [Int.sub_mul (-(-a / b)) 1 b, Int.add_mul (-a / b) 1 b, Int.neg_mul (-a / b) b]

theorem clamp8_range (v : Int) : 0 ≤ clamp8 v ∧ clamp8 v ≤ 255 := by
  unfold clamp8; split_ifs <;> omega

theorem clamp8_of_range {v : Int} (h0 : 0 ≤ v) (h1 : v ≤ 255) : clamp8 v = v := by
  unfold clamp8; split_ifs <;> omega

/-- A value of 0..255 is stored exactly. -/
theorem byte_toNat {v : Int} (h0 : 0 ≤ v) (h1 : v ≤ 255) : ((byte v).toNat : Int) = v := by
  unfold byte
  rw [BitVec.toNat_ofInt]
  omega

theorem byte_ofNat_toNat {n : Nat} (h : n ≤ 255) : (byte (n : Int)).toNat = n := by
  have := byte_toNat (v := n) (by omega) (by omega)
  omega

theorem byte_toNat_self (b : Byte) : byte (b.toNat : Int) = b :=
  BitVec.eq_of_toNat_eq (byte_ofNat_toNat (by have := b.isLt; omega))

theorem satInc32_toNat (v : Word) : (satInc32 v).toNat = min (v.toNat + 1) (2 ^ 32 - 1) := by
  unfold satInc32
  have := v.isLt
  split_ifs with h
  · rw [BitVec.toNat_add_of_lt (by simp; omega)]; simp; omega
  · omega

/-- What a well-formed configuration bounds (00_scope.md R6). -/
theorem configWf_bounds {cfg : Params} (h : configWf cfg = true) :
    (1 ≤ cfg.numChannels ∧ cfg.numChannels ≤ 32) ∧ cfg.pinIds.length = cfg.numChannels ∧
    (1 ≤ cfg.samplesNum ∧ cfg.samplesNum ≤ 255) ∧ cfg.lowFractionPct ≤ 100 ∧
    cfg.highFractionPct ≤ 100 ∧ cfg.pressMargin ≤ 5 ∧ cfg.releaseMargin ≤ 5 ∧
    cfg.hysteresis < 2 ^ 32 ∧ cfg.maxTimeInGrayzone < 2 ^ 32 ∧ cfg.maxProbeSteps ≤ 255 := by
  unfold configWf at h
  simp only [Bool.and_eq_true, decide_eq_true_eq] at h
  tauto

end Sys2Proof.Machine
end

