-- ==== Sys2Proof/Laws/Run.lean ====
section
/-! SUPPORT. Runs in sequence: what andThen, Sense and Discharge do, said once. -/

namespace Sys2Proof.Machine

variable {α β γ : Type}

@[simp] theorem Run.andThen_done (a : α) (e : Eng) (f : α → Eng → Run β) :
    (Run.done a e).andThen f = f a e := rfl

@[simp] theorem Run.andThen_waiting (q : SenseReq) (e : Eng) (f : α → Eng → Run β) :
    (Run.waiting q e).andThen f = .waiting q e := rfl

@[simp] theorem Run.eng_done (a : α) (e : Eng) : (Run.done a e).eng = e := rfl

@[simp] theorem Run.eng_waiting (q : SenseReq) (e : Eng) :
    (Run.waiting q e : Run α).eng = e := rfl

@[simp] theorem Run.request_done (a : α) (e : Eng) : (Run.done a e).request = none := rfl

@[simp] theorem Run.request_waiting (q : SenseReq) (e : Eng) :
    (Run.waiting q e : Run α).request = some q := rfl

theorem Run.andThen_assoc (r : Run α) (f : α → Eng → Run β) (g : β → Eng → Run γ) :
    (r.andThen f).andThen g = r.andThen fun a e => (f a e).andThen g := by
  cases r <;> rfl

/-- A sequence completes when both parts do. -/
theorem Run.andThen_eq_done {r : Run α} {f : α → Eng → Run β} {b : β} {e : Eng} :
    r.andThen f = .done b e ↔ ∃ a e₁, r = .done a e₁ ∧ f a e₁ = .done b e := by
  cases r <;> simp

/-- A sequence waits when its first part waits, or completes and its second part waits. -/
theorem Run.andThen_eq_waiting {r : Run α} {f : α → Eng → Run β} {q : SenseReq} {e : Eng} :
    r.andThen f = .waiting q e ↔
      r = .waiting q e ∨ ∃ a e₁, r = .done a e₁ ∧ f a e₁ = .waiting q e := by
  cases r <;> simp

theorem sense_nil {e : Eng} (pin thr : Byte) (h : e.replies = []) :
    sense pin thr e = .waiting (.read pin thr) e := by
  simp [sense, h]

theorem sense_cons {e : Eng} (pin thr : Byte) {b : Bool} {rest : List Bool}
    (h : e.replies = b :: rest) :
    sense pin thr e = .done b { e with replies := rest, log := .read pin thr b :: e.log } := by
  simp [sense, h]

theorem discharge_nil {e : Eng} (h : e.replies = []) : discharge e = .waiting .discharge e := by
  simp [discharge, h]

theorem discharge_cons {e : Eng} {b : Bool} {rest : List Bool} (h : e.replies = b :: rest) :
    discharge e = .done () { e with replies := rest, log := .discharge :: e.log } := by
  simp [discharge, h]

/-- All that Sense can do. -/
theorem sense_cases (pin thr : Byte) (e : Eng) :
    (e.replies = [] ∧ sense pin thr e = .waiting (.read pin thr) e) ∨
    ∃ b rest, e.replies = b :: rest ∧
      sense pin thr e = .done b { e with replies := rest, log := .read pin thr b :: e.log } := by
  cases h : e.replies with
  | nil => exact .inl ⟨rfl, sense_nil pin thr h⟩
  | cons b rest => exact .inr ⟨b, rest, rfl, sense_cons pin thr h⟩

/-- All that Discharge can do. -/
theorem discharge_cases (e : Eng) :
    (e.replies = [] ∧ discharge e = .waiting .discharge e) ∨
    ∃ b rest, e.replies = b :: rest ∧
      discharge e = .done () { e with replies := rest, log := .discharge :: e.log } := by
  cases h : e.replies with
  | nil => exact .inl ⟨rfl, discharge_nil h⟩
  | cons b rest => exact .inr ⟨b, rest, rfl, discharge_cons h⟩

end Sys2Proof.Machine
end

