-- ==== Sys2Proof/Laws/Prog.lean ====
section
/-! SUPPORT. Every part of a command's pseudocode is built from a few steps: reads of listed pins, the
discharge, changes of the channels, changes of the temporaries, and looking at a channel. What holds of
each of these steps holds of the whole, by one induction. -/

namespace Sys2Proof.Machine

/-- Built from transactions that make only events in `events`, changes of the channels in `mods` and looks at
the channels in `seen`. -/
inductive Prog (events : SenseEvent → Prop) (mods : (List Channel → List Channel) → Prop)
    (seen : Nat → Prop) : {α : Type} → (Eng → Run α) → Prop
  | done {α : Type} (a : α) : Prog events mods seen (fun e => .done a e)
  | sense (pin thr : Byte) : (∀ b, events (.read pin thr b)) → Prog events mods seen (sense pin thr)
  | discharge : events .discharge → Prog events mods seen discharge
  | temps (t : Option CalTemps) : Prog events mods seen (fun e => .done () { e with temps := t })
  | modify (F : List Channel → List Channel) : mods F →
      Prog events mods seen (fun e => .done () { e with chans := F e.chans })
  | andThen {α β : Type} (f : Eng → Run α) (g : α → Eng → Run β) : Prog events mods seen f →
      (∀ a, Prog events mods seen (g a)) → Prog events mods seen (fun e => (f e).andThen g)
  | look {α : Type} (c : Nat) (f : Channel → Eng → Run α) : seen c →
      (∀ ch, Prog events mods seen (f ch)) → Prog events mods seen (fun e => f (channelAt e.chans c) e)

/-- An engine state with more answers at hand. -/
def Eng.withMore (e : Eng) (ys : List Bool) : Eng := { e with replies := e.replies ++ ys }

/-- What a run that started at e has used: one answer for each new transaction, in order; it waits only
when no answer is left; REPORT is as it was. -/
structure Uses {α : Type} (events : SenseEvent → Prop) (e : Eng) (r : Run α) : Prop where
  history : ∃ new used, r.eng.log = new ++ e.log ∧ e.replies = used ++ r.eng.replies ∧
    new.length = used.length ∧ ∀ ev ∈ new, events ev
  report : r.eng.report = e.report
  dry : ∀ q e', r = .waiting q e' → e'.replies = []

theorem Uses.andThen {α β : Type} {events : SenseEvent → Prop} {e : Eng} {r : Run α}
    {g : α → Eng → Run β} (h : Uses events e r) (hg : ∀ a e', Uses events e' (g a e')) :
    Uses events e (r.andThen g) := by
  cases r with
  | waiting q e₁ =>
    exact ⟨h.history, h.report, fun q' e' he => by cases he; exact h.dry q e₁ rfl⟩
  | done a e₁ =>
    obtain ⟨n₁, u₁, hl₁, hr₁, hn₁, ho₁⟩ := h.history
    obtain ⟨n₂, u₂, hl₂, hr₂, hn₂, ho₂⟩ := (hg a e₁).history
    simp only [Run.eng_done] at hl₁ hr₁
    refine ⟨⟨n₂ ++ n₁, u₁ ++ u₂, ?_, ?_, by simp [hn₁, hn₂, Nat.add_comm], ?_⟩, ?_, ?_⟩
    · simp [hl₂, hl₁]
    · simp [hr₁, hr₂]
    · intro ev hev
      rcases List.mem_append.1 hev with h' | h'
      · exact ho₂ ev h'
      · exact ho₁ ev h'
    · exact ((hg a e₁).report).trans h.report
    · exact (hg a e₁).dry

theorem Prog.uses {events : SenseEvent → Prop} {mods : (List Channel → List Channel) → Prop}
    {seen : Nat → Prop} {α : Type} {f : Eng → Run α} (h : Prog events mods seen f) :
    ∀ e, Uses events e (f e) := by
  induction h with
  | done a => exact fun e => ⟨⟨[], [], by simp⟩, rfl, by simp⟩
  | temps t => exact fun e => ⟨⟨[], [], by simp⟩, rfl, by simp⟩
  | modify F _ => exact fun e => ⟨⟨[], [], by simp⟩, rfl, by simp⟩
  | sense pin thr hp =>
    intro e
    rcases sense_cases pin thr e with ⟨h, hs⟩ | ⟨b, rest, h, hs⟩ <;> rw [hs]
    · exact ⟨⟨[], [], by simp⟩, rfl, by rintro _ _ ⟨⟩; exact h⟩
    · exact ⟨⟨[.read pin thr b], [b], by simp [h, hp]⟩, rfl, by simp⟩
  | discharge hd =>
    intro e
    rcases discharge_cases e with ⟨h, hs⟩ | ⟨b, rest, h, hs⟩ <;> rw [hs]
    · exact ⟨⟨[], [], by simp⟩, rfl, by rintro _ _ ⟨⟩; exact h⟩
    · exact ⟨⟨[.discharge], [b], by simp [h, hd]⟩, rfl, by simp⟩
  | andThen f g _ _ ihf ihg => exact fun e => (ihf e).andThen ihg
  | look c f _ _ ih => exact fun e => ih _ e

/-- A property of the channels that every change keeps, a run keeps. -/
theorem Prog.keeps {events : SenseEvent → Prop} {mods : (List Channel → List Channel) → Prop}
    {seen : Nat → Prop} {α : Type} {f : Eng → Run α} (h : Prog events mods seen f)
    (K : List Channel → Prop) (hK : ∀ F, mods F → ∀ chans, K chans → K (F chans)) :
    ∀ e, K e.chans → K (f e).eng.chans := by
  induction h with
  | done a => exact fun e he => he
  | temps t => exact fun e he => he
  | modify F hF => exact fun e he => hK F hF _ he
  | sense pin thr _ =>
    intro e he
    rcases sense_cases pin thr e with ⟨_, hs⟩ | ⟨b, rest, _, hs⟩ <;> rw [hs] <;> exact he
  | discharge hd =>
    intro e he
    rcases discharge_cases e with ⟨_, hs⟩ | ⟨b, rest, _, hs⟩ <;> rw [hs] <;> exact he
  | andThen f g _ _ ihf ihg =>
    intro e he
    have h₁ := ihf e he
    show K ((f e).andThen g).eng.chans
    cases hf : f e with
    | waiting q e₁ => rw [hf] at h₁; exact h₁
    | done a e₁ => rw [hf] at h₁; exact ihg a e₁ h₁
  | look c f _ _ ih => exact fun e he => ih _ e he

/-- With more answers at hand, a run that completed completes the same way and leaves them. -/
theorem Prog.done_withMore {events : SenseEvent → Prop} {mods : (List Channel → List Channel) → Prop}
    {seen : Nat → Prop} {α : Type} {f : Eng → Run α} (h : Prog events mods seen f) :
    ∀ e a e', f e = .done a e' → ∀ ys, f (e.withMore ys) = .done a (e'.withMore ys) := by
  induction h with
  | done a => rintro e _ _ ⟨⟩ ys; rfl
  | temps t => rintro e _ _ ⟨⟩ ys; rfl
  | modify F hF => rintro e _ _ ⟨⟩ ys; rfl
  | sense pin thr _ =>
    intro e a e' h ys
    rcases sense_cases pin thr e with ⟨_, hs⟩ | ⟨b, rest, hr, hs⟩ <;> rw [hs] at h <;> cases h
    exact sense_cons (e := e.withMore ys) pin thr (b := a) (rest := rest ++ ys)
      (by simp [Eng.withMore, hr])
  | discharge hd =>
    intro e a e' h ys
    rcases discharge_cases e with ⟨_, hs⟩ | ⟨b, rest, hr, hs⟩ <;> rw [hs] at h <;> cases h
    exact discharge_cons (e := e.withMore ys) (b := b) (rest := rest ++ ys)
      (by simp [Eng.withMore, hr])
  | andThen f g _ _ ihf ihg =>
    intro e a e' h ys
    obtain ⟨a₁, e₁, h₁, h₂⟩ := Run.andThen_eq_done.1 h
    show (f (e.withMore ys)).andThen g = _
    rw [ihf e a₁ e₁ h₁ ys]
    exact ihg a₁ e₁ a e' h₂ ys
  | look c f _ _ ih => exact fun e a e' h ys => ih _ e a e' h ys

/-- The history of a run only grows. -/
theorem Prog.log_grows {events : SenseEvent → Prop} {mods : (List Channel → List Channel) → Prop}
    {seen : Nat → Prop} {α : Type} {f : Eng → Run α} (h : Prog events mods seen f) (e : Eng) :
    ∃ new, (f e).eng.log = new ++ e.log := by
  obtain ⟨new, _, hl, _⟩ := (h.uses e).history
  exact ⟨new, hl⟩

/-- A run that waited goes on, when the answer comes, from the transaction it waited on: its history so
far stays, and that transaction is the next of it. -/
theorem Prog.waiting_withMore {events : SenseEvent → Prop} {mods : (List Channel → List Channel) → Prop}
    {seen : Nat → Prop} {α : Type} {f : Eng → Run α} (h : Prog events mods seen f) :
    ∀ e q e', f e = .waiting q e' → ∀ b ys,
      ∃ new, (f (e.withMore (b :: ys))).eng.log = new ++ answered b q :: e'.log := by
  induction h with
  | done a => rintro e q e' ⟨⟩
  | temps t => rintro e q e' ⟨⟩
  | modify F hF => rintro e q e' ⟨⟩
  | sense pin thr _ =>
    intro e q e' h b ys
    rcases sense_cases pin thr e with ⟨hr, hs⟩ | ⟨_, rest, hr, hs⟩ <;> rw [hs] at h <;> cases h
    refine ⟨[], ?_⟩
    rw [sense_cons (b := b) (rest := ys) pin thr (by simp [Eng.withMore, hr])]
    rfl
  | discharge hd =>
    intro e q e' h b ys
    rcases discharge_cases e with ⟨hr, hs⟩ | ⟨_, rest, hr, hs⟩ <;> rw [hs] at h <;> cases h
    refine ⟨[], ?_⟩
    rw [discharge_cons (b := b) (rest := ys) (by simp [Eng.withMore, hr])]
    rfl
  | andThen f g hf hg ihf ihg =>
    intro e q e' h b ys
    show ∃ new, ((f (e.withMore (b :: ys))).andThen g).eng.log = _
    rcases Run.andThen_eq_waiting.1 h with h₁ | ⟨a₁, e₁, h₁, h₂⟩
    · obtain ⟨new, hn⟩ := ihf e q e' h₁ b ys
      cases hf' : f (e.withMore (b :: ys)) with
      | waiting q₂ e₂ => rw [hf'] at hn; exact ⟨new, hn⟩
      | done a₂ e₂ =>
        rw [hf'] at hn
        obtain ⟨new₂, hn₂⟩ := (hg a₂).log_grows e₂
        exact ⟨new₂ ++ new, by simpa [hn₂] using hn⟩
    · rw [hf.done_withMore e a₁ e₁ h₁ (b :: ys)]
      exact ihg a₁ e₁ q e' h₂ b ys
  | look c f _ _ ih => exact fun e q e' h b ys => ih _ e q e' h b ys

/-- A change of the channels that every step of a run commutes with, and that no look can see, commutes
with the run. -/
theorem Prog.commutes {events : SenseEvent → Prop} {mods : (List Channel → List Channel) → Prop}
    {seen : Nat → Prop} {α : Type} {f : Eng → Run α} (h : Prog events mods seen f)
    (G : List Channel → List Channel) (hm : ∀ F, mods F → ∀ l, F (G l) = G (F l))
    (hs : ∀ c, seen c → ∀ l, channelAt (G l) c = channelAt l c) :
    ∀ e, f { e with chans := G e.chans } = (f e).mapEng fun e => { e with chans := G e.chans } := by
  induction h with
  | done a => exact fun e => rfl
  | temps t => exact fun e => rfl
  | modify F hF => intro e; simp [Run.mapEng, hm F hF]
  | sense pin thr _ =>
    intro e
    cases hr : e.replies <;> simp [Machine.sense, hr, Run.mapEng]
  | discharge hd =>
    intro e
    cases hr : e.replies <;> simp [Machine.discharge, hr, Run.mapEng]
  | andThen f g _ _ ihf ihg =>
    intro e
    show (f { e with chans := G e.chans }).andThen g = ((f e).andThen g).mapEng _
    rw [ihf e]
    cases f e with
    | waiting q e₁ => rfl
    | done a e₁ => exact ihg a e₁
  | look c f hc _ ih =>
    intro e
    show f (channelAt (G e.chans) c) _ = _
    rw [hs c hc]
    exact ih _ e

/-- More events, changes and looks allowed. -/
theorem Prog.mono {events events' : SenseEvent → Prop} {mods mods' : (List Channel → List Channel) → Prop}
    {seen seen' : Nat → Prop} (hp : ∀ ev, events ev → events' ev) (hm : ∀ F, mods F → mods' F)
    (hs : ∀ c, seen c → seen' c) {α : Type} {f : Eng → Run α} (h : Prog events mods seen f) :
    Prog events' mods' seen' f := by
  induction h with
  | done a => exact .done a
  | temps t => exact .temps t
  | modify F hF => exact .modify F (hm F hF)
  | sense pin thr h => exact .sense pin thr (fun b => hp _ (h b))
  | discharge hd => exact .discharge (hp _ hd)
  | andThen f g _ _ ihf ihg => exact .andThen f g ihf ihg
  | look c f hc _ ih => exact .look c f (hs c hc) ih

end Sys2Proof.Machine
end

