-- ==== Sys2Proof/Laws/Procedures.lean ====
section
/-! SUPPORT. Every procedure of the pseudocode is a Prog: which pins it reads, which channel it changes
and how. -/

namespace Sys2Proof.Machine

/-- The changes a calibration or a sampling of channel c may make: a push into one of its buffers, its
gray count cleared, its thresholds written with the flag cleared. -/
inductive ChannelChange (cfg : Params) (c : Nat) : (List Channel → List Channel) → Prop
  | push (side : Side) (x : Bool) :
      ChannelChange cfg c fun l => updateBuffer l c side (pushBuffer cfg.samplesNum x)
  | clearGray :
      ChannelChange cfg c fun l => updateChannel l c fun ch => { ch with grayZoneTicks := 0 }
  | setThresholds (lo hi : Byte) :
      ChannelChange cfg c fun l => updateChannel l c fun ch =>
        { ch with lowThreshold := lo, highThreshold := hi, needsCalibration := false }

/-- A READ of this pin. -/
def readOf (pin : Byte) (ev : SenseEvent) : Prop := ∃ thr b, ev = .read pin thr b

/-- Built from READs of channel c's pin and changes of and looks at channel c. -/
abbrev ProgOn (cfg : Params) (c : Nat) {α : Type} (f : Eng → Run α) : Prop :=
  Prog (readOf (pinOf cfg c)) (ChannelChange cfg c) (· = c) f

theorem readsInto_prog (cfg : Params) (c : Nat) (side : Side) (t : Byte) :
    ∀ k, ProgOn cfg c (readsInto cfg c side t k)
  | 0 => .done ()
  | k + 1 =>
    .andThen _ _ (.sense _ _ fun b => ⟨_, b, rfl⟩) fun x =>
      .andThen (fun e => .done () (pushAt cfg c side x e)) (fun _ => readsInto cfg c side t k)
        (.modify _ (.push side x)) fun _ => readsInto_prog cfg c side t k

theorem fill_prog (cfg : Params) (c : Nat) (side : Side) (t : Byte) :
    ProgOn cfg c (fill cfg c side t) :=
  readsInto_prog cfg c side t cfg.samplesNum

theorem coarse_prog (cfg : Params) (c : Nat) : ∀ k q, ProgOn cfg c (coarse cfg c k q)
  | 0, q =>
    .andThen (fun e => .done () (holdTemps cfg.maxProbeSteps q e)) (fun _ e => .done q e)
      (.temps _) fun _ => .done q
  | k + 1, q => by
    show Prog _ _ _ (fun e => coarse cfg c (k + 1) q e)
    unfold coarse
    split_ifs with h
    · refine .andThen (fun e => (Run.done () (holdTemps (cfg.maxProbeSteps - k) q e)).andThen
        fun _ => sense (pinOf cfg c) (byte q.lo)) _
        (.andThen (fun e => .done () (holdTemps (cfg.maxProbeSteps - k) q e)) _ (.temps _)
          fun _ => .sense _ _ fun b => ⟨_, b, rfl⟩) fun x => ?_
      refine .andThen (fun e => (Run.done ()
        (holdTemps (cfg.maxProbeSteps - k) (probeLow x q) e)).andThen
        fun _ => sense (pinOf cfg c) (byte q.hi)) _
        (.andThen (fun e => .done () (holdTemps (cfg.maxProbeSteps - k) (probeLow x q) e)) _
          (.temps _) fun _ => .sense _ _ fun b => ⟨_, b, rfl⟩) fun y => coarse_prog cfg c k _
    · exact .andThen (fun e => .done () (holdTemps (cfg.maxProbeSteps - (k + 1)) q e))
        (fun _ e => .done q e) (.temps _) fun _ => .done q

/-- A choice made on a channel's buffer sum. -/
theorem ProgOn.bySum {cfg : Params} {c : Nat} {α : Type} (side : Side) (p : Nat → Bool)
    {f g : Eng → Run α} (hf : ProgOn cfg c f) (hg : ProgOn cfg c g) :
    ProgOn cfg c fun e => if p (sumAt e.chans c side) then f e else g e :=
  .look c (fun ch e => if p (bufferOf ch side).sum.toNat then f e else g e) rfl fun ch => by
    show Prog _ _ _ fun e => if p (bufferOf ch side).sum.toNat then f e else g e
    split_ifs
    · exact hf
    · exact hg

theorem lowWalkUp_prog (cfg : Params) (c : Nat) : ∀ gap, ProgOn cfg c (lowWalkUp cfg c gap)
  | 0 => .done _
  | gap + 1 => .andThen _ _ (fill_prog ..) fun _ =>
      ProgOn.bySum .low (lowOK cfg) (lowWalkUp_prog cfg c gap) (.done _)

theorem lowWalkDown_prog (cfg : Params) (c : Nat) : ∀ lo, ProgOn cfg c (lowWalkDown cfg c lo)
  | 0 => .done _
  | lo + 1 => .andThen _ _ (fill_prog ..) fun _ =>
      ProgOn.bySum .low (lowOK cfg) (.done _) (lowWalkDown_prog cfg c lo)

theorem highWalkUp_prog (cfg : Params) (c : Nat) : ∀ gap, ProgOn cfg c (highWalkUp cfg c gap)
  | 0 => .done _
  | gap + 1 => .andThen _ _ (fill_prog ..) fun _ =>
      ProgOn.bySum .high (highOK cfg) (.done _) (highWalkUp_prog cfg c gap)

theorem highWalkDown_prog (cfg : Params) (c : Nat) : ∀ hi, ProgOn cfg c (highWalkDown cfg c hi)
  | 0 => .done _
  | hi + 1 => .andThen _ _ (fill_prog ..) fun _ =>
      ProgOn.bySum .high (highOK cfg) (highWalkDown_prog cfg c hi) (.done _)

theorem lowWalk_prog (cfg : Params) (c : Nat) (lo : Int) : ProgOn cfg c (lowWalk cfg c lo) :=
  ProgOn.bySum .low (lowOK cfg) (lowWalkUp_prog ..) (lowWalkDown_prog ..)

theorem highWalk_prog (cfg : Params) (c : Nat) (hi : Int) : ProgOn cfg c (highWalk cfg c hi) :=
  ProgOn.bySum .high (highOK cfg) (highWalkDown_prog ..) (highWalkUp_prog ..)

theorem fineAdjust_prog (cfg : Params) (c : Nat) (q : Search) : ProgOn cfg c (fineAdjust cfg c q) :=
  .andThen _ _ (fill_prog ..) fun _ => .andThen _ _ (fill_prog ..) fun _ =>
    .andThen _ _ (lowWalk_prog ..) fun _ => .andThen _ _ (highWalk_prog ..) fun _ => .done _

theorem calibrate_prog (cfg : Params) (c : Nat) : ProgOn cfg c (calibrate cfg c) :=
  .andThen _ _ (coarse_prog ..) fun _ => .andThen _ _ (fineAdjust_prog ..) fun r =>
    .andThen (fun e => .done () { e with temps := none })
      (fun _ e => .done () { e with chans := updateChannel e.chans c fun ch =>
        { ch with
          lowThreshold := byte (widenLow cfg r.1)
          highThreshold := byte (widenHigh cfg r.2)
          needsCalibration := false } })
      (.temps none) fun _ => .modify _ (.setThresholds _ _)

theorem recalibrate_prog (cfg : Params) (c : Nat) : ProgOn cfg c (recalibrate cfg c) :=
  .andThen (fun e => .done () { e with chans := updateChannel e.chans c fun ch =>
      { ch with grayZoneTicks := 0 } }) (fun _ => calibrate cfg c)
    (.modify _ .clearGray) fun _ => calibrate_prog cfg c

theorem calibrateFlagged_prog (cfg : Params) (c : Nat) :
    ProgOn cfg c (calibrateFlagged cfg c) :=
  .look c (fun ch e => if ch.needsCalibration then recalibrate cfg c e else .done () e) rfl
    fun ch => by
      show Prog _ _ _ fun e => if ch.needsCalibration then recalibrate cfg c e else .done () e
      split_ifs
      · exact recalibrate_prog cfg c
      · exact .done ()

theorem sampleChannel_prog (cfg : Params) (c : Nat) : ProgOn cfg c (sampleChannel cfg c) :=
  .andThen _ _ (.look c (fun ch => fill cfg c .low ch.lowThreshold) rfl fun _ => fill_prog ..)
    fun _ => .look c (fun ch => fill cfg c .high ch.highThreshold) rfl fun _ => fill_prog ..

/-- Built from READs of the pins of channels below C, and changes of and looks at those channels. -/
abbrev ProgAll (cfg : Params) {α : Type} (f : Eng → Run α) : Prop :=
  Prog (fun ev => ∃ c < cfg.numChannels, readOf (pinOf cfg c) ev)
    (fun F => ∃ c < cfg.numChannels, ChannelChange cfg c F) (· < cfg.numChannels) f

theorem ProgOn.toAll {cfg : Params} {c : Nat} (hc : c < cfg.numChannels) {α : Type}
    {f : Eng → Run α} (h : ProgOn cfg c f) : ProgAll cfg f :=
  h.mono (fun _ hp => ⟨c, hc, hp⟩) (fun _ hF => ⟨c, hc, hF⟩) fun _ h => h ▸ hc

theorem forChannels_prog (cfg : Params) (body : Nat → Eng → Run Unit) :
    ∀ cs : List Nat, (∀ c ∈ cs, ProgAll cfg (body c)) → ProgAll cfg (forChannels body cs)
  | [], _ => .done ()
  | c :: cs, h => .andThen _ _ (h c (by simp)) fun _ =>
      forChannels_prog cfg body cs fun c' hc' => h c' (by simp [hc'])

/-- Steps 1 and 2 of TICK, after the DISCHARGE. -/
def tickSensing (cfg : Params) (e : Eng) : Run Unit :=
  (forChannels (calibrateFlagged cfg) (List.range cfg.numChannels) e).andThen fun _ e =>
  forChannels (sampleChannel cfg) (List.range cfg.numChannels) e

theorem tickSensing_prog (cfg : Params) : ProgAll cfg (tickSensing cfg) :=
  .andThen _ _
    (forChannels_prog cfg _ _ fun c hc =>
      (calibrateFlagged_prog cfg c).toAll (List.mem_range.1 hc))
    fun _ => forChannels_prog cfg _ _ fun c hc =>
      (sampleChannel_prog cfg c).toAll (List.mem_range.1 hc)

theorem runTick_eq (cfg : Params) (e : Eng) :
    runTick cfg e = ((discharge e).andThen fun _ => tickSensing cfg).andThen fun _ e =>
      .done () (decideAndReport cfg e) := by
  unfold runTick tickSensing
  simp only [Run.andThen_assoc]

/-- What TICK does up to its last transaction. -/
def tickUntilDecided (cfg : Params) (e : Eng) : Run Unit :=
  (discharge e).andThen fun _ => tickSensing cfg

theorem tickUntilDecided_prog (cfg : Params) :
    Prog (fun ev => ev = .discharge ∨ ∃ c < cfg.numChannels, readOf (pinOf cfg c) ev)
      (fun F => ∃ c < cfg.numChannels, ChannelChange cfg c F) (· < cfg.numChannels)
      (tickUntilDecided cfg) :=
  .andThen _ _ (.discharge (.inl rfl)) fun _ =>
    (tickSensing_prog cfg).mono (fun _ h => .inr h) (fun _ h => h) fun _ h => h

theorem runCal_prog (cfg : Params) {ch : Nat} :
    Prog (fun ev => ev = .discharge ∨ readOf (pinOf cfg ch) ev) (ChannelChange cfg ch) (· = ch)
      (runCal cfg ch) :=
  .andThen _ _ (.discharge (.inl rfl)) fun _ =>
    (recalibrate_prog cfg ch).mono (fun _ h => .inr h) (fun _ h => h) fun _ h => h

end Sys2Proof.Machine
end

