-- ==== Sys2Proof/Laws/Buffers.lean ====
section
/-! SUPPORT. Selecting and changing channels and buffers, and what pushes do to a buffer: read from its
oldest sample on, a push drops the first and appends the new one. -/

namespace Sys2Proof.Machine

/-! ### Channels and buffers by index -/

@[simp] theorem updateChannel_length (chans : List Channel) (c : Nat) (f : Channel → Channel) :
    (updateChannel chans c f).length = chans.length := by simp [updateChannel]

@[simp] theorem updateBuffer_length (chans : List Channel) (c : Nat) (side : Side)
    (f : Buffer → Buffer) : (updateBuffer chans c side f).length = chans.length := by
  simp [updateBuffer]

theorem channelAt_eq_getElem {chans : List Channel} {c : Nat} (h : c < chans.length) :
    channelAt chans c = chans[c] := by
  simp [channelAt, List.getD_eq_getElem?_getD, h]

theorem channelAt_mem {chans : List Channel} {c : Nat} (h : c < chans.length) :
    channelAt chans c ∈ chans := by
  rw [channelAt_eq_getElem h]; exact List.getElem_mem h

theorem channelAt_updateChannel {chans : List Channel} {c : Nat} (h : c < chans.length)
    (f : Channel → Channel) : channelAt (updateChannel chans c f) c = f (channelAt chans c) := by
  rw [channelAt_eq_getElem (by simpa using h), channelAt_eq_getElem h]
  simp [updateChannel]

theorem channelAt_updateChannel_ne {c d : Nat} (h : d ≠ c) (chans : List Channel)
    (f : Channel → Channel) : channelAt (updateChannel chans c f) d = channelAt chans d := by
  simp [channelAt, updateChannel, List.getD_eq_getElem?_getD, Ne.symm h]

theorem updateChannel_updateChannel (chans : List Channel) (c : Nat) (f g : Channel → Channel) :
    updateChannel (updateChannel chans c f) c g = updateChannel chans c (fun ch => g (f ch)) := by
  simp only [updateChannel]
  apply List.ext_getElem (by simp)
  intro i h1 h2
  simp only [List.getElem_modify]
  split_ifs <;> rfl

theorem updateChannel_comm {c d : Nat} (h : d ≠ c) (chans : List Channel)
    (f g : Channel → Channel) :
    updateChannel (updateChannel chans c f) d g = updateChannel (updateChannel chans d g) c f := by
  simp only [updateChannel]
  apply List.ext_getElem (by simp)
  intro i h1 h2
  simp only [List.getElem_modify]
  split_ifs with h3 h4 <;> first | rfl | (exact absurd (h3.trans h4.symm) h)

theorem mem_updateChannel {chans : List Channel} {c : Nat} {f : Channel → Channel} {ch : Channel}
    (h : ch ∈ updateChannel chans c f) :
    ch ∈ chans ∨ ∃ ch₀ ∈ chans, ch = f ch₀ := by
  simp only [updateChannel] at h
  obtain ⟨i, hi, rfl⟩ := List.getElem_of_mem h
  rw [List.getElem_modify]
  split_ifs
  · exact .inr ⟨_, List.getElem_mem _, rfl⟩
  · exact .inl (List.getElem_mem _)

theorem updateBufferOf_updateBufferOf (side : Side) (f g : Buffer → Buffer) (ch : Channel) :
    updateBufferOf side g (updateBufferOf side f ch) = updateBufferOf side (fun b => g (f b)) ch := by
  cases side <;> rfl

@[simp] theorem bufferOf_updateBufferOf (side : Side) (f : Buffer → Buffer) (ch : Channel) :
    bufferOf (updateBufferOf side f ch) side = f (bufferOf ch side) := by cases side <;> rfl

theorem updateBuffer_updateBuffer (chans : List Channel) (c : Nat) (side : Side)
    (f g : Buffer → Buffer) :
    updateBuffer (updateBuffer chans c side f) c side g =
      updateBuffer chans c side (fun b => g (f b)) := by
  simp [updateBuffer, updateChannel_updateChannel, updateBufferOf_updateBufferOf]

theorem updateBuffer_id (chans : List Channel) (c : Nat) (side : Side) :
    updateBuffer chans c side (fun b => b) = chans := by
  have : updateBufferOf side (fun b => b) = id := by funext ch; cases side <;> rfl
  simp only [updateBuffer, updateChannel, this]
  apply List.ext_getElem (by simp)
  intro i h1 h2
  simp

theorem bufferAt_updateBuffer {chans : List Channel} {c : Nat} (h : c < chans.length) (side : Side)
    (f : Buffer → Buffer) :
    bufferAt (updateBuffer chans c side f) c side = f (bufferAt chans c side) := by
  simp [bufferAt, updateBuffer, channelAt_updateChannel h]

theorem bufferOf_updateBufferOf_ne {side side' : Side} (h : side' ≠ side) (f : Buffer → Buffer)
    (ch : Channel) : bufferOf (updateBufferOf side f ch) side' = bufferOf ch side' := by
  cases side <;> cases side' <;> first | rfl | exact absurd rfl h

theorem bufferAt_updateBuffer_ne_side {chans : List Channel} {c : Nat} {side side' : Side}
    (h : side' ≠ side) (f : Buffer → Buffer) :
    bufferAt (updateBuffer chans c side f) c side' = bufferAt chans c side' := by
  by_cases hc : c < chans.length
  · simp [bufferAt, updateBuffer, channelAt_updateChannel hc, bufferOf_updateBufferOf_ne h]
  · have : ∀ l : List Channel, l.length = chans.length → channelAt l c = Channel.initial 0 := by
      intro l hl
      rw [channelAt, List.getD_eq_default _ _ (by omega)]
    simp [bufferAt, this, updateBuffer]

theorem channelsOk_bufferAt {cfg : Params} {chans : List Channel} (h : channelsOk cfg chans)
    {c : Nat} (hc : c < cfg.numChannels) (side : Side) :
    bufferOk cfg.samplesNum (bufferAt chans c side) := by
  have := h.2 _ (channelAt_mem (chans := chans) (c := c) (by omega))
  cases side
  · exact this.1
  · exact this.2

/-- A change of one channel that keeps its buffers good keeps all channels good. -/
theorem channelsOk_updateChannel {cfg : Params} {chans : List Channel} (h : channelsOk cfg chans)
    (c : Nat) {f : Channel → Channel}
    (hf : ∀ ch, channelOk cfg.samplesNum ch → channelOk cfg.samplesNum (f ch)) :
    channelsOk cfg (updateChannel chans c f) := by
  refine ⟨by simpa using h.1, fun ch hch => ?_⟩
  rcases mem_updateChannel hch with h' | ⟨ch₀, h', rfl⟩
  · exact h.2 ch h'
  · exact hf _ (h.2 _ h')

theorem channelsOk_updateBuffer {cfg : Params} {chans : List Channel} (h : channelsOk cfg chans)
    (c : Nat) (side : Side) {f : Buffer → Buffer}
    (hf : ∀ b, bufferOk cfg.samplesNum b → bufferOk cfg.samplesNum (f b)) :
    channelsOk cfg (updateBuffer chans c side f) :=
  channelsOk_updateChannel h c fun ch hch => by
    cases side
    · exact ⟨hf _ hch.1, hch.2⟩
    · exact ⟨hch.1, hf _ hch.2⟩

/-! ### Pushes -/

/-- A buffer's samples, the oldest first: the next push overwrites the first of them. -/
def window (b : Buffer) : List Bool := b.slots.rotate b.cursor.toNat

/-- Pushes in order. -/
def pushAll (n : Nat) (xs : List Bool) (b : Buffer) : Buffer :=
  xs.foldl (fun b x => pushBuffer n x b) b

@[simp] theorem pushAll_nil (n : Nat) (b : Buffer) : pushAll n [] b = b := rfl

@[simp] theorem pushAll_cons (n : Nat) (x : Bool) (xs : List Bool) (b : Buffer) :
    pushAll n (x :: xs) b = pushAll n xs (pushBuffer n x b) := rfl

theorem baseline_ok {n : Nat} (h : 1 ≤ n) : bufferOk n (Buffer.baseline n) := by
  refine ⟨by simp [Buffer.baseline], by simp [Buffer.baseline]; omega, ?_⟩
  simp [Buffer.baseline, List.count_replicate]

theorem count_set_true {l : List Bool} {u : Nat} (h : u < l.length) (x : Bool) :
    (l.set u x).count true + (l.getD u false).toNat = l.count true + x.toNat := by
  rw [List.count_set h]
  have hx : 0 < l.count true ∨ l[u] = false := by
    cases hl : l[u]
    · exact .inr rfl
    · exact .inl (List.count_pos_iff.2 (hl ▸ List.getElem_mem h))
  simp only [List.getD_eq_getElem?_getD, List.getElem?_eq_getElem h, Option.getD_some]
  cases x <;> cases hl : l[u] <;> simp_all

theorem cursor_pushBuffer {n : Nat} (hn : 1 ≤ n ∧ n ≤ 255) (x : Bool) (b : Buffer) :
    (pushBuffer n x b).cursor.toNat = (b.cursor.toNat + 1) % n := by
  have : (b.cursor.toNat + 1) % n < n := Nat.mod_lt _ (by omega)
  exact byte_ofNat_toNat (by omega)

/-- A push keeps the buffer's invariant (10_state.md R30). -/
theorem pushBuffer_ok {n : Nat} (hn : 1 ≤ n ∧ n ≤ 255) {b : Buffer} (h : bufferOk n b) (x : Bool) :
    bufferOk n (pushBuffer n x b) := by
  obtain ⟨hl, hc, hs⟩ := h
  have hset := count_set_true (l := b.slots) (u := b.cursor.toNat) (by omega) x
  have hle : (b.slots.set b.cursor.toNat x).count true ≤ n := by
    have := List.count_le_length (a := true) (l := b.slots.set b.cursor.toNat x)
    simp [hl] at this; omega
  refine ⟨by simp [pushBuffer, hl], ?_, ?_⟩
  · rw [cursor_pushBuffer hn]; exact Nat.mod_lt _ (by omega)
  · have hv : ((b.sum.toNat : Int) - (b.slots.getD b.cursor.toNat false).toNat + x.toNat) =
        ((b.slots.set b.cursor.toNat x).count true : Nat) := by
      omega
    show (byte _).toNat = _
    rw [hv]
    exact byte_ofNat_toNat (by omega)

theorem pushAll_ok {n : Nat} (hn : 1 ≤ n ∧ n ≤ 255) (xs : List Bool) {b : Buffer}
    (h : bufferOk n b) : bufferOk n (pushAll n xs b) := by
  induction xs generalizing b with
  | nil => exact h
  | cons x xs ih => exact ih (pushBuffer_ok hn h x)

theorem window_count {n : Nat} {b : Buffer} (h : bufferOk n b) :
    (window b).count true = b.sum.toNat := by
  rw [window, (List.rotate_perm _ _).count_eq, h.2.2]

theorem window_length {n : Nat} {b : Buffer} (h : bufferOk n b) : (window b).length = n := by
  simp [window, h.1]

/-- A push drops the oldest sample and appends the new one (40_buffer.md R101). -/
theorem window_pushBuffer {n : Nat} (hn : 1 ≤ n ∧ n ≤ 255) {b : Buffer} (h : bufferOk n b)
    (x : Bool) : window (pushBuffer n x b) = (window b).tail ++ [x] := by
  obtain ⟨hl, hc, _⟩ := h
  have hcur := cursor_pushBuffer hn x b
  unfold window
  rw [hcur]
  show (b.slots.set b.cursor.toNat x).rotate _ = _
  generalize b.cursor.toNat = u at *
  have hrot : b.slots.rotate u = b.slots[u] :: (b.slots.drop (u + 1) ++ b.slots.take u) := by
    rw [List.rotate_eq_drop_append_take (by omega), List.drop_eq_getElem_cons (by omega)]
    rfl
  have htake : (b.slots.set u x).take (u + 1) = b.slots.take u ++ [x] := by
    rw [List.take_add_one, List.take_set]
    simp [hl, hc]
    rw [List.set_eq_of_length_le (by simp)]
  rw [hrot]
  by_cases hu : u + 1 = n
  · have hall : (b.slots.set u x).take (u + 1) = b.slots.set u x :=
      List.take_of_length_le (by simp; omega)
    rw [hu, Nat.mod_self, List.rotate_zero, ← hall, htake, List.tail_cons,
      List.drop_eq_nil_of_le (by omega), List.nil_append]
  · rw [Nat.mod_eq_of_lt (by omega), List.rotate_eq_drop_append_take (by simp; omega), htake,
      List.drop_set_of_lt (by omega)]
    simp

/-- After pushes the buffer holds the last N of its old samples and the new ones, in order. -/
theorem window_pushAll {n : Nat} (hn : 1 ≤ n ∧ n ≤ 255) (xs : List Bool) {b : Buffer}
    (h : bufferOk n b) : window (pushAll n xs b) = (window b ++ xs).drop xs.length := by
  induction xs generalizing b with
  | nil => simp
  | cons x xs ih =>
    rw [pushAll_cons, ih (pushBuffer_ok hn h x), window_pushBuffer hn h]
    have hw : (window b).length = n := window_length h
    cases hwb : window b with
    | nil => rw [hwb] at hw; simp at hw; omega
    | cons y ys => simp

theorem cursor_pushAll {n : Nat} (hn : 1 ≤ n ∧ n ≤ 255) (xs : List Bool) {b : Buffer}
    (h : bufferOk n b) :
    (pushAll n xs b).cursor.toNat = (b.cursor.toNat + xs.length) % n := by
  induction xs generalizing b with
  | nil => simpa using (Nat.mod_eq_of_lt h.2.1).symm
  | cons x xs ih =>
    rw [pushAll_cons, ih (pushBuffer_ok hn h x), cursor_pushBuffer hn]
    simp [Nat.add_assoc, Nat.add_comm 1]

/-! ### Reads into a buffer -/

/-- With the answers at hand, k reads complete: the answers are pushed in order (40_buffer.md R104). -/
theorem readsInto_done (cfg : Params) (c : Nat) (side : Side) (t : Byte) (k : Nat) (e : Eng)
    (h : k ≤ e.replies.length) :
    readsInto cfg c side t k e = .done ()
      { e with
        chans := updateBuffer e.chans c side (pushAll cfg.samplesNum (e.replies.take k))
        replies := e.replies.drop k
        log := (readsAt (pinOf cfg c) t (e.replies.take k)).reverse ++ e.log } := by
  induction k generalizing e with
  | zero =>
    have : (pushAll cfg.samplesNum ([] : List Bool)) = fun b => b := rfl
    simp [readsInto, readsAt, this, updateBuffer_id]
  | succ k ih =>
    cases hr : e.replies with
    | nil => simp [hr] at h
    | cons b rest =>
      have hk : k ≤ rest.length := by simpa [hr] using h
      rw [readsInto, sense_cons _ _ hr, Run.andThen_done, ih _ (by simpa using hk)]
      simp only [pushAt_chans, pushAt_replies, pushAt_log, pushAt_report, pushAt_temps]
      simp [updateBuffer_updateBuffer, readsAt]
      rfl

/-- With too few answers, the reads wait. -/
theorem readsInto_waits (cfg : Params) (c : Nat) (side : Side) (t : Byte) (k : Nat) (e : Eng)
    (h : e.replies.length < k) :
    ∃ e', readsInto cfg c side t k e = .waiting (.read (pinOf cfg c) t) e' := by
  induction k generalizing e with
  | zero => omega
  | succ k ih =>
    cases hr : e.replies with
    | nil => exact ⟨e, by rw [readsInto, sense_nil _ _ hr]; rfl⟩
    | cons b rest =>
      rw [readsInto, sense_cons _ _ hr, Run.andThen_done]
      exact ih _ (by simp [hr] at h ⊢; omega)

/-- A fill, completed (40_buffer.md R104). -/
theorem fill_done (cfg : Params) (c : Nat) (side : Side) (t : Byte) (e : Eng)
    (h : cfg.samplesNum ≤ e.replies.length) :
    fill cfg c side t e = .done ()
      { e with
        chans := updateBuffer e.chans c side
          (pushAll cfg.samplesNum (e.replies.take cfg.samplesNum))
        replies := e.replies.drop cfg.samplesNum
        log := (readsAt (pinOf cfg c) t (e.replies.take cfg.samplesNum)).reverse ++ e.log } :=
  readsInto_done cfg c side t cfg.samplesNum e h

/-- A fill that completed had its N answers. -/
theorem fill_eq_done {cfg : Params} {c : Nat} {side : Side} {t : Byte} {e e' : Eng}
    (h : fill cfg c side t e = .done () e') : cfg.samplesNum ≤ e.replies.length := by
  by_contra hlt
  obtain ⟨e₁, h₁⟩ := readsInto_waits cfg c side t cfg.samplesNum e (by omega)
  rw [fill, h₁] at h
  cases h

/-- The changes of a calibration or a sampling keep the channels good. -/
theorem channelChange_ok {cfg : Params} (hw : configWf cfg = true) {c : Nat}
    {F : List Channel → List Channel} (hF : ChannelChange cfg c F) {chans : List Channel}
    (h : channelsOk cfg chans) : channelsOk cfg (F chans) := by
  have hn := (configWf_bounds hw).2.2.1
  cases hF with
  | push side x => exact channelsOk_updateBuffer h c side fun b hb => pushBuffer_ok hn hb x
  | clearGray => exact channelsOk_updateChannel h c fun ch hch => hch
  | setThresholds lo hi => exact channelsOk_updateChannel h c fun ch hch => hch

/-- A change of one channel leaves every other channel as it was. -/
theorem channelChange_other {cfg : Params} {c d : Nat} (hd : d ≠ c)
    {F : List Channel → List Channel} (hF : ChannelChange cfg c F) (chans : List Channel) :
    channelAt (F chans) d = channelAt chans d := by
  cases hF with
  | push side x => exact channelAt_updateChannel_ne hd _ _
  | clearGray => exact channelAt_updateChannel_ne hd _ _
  | setThresholds lo hi => exact channelAt_updateChannel_ne hd _ _

end Sys2Proof.Machine
end

