-- ==== Sys2Proof/Laws/Fills.lean ====
section
/-! SUPPORT. What a completed fill has done, said once (40_buffer.md R104, R105), and how the answers and
events of successive fills line up. -/

namespace Sys2Proof.Machine

/-- N pushes leave the number of ones among them. -/
theorem pushAll_sum {n : Nat} (hn : 1 ≤ n ∧ n ≤ 255) {b : Buffer} (h : bufferOk n b)
    (xs : List Bool) (hx : xs.length = n) : (pushAll n xs b).sum.toNat = xs.count true := by
  rw [← window_count (pushAll_ok hn xs h), window_pushAll hn xs h, List.drop_append, hx,
    window_length h]
  simp [List.drop_eq_nil_of_le (window_length h).le]

theorem fillAnswers_zero (cfg : Params) (l : List Bool) :
    fillAnswers cfg l 0 = l.take cfg.samplesNum := by simp [fillAnswers]

theorem fillAnswers_drop (cfg : Params) (l : List Bool) (j : Nat) :
    fillAnswers cfg (l.drop cfg.samplesNum) j = fillAnswers cfg l (j + 1) := by
  simp only [fillAnswers, List.drop_drop]
  congr 2
  ring

@[simp] theorem fillEvents_zero (cfg : Params) (c : Nat) (thr : Nat → Int) (l : List Bool) :
    fillEvents cfg c thr l 0 = [] := rfl

theorem fillEvents_succ (cfg : Params) (c : Nat) (thr : Nat → Int) (l : List Bool) (k : Nat) :
    fillEvents cfg c thr l (k + 1) =
      readsAt (pinOf cfg c) (byte (thr 0)) (l.take cfg.samplesNum) ++
        fillEvents cfg c (fun j => thr (j + 1)) (l.drop cfg.samplesNum) k := by
  simp only [fillEvents, List.range_succ_eq_map, List.flatMap_cons, fillAnswers_zero,
    List.flatMap_map, fillAnswers_drop]

/-- All that a completed fill of buf(c, side) at t has done between e and e'. -/
structure Filled (cfg : Params) (c : Nat) (side : Side) (t : Byte) (e e' : Eng) : Prop where
  enough : cfg.samplesNum ≤ e.replies.length
  replies : e'.replies = e.replies.drop cfg.samplesNum
  log : e'.log = (readsAt (pinOf cfg c) t (e.replies.take cfg.samplesNum)).reverse ++ e.log
  sum : sumAt e'.chans c side = (e.replies.take cfg.samplesNum).count true
  cursor : (bufferAt e'.chans c side).cursor = (bufferAt e.chans c side).cursor
  otherSide : ∀ side', side' ≠ side → bufferAt e'.chans c side' = bufferAt e.chans c side'
  registers : ∀ d, ∃ lb hb,
    channelAt e'.chans d = { channelAt e.chans d with lowBuffer := lb, highBuffer := hb }
  other : ∀ d, d ≠ c → channelAt e'.chans d = channelAt e.chans d
  ok : channelsOk cfg e'.chans
  report : e'.report = e.report
  temps : e'.temps = e.temps

theorem fill_filled {cfg : Params} (hw : configWf cfg = true) {c : Nat} {side : Side} {t : Byte}
    {e e' : Eng} {u : Unit} (hok : channelsOk cfg e.chans) (hc : c < cfg.numChannels)
    (h : fill cfg c side t e = .done u e') : Filled cfg c side t e e' := by
  have hl := fill_eq_done h
  rw [fill_done cfg c side t e hl] at h
  cases h
  have hn := (configWf_bounds hw).2.2.1
  have hc' : c < e.chans.length := by have := hok.1; omega
  have hb := channelsOk_bufferAt hok hc side
  have hx : (e.replies.take cfg.samplesNum).length = cfg.samplesNum := by simp; omega
  refine ⟨hl, rfl, rfl, ?_, ?_, ?_, ?_, ?_, ?_, rfl, rfl⟩
  · simp only [sumAt, bufferAt_updateBuffer hc']
    exact pushAll_sum hn hb _ hx
  · simp only [bufferAt_updateBuffer hc']
    apply BitVec.eq_of_toNat_eq
    rw [cursor_pushAll hn _ hb, hx, Nat.add_mod_right, Nat.mod_eq_of_lt hb.2.1]
  · exact fun side' hs => bufferAt_updateBuffer_ne_side hs _
  · intro d
    by_cases hd : d = c
    · subst hd
      simp only [updateBuffer, channelAt_updateChannel hc']
      cases side <;> exact ⟨_, _, rfl⟩
    · simp only [updateBuffer, channelAt_updateChannel_ne hd]
      exact ⟨_, _, rfl⟩
  · exact fun d hd => channelAt_updateChannel_ne hd _ _
  · exact channelsOk_updateBuffer hok c side fun b hb => pushAll_ok hn _ hb

/-- A fill whose transactions a source answered: N where it answers 1 at the threshold, else 0. -/
theorem Filled.sum_of_obeys {cfg : Params} {c : Nat} {side : Side} {t : Byte} {e e' : Eng}
    (h : Filled cfg c side t e e') {src : Source} {new : List SenseEvent}
    (hlog : e'.log = new ++ e.log) (ho : obeys src new) :
    sumAt e'.chans c side = if src (pinOf cfg c) t then cfg.samplesNum else 0 := by
  have hnew : new = (readsAt (pinOf cfg c) t (e.replies.take cfg.samplesNum)).reverse :=
    List.append_cancel_right (hlog.symm.trans h.log)
  have hall : ∀ b ∈ e.replies.take cfg.samplesNum, b = src (pinOf cfg c) t := fun b hb =>
    beq_iff_eq.1 (ho (.read (pinOf cfg c) t b)
      (by rw [hnew, List.mem_reverse]; exact List.mem_map.2 ⟨b, hb, rfl⟩))
  have hrep := List.eq_replicate_of_mem hall
  have hlen : (e.replies.take cfg.samplesNum).length = cfg.samplesNum := by
    have := h.enough; simp; omega
  rw [h.sum, hrep, hlen, List.count_replicate]
  cases src (pinOf cfg c) t <;> simp

end Sys2Proof.Machine
end

