-- ==== Sys2Proof/Laws/Budget.lean ====
section
/-! SUPPORT. How many answers a procedure can use: with that many at hand it does not wait
(41_calibrator.md R124, R137; 42_engine.md R176). -/

namespace Sys2Proof.Machine

/-- A run from e that uses at most k answers; it waits only where fewer than k were at hand. -/
structure Within {α : Type} (k : Nat) (e : Eng) (r : Run α) : Prop where
  used : e.replies.length ≤ r.eng.replies.length + k
  short : ∀ q e', r = .waiting q e' → e.replies.length < k

theorem Within.mono {α : Type} {k k' : Nat} {e : Eng} {r : Run α} (h : Within k e r)
    (hk : k ≤ k') : Within k' e r :=
  ⟨by have := h.used; omega, fun q e' hr => by have := h.short q e' hr; omega⟩

/-- What is at hand is all that matters of where a run started. -/
theorem Within.of_replies {α : Type} {k : Nat} {e₀ e : Eng} {r : Run α} (h : Within k e₀ r)
    (he : e₀.replies = e.replies) : Within k e r :=
  ⟨he ▸ h.used, he ▸ h.short⟩

theorem Within.done {α : Type} (k : Nat) (a : α) {e e' : Eng} (h : e'.replies = e.replies) :
    Within k e (.done a e') :=
  ⟨by simp [h], by simp⟩

theorem Within.andThen {α β : Type} {k l : Nat} {e : Eng} {r : Run α} {g : α → Eng → Run β}
    (h : Within k e r) (hd : ∀ a e₁, r = .done a e₁ → Within l e₁ (g a e₁)) :
    Within (k + l) e (r.andThen g) := by
  cases r with
  | waiting q e₁ =>
    have h1 := h.short q e₁ rfl
    exact ⟨by have := h.used; simp only [Run.andThen_waiting, Run.eng_waiting] at this ⊢; omega,
      fun _ _ _ => by omega⟩
  | done a e₁ =>
    have h1 := h.used
    have h2 := hd a e₁ rfl
    simp only [Run.eng_done] at h1
    exact ⟨by have := h2.used; simp only [Run.andThen_done]; omega,
      fun q e' hr => by have := h2.short q e' hr; omega⟩

/-- With enough answers at hand a run completes. -/
theorem Within.completes {α : Type} {k : Nat} {e : Eng} {r : Run α} (h : Within k e r)
    (hk : k ≤ e.replies.length) : ∃ a e', r = .done a e' := by
  cases r with
  | waiting q e' => have := h.short q e' rfl; omega
  | done a e' => exact ⟨a, e', rfl⟩

theorem sense_within (pin thr : Byte) (e : Eng) : Within 1 e (sense pin thr e) := by
  rcases sense_cases pin thr e with ⟨h, hs⟩ | ⟨b, rest, h, hs⟩ <;> rw [hs] <;>
    exact ⟨by simp [h], by simp [h]⟩

theorem discharge_within (e : Eng) : Within 1 e (discharge e) := by
  rcases discharge_cases e with ⟨h, hs⟩ | ⟨b, rest, h, hs⟩ <;> rw [hs] <;>
    exact ⟨by simp [h], by simp [h]⟩

theorem readsInto_within (cfg : Params) (c : Nat) (side : Side) (t : Byte) (k : Nat) (e : Eng) :
    Within k e (readsInto cfg c side t k e) := by
  induction k generalizing e with
  | zero => exact .done 0 () rfl
  | succ k ih =>
    refine Within.mono (k := 1 + k) ?_ (by omega)
    exact (sense_within (pinOf cfg c) t e).andThen fun x e₁ _ =>
      (ih (pushAt cfg c side x e₁)).of_replies rfl

theorem fill_within (cfg : Params) (c : Nat) (side : Side) (t : Byte) (e : Eng) :
    Within cfg.samplesNum e (fill cfg c side t e) :=
  readsInto_within cfg c side t cfg.samplesNum e

theorem coarse_within (cfg : Params) (c k : Nat) (q : Search) (e : Eng) :
    Within (2 * k) e (coarse cfg c k q e) := by
  induction k generalizing q e with
  | zero => exact .done _ _ rfl
  | succ k ih =>
    unfold coarse
    split_ifs with h
    · refine (Within.andThen (k := 1) (l := 1 + 2 * k) ?_ fun x e₁ _ =>
        Within.andThen (k := 1) ?_ fun y e₂ _ => ih _ e₂).mono (by omega)
      · exact (sense_within _ _ _).of_replies rfl
      · exact (sense_within _ _ _).of_replies rfl
    · exact .done _ _ rfl

theorem lowWalkUp_within (cfg : Params) (c gap : Nat) (e : Eng) :
    Within (gap * cfg.samplesNum) e (lowWalkUp cfg c gap e) := by
  induction gap generalizing e with
  | zero => exact .done _ _ rfl
  | succ gap ih =>
    rw [Nat.succ_mul, Nat.add_comm]
    refine (fill_within ..).andThen fun _ e₁ _ => ?_
    split_ifs
    · exact ih e₁
    · exact .done _ _ rfl

theorem lowWalkDown_within (cfg : Params) (c lo : Nat) (e : Eng) :
    Within (lo * cfg.samplesNum) e (lowWalkDown cfg c lo e) := by
  induction lo generalizing e with
  | zero => exact .done _ _ rfl
  | succ lo ih =>
    rw [Nat.succ_mul, Nat.add_comm]
    refine (fill_within ..).andThen fun _ e₁ _ => ?_
    split_ifs
    · exact .done _ _ rfl
    · exact ih e₁

theorem highWalkUp_within (cfg : Params) (c gap : Nat) (e : Eng) :
    Within (gap * cfg.samplesNum) e (highWalkUp cfg c gap e) := by
  induction gap generalizing e with
  | zero => exact .done _ _ rfl
  | succ gap ih =>
    rw [Nat.succ_mul, Nat.add_comm]
    refine (fill_within ..).andThen fun _ e₁ _ => ?_
    split_ifs
    · exact .done _ _ rfl
    · exact ih e₁

theorem highWalkDown_within (cfg : Params) (c hi : Nat) (e : Eng) :
    Within (hi * cfg.samplesNum) e (highWalkDown cfg c hi e) := by
  induction hi generalizing e with
  | zero => exact .done _ _ rfl
  | succ hi ih =>
    rw [Nat.succ_mul, Nat.add_comm]
    refine (fill_within ..).andThen fun _ e₁ _ => ?_
    split_ifs
    · exact ih e₁
    · exact .done _ _ rfl

theorem lowWalk_within (cfg : Params) (c : Nat) {lo : Int} (h0 : 0 ≤ lo) (h1 : lo ≤ 255) (e : Eng) :
    Within (255 * cfg.samplesNum) e (lowWalk cfg c lo e) := by
  unfold lowWalk
  split_ifs
  · exact (lowWalkUp_within ..).mono (Nat.mul_le_mul_right _ (by omega))
  · exact (lowWalkDown_within ..).mono (Nat.mul_le_mul_right _ (by omega))

theorem highWalk_within (cfg : Params) (c : Nat) {hi : Int} (h0 : 0 ≤ hi) (h1 : hi ≤ 255)
    (e : Eng) : Within (255 * cfg.samplesNum) e (highWalk cfg c hi e) := by
  unfold highWalk
  split_ifs
  · exact (highWalkDown_within ..).mono (Nat.mul_le_mul_right _ (by omega))
  · exact (highWalkUp_within ..).mono (Nat.mul_le_mul_right _ (by omega))

theorem fineAdjust_within (cfg : Params) (c : Nat) {q : Search} (h0 : 0 ≤ q.lo) (h1 : q.lo ≤ 255)
    (h2 : 0 ≤ q.hi) (h3 : q.hi ≤ 255) (e : Eng) :
    Within (512 * cfg.samplesNum) e (fineAdjust cfg c q e) := by
  refine (Within.andThen (fill_within ..) fun _ _ _ => Within.andThen (fill_within ..) fun _ _ _ =>
    Within.andThen (lowWalk_within cfg c h0 h1 _) fun _ _ _ =>
    Within.andThen (highWalk_within cfg c h2 h3 _) fun _ _ _ => Within.done 0 _ rfl).mono ?_
  omega

end Sys2Proof.Machine
end

