-- ==== Sys2Proof/Laws/Flags.lean ====
section
/-! SUPPORT. What the two rules of a tick keep, and the bits of the report word (42_engine.md R163 to
R171). -/

namespace Sys2Proof.Machine

theorem satInc32_eq (v : Word) : satInc32 v = BitVec.ofNat 32 (min (v.toNat + 1) (2 ^ 32 - 1)) := by
  apply BitVec.eq_of_toNat_eq
  rw [satInc32_toNat, BitVec.toNat_ofNat, Nat.mod_eq_of_lt (by omega)]

/-- What the rules of a tick never write. -/
structure SameBuffersAndThresholds (ch ch' : Channel) : Prop where
  lowBuffer : ch'.lowBuffer = ch.lowBuffer
  highBuffer : ch'.highBuffer = ch.highBuffer
  lowThreshold : ch'.lowThreshold = ch.lowThreshold
  highThreshold : ch'.highThreshold = ch.highThreshold

theorem lowRule_keeps (cfg : Params) (s : Nat) (ch : Channel) :
    SameBuffersAndThresholds ch (lowRule cfg s ch) := by
  unfold lowRule strongRelease grayBand steadyBand
  dsimp only
  split_ifs <;> exact ⟨rfl, rfl, rfl, rfl⟩

theorem highRule_keeps (cfg : Params) (h : Nat) (ch : Channel) :
    SameBuffersAndThresholds ch (highRule cfg h ch) := by
  unfold highRule strongPress grayBand steadyBand
  dsimp only
  split_ifs <;> exact ⟨rfl, rfl, rfl, rfl⟩

theorem decideChannel_keeps (cfg : Params) (ch : Channel) :
    SameBuffersAndThresholds ch (decideChannel cfg ch) := by
  have h1 := lowRule_keeps cfg ch.lowBuffer.sum.toNat ch
  have h2 := highRule_keeps cfg ch.highBuffer.sum.toNat
    (lowRule cfg ch.lowBuffer.sum.toNat ch)
  exact ⟨h2.1.trans h1.1, h2.2.trans h1.2, h2.3.trans h1.3, h2.4.trans h1.4⟩

theorem lowRule_flags (cfg : Params) (s : Nat) {ch ch' : Channel} (h : flagsOf ch = flagsOf ch') :
    flagsOf (lowRule cfg s ch) = flagsOf (lowRule cfg s ch') := by
  simp only [flagsOf, Prod.mk.injEq] at h
  obtain ⟨h1, h2, h3, h4⟩ := h
  unfold lowRule strongRelease grayBand steadyBand flagsOf
  simp only [h3, h4]
  split_ifs <;> simp [*]

theorem highRule_flags (cfg : Params) (k : Nat) {ch ch' : Channel} (h : flagsOf ch = flagsOf ch') :
    flagsOf (highRule cfg k ch) = flagsOf (highRule cfg k ch') := by
  simp only [flagsOf, Prod.mk.injEq] at h
  obtain ⟨h1, h2, h3, h4⟩ := h
  unfold highRule strongPress grayBand steadyBand flagsOf
  simp only [h3]
  split_ifs <;> simp [h1, h2, h4]

theorem channelAt_map (f : Channel → Channel) {chans : List Channel} {c : Nat}
    (h : c < chans.length) : channelAt (chans.map f) c = f (channelAt chans c) := by
  rw [channelAt_eq_getElem (by simpa using h), channelAt_eq_getElem h]
  simp

/-- The rules keep all channels good. -/
theorem channelsOk_decide {cfg : Params} {chans : List Channel} (h : channelsOk cfg chans) :
    channelsOk cfg (chans.map (decideChannel cfg)) := by
  refine ⟨by simpa using h.1, fun ch hch => ?_⟩
  obtain ⟨ch₀, h₀, rfl⟩ := List.mem_map.1 hch
  have hk := decideChannel_keeps cfg ch₀
  rw [channelOk, hk.lowBuffer, hk.highBuffer]
  exact h.2 ch₀ h₀

theorem pressedBits_testBit (chans : List Channel) (c : Nat) :
    (pressedBits chans).testBit c = (decide (c < chans.length) && (channelAt chans c).pressed) := by
  induction chans generalizing c with
  | nil => simp [pressedBits]
  | cons ch chans ih =>
    cases c with
    | zero => cases h : ch.pressed <;> simp [pressedBits, channelAt, Nat.testBit_zero, h]
    | succ c =>
      have h : pressedBits (ch :: chans) / 2 = pressedBits chans := by
        cases hp : ch.pressed <;> simp [pressedBits, hp]
        omega
      rw [Nat.testBit_succ, h, ih]
      simp [channelAt]

theorem pressedBits_lt (chans : List Channel) : pressedBits chans < 2 ^ chans.length := by
  induction chans with
  | nil => simp [pressedBits]
  | cons ch chans ih =>
    have : ch.pressed.toNat ≤ 1 := Bool.toNat_le _
    simp only [pressedBits, List.length_cons, pow_succ]
    omega

/-- The report word is below 2^C (10_state.md R38). -/
theorem reportWord_ok (cfg : Params) (chans : List Channel) :
    reportOk cfg (reportWord cfg chans) := by
  have h1 := pressedBits_lt (chans.take cfg.numChannels)
  have h2 : (chans.take cfg.numChannels).length ≤ cfg.numChannels := by simp
  have h3 := Nat.pow_le_pow_right (n := 2) (by omega) h2
  rw [reportOk, reportWord, BitVec.toNat_ofNat]
  exact lt_of_le_of_lt (Nat.mod_le _ _) (by omega)

theorem reportWord_bit (cfg : Params) {chans : List Channel} (hl : chans.length = cfg.numChannels)
    {c : Nat} (hc : c < 32) : (reportWord cfg chans).getLsbD c =
      (decide (c < cfg.numChannels) && (channelAt chans c).pressed) := by
  rw [reportWord, BitVec.getLsbD_ofNat, pressedBits_testBit, List.take_of_length_le (by omega)]
  simp [hc, hl]

end Sys2Proof.Machine
end

