-- ==== Sys2Proof/Laws/Sequencer.lean ====
section
/-! SUPPORT. What an access, an answer and an accepted TICK or CAL do, said once. -/

namespace Sys2Proof.Machine

/-! ### Inputs -/

theorem leadingReplies_append (xs : List Bool) (rest : List Input) :
    leadingReplies (xs.map Input.reply ++ rest) = xs ++ leadingReplies rest := by
  induction xs with
  | nil => rfl
  | cons x xs ih => simp [leadingReplies, ih]

theorem afterReplies_append (xs : List Bool) (rest : List Input) :
    afterReplies (xs.map Input.reply ++ rest) = afterReplies rest := by
  induction xs with
  | nil => rfl
  | cons x xs ih => simp [afterReplies, ih]

/-- The inputs are the answers that come first and what comes after them. -/
theorem inputs_split (inputs : List Input) :
    (leadingReplies inputs).map Input.reply ++ afterReplies inputs = inputs := by
  fun_induction leadingReplies inputs with
  | case1 b rest ih => simp [afterReplies, ih]
  | case2 inputs h => cases inputs with
    | nil => rfl
    | cons x rest => cases x with
      | reply b => exact absurd rfl (h b rest)
      | _ => rfl

/-- Answers left over from those that came first, put back before what came after them. -/
theorem inputs_drop (inputs : List Input) (k : Nat) (h : k ≤ (leadingReplies inputs).length) :
    ((leadingReplies inputs).drop k).map Input.reply ++ afterReplies inputs = inputs.drop k := by
  conv_rhs => rw [← inputs_split inputs]
  rw [List.drop_append_of_le_length (by simpa using h), List.map_drop]

/-! ### One step -/

theorem core_run_succ (n : Nat) {s t : State} (h : step s = .next t) :
    Sys2Proof.core.run (n + 1) s = Sys2Proof.core.run n t := by
  have h' : Sys2Proof.core.step s = .next t := h
  simp only [Host.Core.run, h']

theorem step_write_cmd {s : State} {w : Word} {rest : List Input} (hw : configWf s.cfg = true)
    (hi : s.inputs = .write 0 4 w :: rest) : step s = onCmdWrite w { s with inputs := rest } := by
  have h0 : alignedWord (0 : Offset) 4 = true := by decide
  unfold step takeInput
  rw [if_neg (by simp [hw]), hi]
  unfold memWrite
  dsimp only
  rw [if_pos h0, if_pos rfl]

theorem step_write_other {s : State} {off : Offset} {w : Word} {rest : List Input}
    (hw : configWf s.cfg = true) (ha : off.toNat % 4 = 0) (h0 : off ≠ 0)
    (hi : s.inputs = .write off 4 w :: rest) : step s = .next { s with inputs := rest } := by
  have h : alignedWord off 4 = true := by simp [alignedWord, ha]
  unfold step takeInput
  rw [if_neg (by simp [hw]), hi]
  unfold memWrite
  dsimp only
  rw [if_pos h, if_neg h0]

theorem step_read {s : State} {off : Offset} {rest : List Input} (hw : configWf s.cfg = true)
    (ha : off.toNat % 4 = 0) (hi : s.inputs = .read off 4 :: rest) :
    step s = .next { s with
      inputs := rest
      hostReads :=
        (off, regWord { s with inputs := rest } (selectReg s.cfg off.toNat)) :: s.hostReads
      draws :=
        s.draws + (drawsWord { s with inputs := rest } (selectReg s.cfg off.toNat)).toNat } := by
  have h : alignedWord off 4 = true := by simp [alignedWord, ha]
  unfold step takeInput
  rw [if_neg (by simp [hw]), hi]
  unfold memRead
  dsimp only
  rw [if_pos h]

theorem step_reply {s : State} {b : Bool} {rest : List Input} (hw : configWf s.cfg = true)
    (hi : s.inputs = .reply b :: rest) : step s = .next (onReply s) := by
  unfold step takeInput
  rw [if_neg (by simp [hw]), hi]

/-- A write to CMD while a command is in progress (60_exceptions.md R221). -/
theorem onCmdWrite_busy {s : State} (w : Word) (hb : s.busy = true) :
    onCmdWrite w s = .next (raiseCmdError .busy s) := by
  unfold onCmdWrite
  rw [if_pos hb]

theorem onCmdWrite_illegal {s : State} {w : Word} (hb : s.busy = false)
    (hd : decodeWord w = none) : onCmdWrite w s = .next (raiseCmdError .illegal s) := by
  unfold onCmdWrite
  rw [if_neg (by simp [hb]), hd]

theorem onCmdWrite_legal {s : State} {w : Word} {i : Instr} (hb : s.busy = false)
    (hd : decodeWord w = some i) : onCmdWrite w s = exec i s := by
  unfold onCmdWrite
  rw [if_neg (by simp [hb]), hd]

/-! ### TICK and CAL -/

/-- The state an accepted TICK or CAL starts in: BUSY = 1, LAST_ERR = 0. -/
def begun (s : State) : State := { s with busy := true, lastErr := 0 }

theorem execTick_accepted {s : State} (h : accepting s) :
    exec .tick s = .next (advance ⟨.tick, engineOf s⟩ (begun s)) := by
  show accept none _ s = _
  rw [accept_none, if_neg (by simp [h.1]), if_neg (by simp [h.2])]
  rfl

theorem execCal_accepted {s : State} (h : accepting s) {ch : Nat} (hc : ch < s.cfg.numChannels) :
    exec (.cal ch) s = .next (advance ⟨.cal ch, engineOf s⟩ (begun s)) := by
  show accept (some ch) _ s = _
  rw [accept_some, if_neg (by simp [h.1]), if_neg (by simp [h.2]), if_neg (by omega)]
  rfl

/-- All that carrying a command on can do: it completes, or it waits for one more answer. -/
theorem advance_cases (p : InProgress) (s : State) :
    (∃ e, runCommand s.cfg p.cmd (receive (leadingReplies s.inputs) p).start = .done () e ∧
      advance p s = completeCommand e { s with inputs := afterReplies s.inputs }) ∨
    (∃ q e, runCommand s.cfg p.cmd (receive (leadingReplies s.inputs) p).start = .waiting q e ∧
      advance p s = suspendCommand q (receive (leadingReplies s.inputs) p) e
        { s with inputs := afterReplies s.inputs }) := by
  unfold advance
  cases h : runCommand s.cfg p.cmd (receive (leadingReplies s.inputs) p).start with
  | done u e => exact .inl ⟨e, rfl, rfl⟩
  | waiting q e => exact .inr ⟨q, e, rfl, rfl⟩

/-- A command that BUSY no longer shows has run its pseudocode to the end. -/
theorem advance_done {p : InProgress} {s : State} (h : (advance p s).busy = false) :
    ∃ e, runCommand s.cfg p.cmd (receive (leadingReplies s.inputs) p).start = .done () e ∧
      advance p s = completeCommand e { s with inputs := afterReplies s.inputs } := by
  rcases advance_cases p s with h' | ⟨q, e, _, h'⟩
  · exact h'
  · rw [h'] at h
    cases h

/-- A TICK waits only in its sensing part. -/
theorem runTick_waiting {cfg : Params} {e e' : Eng} {q : SenseReq}
    (h : runTick cfg e = .waiting q e') : tickUntilDecided cfg e = .waiting q e' := by
  rw [runTick_eq] at h
  rcases Run.andThen_eq_waiting.1 h with h | ⟨_, _, _, h⟩
  · exact h
  · cases h

/-- A TICK that ends has sensed, then decided. -/
theorem runTick_done {cfg : Params} {e e' : Eng} (h : runTick cfg e = .done () e') :
    ∃ e₁, tickUntilDecided cfg e = .done () e₁ ∧ e' = decideAndReport cfg e₁ := by
  rw [runTick_eq] at h
  obtain ⟨_, e₁, h₁, h₂⟩ := Run.andThen_eq_done.1 h
  exact ⟨e₁, h₁, by injection h₂ with _ h₂; exact h₂.symm⟩

end Sys2Proof.Machine
end

