-- ==== Sys2Proof/Laws/HostProgram.lean ====
section
/-! SUPPORT. What an access of a host does once the rest of the outside world has acted, and one turn of
WAIT, said once (30_encoding.md R90). -/

namespace Sys2Proof.Machine

/-- No host access is among the inputs. -/
abbrev NoAccess (inputs : List Input) : Prop := ∀ x ∈ inputs, isAccess x = false

theorem noAccess_replies (bs : List Bool) : NoAccess (bs.map Input.reply) := by
  intro x hx
  obtain ⟨b, _, rfl⟩ := List.mem_map.1 hx
  rfl

theorem noAccess_afterReplies {inputs : List Input} (h : NoAccess inputs) :
    NoAccess (afterReplies inputs) := fun x hx =>
  h x (by rw [← inputs_split inputs]; exact List.mem_append_right _ hx)

/-- What the steps of the rest of the outside world leave as it is. -/
structure KeepsReads (s t : State) : Prop where
  cfg : t.cfg = s.cfg
  hostReads : t.hostReads = s.hostReads
  noAccess : NoAccess t.inputs

theorem advance_keepsReads (p : InProgress) {s : State} (h : NoAccess s.inputs) :
    KeepsReads s (advance p s) := by
  rcases advance_cases p s with ⟨e, _, ha⟩ | ⟨q, e, _, ha⟩
  · rw [ha]
    refine ⟨rfl, rfl, fun x hx => ?_⟩
    rcases List.mem_append.1 hx with hx | hx
    · exact noAccess_replies _ x hx
    · exact noAccess_afterReplies h x hx
  · rw [ha]
    exact ⟨rfl, rfl, noAccess_afterReplies h⟩

/-- With no host access among the inputs a step goes on and returns no word to the host. -/
theorem step_keepsReads {s : State} (hw : configWf s.cfg = true) (h : NoAccess s.inputs) :
    ∃ t, step s = .next t ∧ KeepsReads s t := by
  unfold step takeInput
  rw [if_neg (by simp [hw])]
  cases hi : s.inputs with
  | nil => exact ⟨s, rfl, rfl, rfl, h⟩
  | cons x rest =>
    have hr : NoAccess rest := fun y hy => h y (by rw [hi]; exact List.mem_cons_of_mem _ hy)
    cases x with
    | write off size data => exact absurd (h (.write off size data) (by simp [hi])) (by simp [isAccess])
    | read off size => exact absurd (h (.read off size) (by simp [hi])) (by simp [isAccess])
    | staleReply b => exact ⟨_, rfl, rfl, rfl, hr⟩
    | reset => exact ⟨_, rfl, rfl, rfl, hr⟩
    | reply b =>
      refine ⟨_, rfl, ?_⟩
      unfold onReply
      split
      · exact advance_keepsReads _ h
      · exact ⟨rfl, rfl, by simpa [hi] using hr⟩

theorem run_keepsReads (n : Nat) {s : State} (hw : configWf s.cfg = true) (h : NoAccess s.inputs) :
    ∃ t : State, Sys2Proof.core.run n s = .next t ∧ KeepsReads s t := by
  induction n generalizing s with
  | zero => exact ⟨s, rfl, rfl, rfl, h⟩
  | succ n ih =>
    obtain ⟨u, hu, k⟩ := step_keepsReads hw h
    obtain ⟨t, ht, k'⟩ := ih (by rw [k.cfg]; exact hw) k.noAccess
    exact ⟨t, by rw [core_run_succ n hu]; exact ht, k'.cfg.trans k.cfg,
      k'.hostReads.trans k.hostReads, k'.noAccess⟩

theorem step_read_status {s : State} {rest : List Input} (hw : configWf s.cfg = true)
    (hi : s.inputs = .read 4 4 :: rest) : step s =
      .next { s with inputs := rest, hostReads := (4, statusWord s) :: s.hostReads } := by
  rw [step_read hw (by decide) hi]
  rfl

theorem statusWord_busy (s : State) : (statusWord s).getLsbD 0 = s.busy := by
  rw [statusWord, BitVec.getLsbD_append, if_pos (by decide)]
  cases s.busy <;> rfl

/-- One turn of WAIT: the rest of the outside world acts, STATUS is read, and BUSY decides whether the
loop goes on (R90). -/
theorem waitLoop_turn {s : State} {events : List Input} (world : World)
    (hw : configWf s.cfg = true) (h : NoAccess (s.inputs ++ events)) :
    ∃ u : State, KeepsReads s u ∧ takeInputs { s with inputs := s.inputs ++ events } = .next u ∧
      waitLoop (events :: world) s =
        if u.busy then
          waitLoop world { u with hostReads := (4, statusWord u) :: u.hostReads }
        else .ended { u with hostReads := (4, statusWord u) :: u.hostReads } world := by
  obtain ⟨u, hu, k⟩ := run_keepsReads (s.inputs ++ events).length
    (s := { s with inputs := s.inputs ++ events }) hw h
  have hu' : takeInputs { s with inputs := s.inputs ++ events } = .next u := hu
  have hst : hostAccess events (.read 4 4) s =
      .next { u with hostReads := (4, statusWord u) :: u.hostReads } := by
    unfold hostAccess
    rw [hu']
    exact step_read_status (by rw [k.cfg]; exact hw) rfl
  refine ⟨u, ⟨k.cfg, k.hostReads, k.noAccess⟩, hu', ?_⟩
  rw [waitLoop, hst]
  show (if waitEnds (statusWord u) then _ else _) = _
  rw [waitEnds, statusWord_busy]
  cases u.busy <;> rfl

theorem takeInputs_nil {s : State} (h : s.inputs = []) : takeInputs s = .next s := by
  rw [takeInputs, h]
  rfl

theorem accessOnce_next {events : List Input} {access : Input} {s t : State} (world : World)
    (h : hostAccess events access s = .next t) :
    accessOnce access (events :: world) s = .ended t world := by
  rw [accessOnce, h]

@[simp] theorem HostRun.andThen_ended (s : State) (world : World)
    (next : World → State → HostRun) : (HostRun.ended s world).andThen next = next world s := rfl

theorem runOps_one (op : HostOp) (world : World) (s : State) :
    runOps [op] world s = runOp op world s := by
  show (runOp op world s).andThen (runOps []) = _
  cases runOp op world s <;> rfl

/-- A turn of WAIT in which nothing else happens changes nothing but the host's record. -/
theorem waitLoop_quiet {s : State} (world : World) (hw : configWf s.cfg = true)
    (hi : s.inputs = []) :
    waitLoop ([] :: world) s =
      if s.busy then waitLoop world { s with hostReads := (4, statusWord s) :: s.hostReads }
      else .ended { s with hostReads := (4, statusWord s) :: s.hostReads } world := by
  have hs : ({ s with inputs := s.inputs ++ [] } : State) = s := by rw [List.append_nil]
  obtain ⟨u, -, ht, hl⟩ := waitLoop_turn (s := s) (events := []) world hw
    (fun x hx => by simp [hi] at hx)
  rw [hs, takeInputs_nil hi] at ht
  injection ht with ht
  rw [hl, ← ht]

end Sys2Proof.Machine
end

