-- ==== Sys2Proof/Laws/PerInstr.lean ====
section
/-! SUPPORT. Statements for each command as syntax, one lemma a constructor. -/

namespace Sys2Proof.Laws

/-- The OP number of each command (30_encoding.md R85). -/
def OpField.number : Instr → Nat
  | .nop => 0
  | .tick => 1
  | .cal _ => 2
  | .bufReset _ _ => 3
  | .bufPush _ _ _ => 4
  | .init => 5

/-- A well-formed command's word carries the command's OP number, and no bit the format reserves
(30_encoding.md R80, R81, R83). -/
def OpField.Statement (i : Instr) : Prop :=
  i.wf = true → fieldOp (encodeWord i) = OpField.number i ∧
    (encodeWord i).extractLsb' 4 4 = 0 ∧ (encodeWord i).extractLsb' 15 17 = 0

theorem OpField.nop : OpField.Statement .nop := fun _ => by decide

theorem OpField.tick : OpField.Statement .tick := fun _ => by decide

theorem OpField.cal (ch : Nat) : OpField.Statement (.cal ch) := by
  intro h
  simp only [Instr.wf, channelFits, decide_eq_true_eq] at h
  interval_cases ch <;> decide

theorem OpField.bufReset (ch : Nat) (side : Side) : OpField.Statement (.bufReset ch side) := by
  intro h
  simp only [Instr.wf, channelFits, decide_eq_true_eq] at h
  cases side <;> interval_cases ch <;> decide

theorem OpField.bufPush (ch : Nat) (side : Side) (val : Bool) :
    OpField.Statement (.bufPush ch side val) := by
  intro h
  simp only [Instr.wf, channelFits, decide_eq_true_eq] at h
  cases side <;> cases val <;> interval_cases ch <;> decide

theorem OpField.init : OpField.Statement .init := fun _ => by decide

end Sys2Proof.Laws
end

