-- ==== Sys2Proof/Laws/Registers.lean ====
section
/-! SUPPORT. Which register an offset of a channel's window selects (10_state.md R39). -/

namespace Sys2Proof.Machine

theorem selectReg_channel {cfg : Params} {c k off : Nat} {r : ChannelReg}
    (hc : c < cfg.numChannels) (hk : k < 0x20) (hr : channelRegAt k = some r)
    (h : off = 0x100 + 0x20 * c + k) : selectReg cfg off = .channel c r := by
  unfold selectReg
  have h1 : (off - 0x100) / 0x20 = c := by omega
  have h2 : (off - 0x100) % 0x20 = k := by omega
  rw [if_neg (by omega), h1, if_pos hc, h2, hr]

end Sys2Proof.Machine
end

