-- ==== Sys2Proof/Laws/Tick.lean ====
section
/-! SUPPORT. The parts of a tick: step 1 where no channel is flagged, and step 2 for a run of channels,
said once (42_engine.md R161, R162); what a whole command leaves (10_state.md R33, R38). -/

namespace Sys2Proof.Machine

/-- Step 1 does nothing where no listed channel is flagged (R161). -/
theorem calibrateFlagged_none (cfg : Params) (cs : List Nat) (e : Eng)
    (h : ∀ c ∈ cs, (channelAt e.chans c).needsCalibration = false) :
    forChannels (calibrateFlagged cfg) cs e = .done () e := by
  induction cs with
  | nil => rfl
  | cons c cs ih =>
    show (calibrateFlagged cfg c e).andThen _ = _
    rw [calibrateFlagged, if_neg (by simp [h c (by simp)])]
    exact ih fun c' h' => h c' (by simp [h'])

/-- The events of step 2 for the listed channels, the first of which is `a`, oldest first. -/
def samplingEvents (cfg : Params) (chans : List Channel) (answers : List Bool) (a : Nat)
    (cs : List Nat) : List SenseEvent :=
  cs.flatMap fun c =>
    readsAt (pinOf cfg c) (channelAt chans c).lowThreshold (fillAnswers cfg answers (2 * (c - a))) ++
    readsAt (pinOf cfg c) (channelAt chans c).highThreshold
      (fillAnswers cfg answers (2 * (c - a) + 1))

/-- All that step 2 for the channels a..a+k-1 has done between e and e' (R162). -/
structure Sampled (cfg : Params) (a k : Nat) (e e' : Eng) : Prop where
  replies : e'.replies = e.replies.drop (2 * cfg.samplesNum * k)
  log : e'.log = (samplingEvents cfg e.chans e.replies a (List.range' a k)).reverse ++ e.log
  ok : channelsOk cfg e'.chans
  report : e'.report = e.report
  temps : e'.temps = e.temps
  registers : ∀ d, ∃ lb hb,
    channelAt e'.chans d = { channelAt e.chans d with lowBuffer := lb, highBuffer := hb }
  low : ∀ c, a ≤ c → c < a + k →
    (bufferAt e'.chans c .low).sum.toNat = (fillAnswers cfg e.replies (2 * (c - a))).count true ∧
    (bufferAt e'.chans c .low).cursor = (bufferAt e.chans c .low).cursor
  high : ∀ c, a ≤ c → c < a + k →
    (bufferAt e'.chans c .high).sum.toNat =
      (fillAnswers cfg e.replies (2 * (c - a) + 1)).count true ∧
    (bufferAt e'.chans c .high).cursor = (bufferAt e.chans c .high).cursor
  below : ∀ d, d < a → channelAt e'.chans d = channelAt e.chans d

theorem sampleChannels_sampled {cfg : Params} (hw : configWf cfg = true) (k a : Nat) (e : Eng)
    (hok : channelsOk cfg e.chans) (ha : a + k ≤ cfg.numChannels)
    (hl : 2 * cfg.samplesNum * k ≤ e.replies.length) :
    ∃ e', forChannels (sampleChannel cfg) (List.range' a k) e = .done () e' ∧
      Sampled cfg a k e e' := by
  induction k generalizing a e with
  | zero =>
    exact ⟨e, rfl, by simp, by simp [samplingEvents], hok, rfl, rfl, fun d => ⟨_, _, rfl⟩,
      by omega, by omega, fun _ _ => rfl⟩
  | succ k ih =>
    have hl' : cfg.samplesNum + cfg.samplesNum + 2 * cfg.samplesNum * k ≤ e.replies.length := by
      have : 2 * cfg.samplesNum * (k + 1) =
        cfg.samplesNum + cfg.samplesNum + 2 * cfg.samplesNum * k := by ring
      omega
    obtain ⟨u, e₁, h₁⟩ := (fill_within cfg a .low (channelAt e.chans a).lowThreshold e).completes
      (by omega)
    have F₁ := fill_filled hw hok (by omega) h₁
    have hr₁ : e₁.replies.length = e.replies.length - cfg.samplesNum := by simp [F₁.replies]
    obtain ⟨v, e₂, h₂⟩ :=
      (fill_within cfg a .high (channelAt e₁.chans a).highThreshold e₁).completes (by omega)
    have F₂ := fill_filled hw F₁.ok (by omega) h₂
    have hr₂ : e₂.replies.length = e₁.replies.length - cfg.samplesNum := by simp [F₂.replies]
    obtain ⟨e', h', S⟩ := ih (a + 1) e₂ F₂.ok (by omega) (by omega)
    have hthr : (channelAt e₁.chans a).highThreshold = (channelAt e.chans a).highThreshold := by
      obtain ⟨lb, hb, h⟩ := F₁.registers a
      rw [h]
    have hreg : ∀ d, ∃ lb hb,
        channelAt e₂.chans d = { channelAt e.chans d with lowBuffer := lb, highBuffer := hb } := by
      intro d
      obtain ⟨lb, hb, h⟩ := F₁.registers d
      obtain ⟨lb', hb', h'⟩ := F₂.registers d
      exact ⟨lb', hb', by rw [h', h]⟩
    have hfa : ∀ j, fillAnswers cfg e₂.replies j = fillAnswers cfg e.replies (j + 2) := fun j => by
      rw [F₂.replies, F₁.replies, fillAnswers_drop, fillAnswers_drop]
    have hsame : channelAt e'.chans a = channelAt e₂.chans a := S.below a (by omega)
    have hother : ∀ c side, a < c → bufferAt e₂.chans c side = bufferAt e.chans c side :=
      fun c side hc => by
        rw [bufferAt, F₂.other c (by omega), F₁.other c (by omega), bufferAt]
    refine ⟨e', ?_, ?_, ?_, S.ok, ?_, ?_, ?_, ?_, ?_, ?_⟩
    · rw [List.range'_succ]
      show (sampleChannel cfg a e).andThen _ = _
      rw [sampleChannel, h₁, Run.andThen_done, h₂, Run.andThen_done]
      exact h'
    · rw [S.replies, F₂.replies, F₁.replies, List.drop_drop, List.drop_drop]
      congr 1
      ring
    · rw [S.log, F₂.log, F₁.log, samplingEvents, samplingEvents, List.range'_succ,
        List.flatMap_cons]
      simp only [List.reverse_append, List.append_assoc, Nat.sub_self, Nat.mul_zero, Nat.zero_add]
      rw [fillAnswers_zero, ← fillAnswers_drop, fillAnswers_zero, hthr, F₁.replies]
      congr 1
      apply congrArg
      apply List.flatMap_congr
      intro c hc
      rw [List.mem_range'_1] at hc
      obtain ⟨lb, hb, h⟩ := hreg c
      rw [h, hfa, hfa, show 2 * (c - (a + 1)) + 2 = 2 * (c - a) by omega,
        show 2 * (c - (a + 1)) + 1 + 2 = 2 * (c - a) + 1 by omega]
    · rw [S.report, F₂.report, F₁.report]
    · rw [S.temps, F₂.temps, F₁.temps]
    · intro d
      obtain ⟨lb, hb, h⟩ := S.registers d
      obtain ⟨lb', hb', h'⟩ := hreg d
      exact ⟨lb, hb, by rw [h, h']⟩
    · intro c hc hc'
      rcases Nat.eq_or_lt_of_le hc with rfl | hlt
      · have hb : bufferAt e'.chans a .low = bufferAt e₁.chans a .low := by
          rw [← F₂.otherSide .low (by decide), bufferAt, hsame, bufferAt]
        rw [hb, Nat.sub_self, Nat.mul_zero, fillAnswers_zero]
        exact ⟨F₁.sum, F₁.cursor⟩
      · obtain ⟨s₁, s₂⟩ := S.low c (by omega) (by omega)
        rw [hfa, show 2 * (c - (a + 1)) + 2 = 2 * (c - a) by omega] at s₁
        rw [hother c _ hlt] at s₂
        exact ⟨s₁, s₂⟩
    · intro c hc hc'
      rcases Nat.eq_or_lt_of_le hc with rfl | hlt
      · have hb : bufferAt e'.chans a .high = bufferAt e₂.chans a .high := by
          rw [bufferAt, hsame, bufferAt]
        rw [hb, Nat.sub_self, Nat.mul_zero, ← fillAnswers_drop, fillAnswers_zero, ← F₁.replies]
        refine ⟨F₂.sum, F₂.cursor.trans ?_⟩
        rw [F₁.otherSide .high (by decide)]
      · obtain ⟨s₁, s₂⟩ := S.high c (by omega) (by omega)
        rw [hfa, show 2 * (c - (a + 1)) + 1 + 2 = 2 * (c - a) + 1 by omega] at s₁
        rw [hother c _ hlt] at s₂
        exact ⟨s₁, s₂⟩
    · intro d hd
      rw [S.below d (by omega), F₂.other d (by omega), F₁.other d (by omega)]

/-! ### What a command leaves -/

theorem readsInto_temps (cfg : Params) (c : Nat) (side : Side) (t : Byte) (k : Nat) (e : Eng) :
    (readsInto cfg c side t k e).eng.temps = e.temps := by
  induction k generalizing e with
  | zero => rfl
  | succ k ih =>
    rcases sense_cases (pinOf cfg c) t e with ⟨_, hs⟩ | ⟨b, rest, _, hs⟩
    · simp [readsInto, hs]
    · rw [readsInto, hs, Run.andThen_done, ih]
      rfl

theorem fill_temps {cfg : Params} {c : Nat} {side : Side} {t : Byte} {e e' : Eng} {u : Unit}
    (h : fill cfg c side t e = .done u e') : e'.temps = e.temps := by
  have := readsInto_temps cfg c side t cfg.samplesNum e
  rw [fill] at h
  rw [h] at this
  exact this

/-- A calibration that completed leaves no temporaries (10_state.md R33). -/
theorem recalibrate_temps {cfg : Params} {c : Nat} {e e' : Eng} {u : Unit}
    (h : recalibrate cfg c e = .done u e') : e'.temps = none := by
  obtain ⟨q, e₁, _, h⟩ := Run.andThen_eq_done.1 (show (coarse _ _ _ _ _).andThen _ = _ from h)
  obtain ⟨r, e₂, _, h⟩ := Run.andThen_eq_done.1 h
  injection h with _ h
  subst h
  rfl

theorem forChannels_temps {body : Nat → Eng → Run Unit}
    (hb : ∀ c e e' u, body c e = .done u e' → e.temps = none → e'.temps = none) (cs : List Nat)
    {e e' : Eng} {u : Unit} (h : forChannels body cs e = .done u e') (ht : e.temps = none) :
    e'.temps = none := by
  induction cs generalizing e with
  | nil => cases h; exact ht
  | cons c cs ih =>
    obtain ⟨_, e₁, h₁, h₂⟩ := Run.andThen_eq_done.1 (show (body c e).andThen _ = _ from h)
    exact ih h₂ (hb _ _ _ _ h₁ ht)

/-- A command that completed leaves no temporaries (10_state.md R33). -/
theorem runCommand_temps {cfg : Params} {cmd : EngineCmd} {e e' : Eng}
    (h : runCommand cfg cmd e = .done () e') (ht : e.temps = none) : e'.temps = none := by
  cases cmd with
  | cal ch =>
    obtain ⟨_, e₁, _, h₂⟩ := Run.andThen_eq_done.1 (show (discharge e).andThen _ = _ from h)
    exact recalibrate_temps h₂
  | tick =>
    obtain ⟨_, e₁, h₁, h₂⟩ := Run.andThen_eq_done.1 (show (discharge e).andThen _ = _ from h)
    obtain ⟨_, e₂, h₃, h₄⟩ := Run.andThen_eq_done.1 h₂
    obtain ⟨_, e₃, h₅, h₆⟩ := Run.andThen_eq_done.1 h₄
    injection h₆ with _ h₆
    subst h₆
    have t₁ : e₁.temps = none := by
      rcases discharge_cases e with ⟨_, hs⟩ | ⟨_, _, _, hs⟩ <;> rw [hs] at h₁ <;> cases h₁
      exact ht
    have t₂ : e₂.temps = none := by
      refine forChannels_temps (fun c e e' u h ht => ?_) _ h₃ t₁
      rw [calibrateFlagged] at h
      split_ifs at h
      · exact recalibrate_temps h
      · cases h; exact ht
    show e₃.temps = none
    refine forChannels_temps (fun c e e' u h ht => ?_) _ h₅ t₂
    obtain ⟨_, e₁, g₁, g₂⟩ := Run.andThen_eq_done.1 (show (fill _ _ _ _ _).andThen _ = _ from h)
    rw [fill_temps g₂, fill_temps g₁, ht]

/-- A command keeps the channels good and REPORT's upper bits 0, at every point of its pseudocode. -/
theorem runCommand_ok {cfg : Params} {cmd : EngineCmd} {e : Eng} (hw : configWf cfg = true)
    (h : channelsOk cfg e.chans) (hr : reportOk cfg e.report) :
    channelsOk cfg (runCommand cfg cmd e).eng.chans ∧
      reportOk cfg (runCommand cfg cmd e).eng.report := by
  cases cmd with
  | cal ch =>
    refine ⟨(runCal_prog cfg).keeps (channelsOk cfg) (fun F hF l hl => channelChange_ok hw hF hl) e
      h, ?_⟩
    show reportOk cfg (runCal cfg ch e).eng.report
    rw [((runCal_prog cfg (ch := ch)).uses e).report]
    exact hr
  | tick =>
    have k₁ := (tickUntilDecided_prog cfg).keeps (channelsOk cfg)
      (fun F ⟨_, _, hF⟩ l hl => channelChange_ok hw hF hl) e h
    have k₂ := ((tickUntilDecided_prog cfg).uses e).report
    show channelsOk cfg (runTick cfg e).eng.chans ∧ reportOk cfg (runTick cfg e).eng.report
    rw [runTick_eq]
    show channelsOk cfg ((tickUntilDecided cfg e).andThen _).eng.chans ∧
      reportOk cfg ((tickUntilDecided cfg e).andThen _).eng.report
    cases hd : tickUntilDecided cfg e with
    | waiting q e₁ =>
      rw [hd] at k₁ k₂
      exact ⟨k₁, by rw [Run.andThen_waiting, k₂]; exact hr⟩
    | done u e₁ =>
      rw [hd] at k₁
      exact ⟨channelsOk_decide k₁, reportWord_ok cfg _⟩

end Sys2Proof.Machine
end

