-- ==== Sys2Proof/Laws/TickFlags.lean ====
section
/-! SUPPORT. What the sensing part of a TICK leaves in the flags and counters that its rules start from
(42_engine.md R161, R162). -/

namespace Sys2Proof.Machine

variable {cfg : Params}

/-- Step 1 for channel c leaves the flags of `afterStepOne` (R161). -/
theorem calibrateFlagged_flags {c : Nat} {e e' : Eng} {u : Unit} (hc : c < e.chans.length)
    (h : calibrateFlagged cfg c e = .done u e') :
    flagsOf (channelAt e'.chans c) = flagsOf (afterStepOne (channelAt e.chans c)) := by
  unfold calibrateFlagged at h
  unfold afterStepOne
  split_ifs at h with hf
  · rw [if_pos hf]
    have hkeep := (calibrate_prog cfg c).keeps
      (fun l => c < l.length ∧ (channelAt l c).pressed = (channelAt e.chans c).pressed ∧
        (channelAt l c).debounceTicks = (channelAt e.chans c).debounceTicks ∧
        (channelAt l c).grayZoneTicks = 0)
      (fun F hF l ⟨hl, hk⟩ => by
        cases hF with
        | push side x =>
          refine ⟨by simpa using hl, ?_⟩
          simp only [updateBuffer, channelAt_updateChannel hl]
          cases side <;> exact hk
        | clearGray =>
          refine ⟨by simpa using hl, ?_⟩
          simp only [channelAt_updateChannel hl]
          exact ⟨hk.1, hk.2.1, trivial⟩
        | setThresholds lo hi =>
          refine ⟨by simpa using hl, ?_⟩
          simp only [channelAt_updateChannel hl]
          exact hk)
      { e with chans := updateChannel e.chans c fun ch => { ch with grayZoneTicks := 0 } }
      ⟨by simpa using hc, by simp [channelAt_updateChannel hc]⟩
    have hd : calibrate cfg c _ = .done u e' := h
    rw [hd] at hkeep
    obtain ⟨hl, hp, hdeb, hg⟩ := hkeep
    obtain ⟨q, e₁, _, h⟩ := Run.andThen_eq_done.1 (show (coarse _ _ _ _ _).andThen _ = _ from hd)
    obtain ⟨r, e₂, _, h⟩ := Run.andThen_eq_done.1 h
    injection h with _ h
    subst h
    have hl₂ : c < e₂.chans.length := by simpa [finishCalibration] using hl
    have hn : (channelAt (finishCalibration cfg c r.1 r.2 e₂).chans c).needsCalibration = false := by
      simp only [finishCalibration, channelAt_updateChannel hl₂]
    simp only [Run.eng_done] at hp hdeb hg
    simp only [flagsOf, hp, hdeb, hg, hn]
  · cases h
    rw [if_neg hf]

theorem calibrateFlagged_other {c d : Nat} {e e' : Eng} {u : Unit} (hd : d ≠ c)
    (h : calibrateFlagged cfg c e = .done u e') : channelAt e'.chans d = channelAt e.chans d := by
  have hk := (calibrateFlagged_prog cfg c).keeps (fun l => channelAt l d = channelAt e.chans d)
    (fun F hF l hl => (channelChange_other hd hF l).trans hl) e rfl
  rw [h] at hk
  exact hk

theorem calibrateFlagged_ok (hw : configWf cfg = true) {c : Nat} {e e' : Eng} {u : Unit}
    (hok : channelsOk cfg e.chans) (h : calibrateFlagged cfg c e = .done u e') :
    channelsOk cfg e'.chans := by
  have hk := (calibrateFlagged_prog cfg c).keeps (channelsOk cfg)
    (fun F hF l hl => channelChange_ok hw hF hl) e hok
  rw [h] at hk
  exact hk

/-- Step 1 over a list of channels: the listed ones as `calibrateFlagged_flags` says, no other changed. -/
theorem calibrateAll_flags (hw : configWf cfg = true) (cs : List Nat) {e e' : Eng} {u : Unit}
    (hok : channelsOk cfg e.chans) (hn : cs.Nodup) (hlt : ∀ c ∈ cs, c < cfg.numChannels)
    (h : forChannels (calibrateFlagged cfg) cs e = .done u e') :
    channelsOk cfg e'.chans ∧ (∀ d, d ∉ cs → channelAt e'.chans d = channelAt e.chans d) ∧
      ∀ c ∈ cs, flagsOf (channelAt e'.chans c) = flagsOf (afterStepOne (channelAt e.chans c)) := by
  induction cs generalizing e with
  | nil => cases h; exact ⟨hok, fun _ _ => rfl, by simp⟩
  | cons c cs ih =>
    obtain ⟨_, e₁, h₁, h₂⟩ := Run.andThen_eq_done.1
      (show (calibrateFlagged cfg c e).andThen _ = _ from h)
    rw [List.nodup_cons] at hn
    obtain ⟨k, ko, kf⟩ := ih (calibrateFlagged_ok hw hok h₁) hn.2
      (fun d hd => hlt d (by simp [hd])) h₂
    refine ⟨k, fun d hd => ?_, fun d hd => ?_⟩
    · simp only [List.mem_cons, not_or] at hd
      rw [ko d hd.2, calibrateFlagged_other hd.1 h₁]
    · rcases List.mem_cons.1 hd with rfl | hd
      · rw [ko d hn.1]
        exact calibrateFlagged_flags (by have := hok.1; have := hlt d (by simp); omega) h₁
      · rw [kf d hd, calibrateFlagged_other (ne_of_mem_of_not_mem hd hn.1) h₁]

/-- Step 2 changes no channel's flags or counters (R162). -/
theorem sampleAll_flags (hw : configWf cfg = true) (cs : List Nat) {e e' : Eng} {u : Unit}
    (hok : channelsOk cfg e.chans) (hlt : ∀ c ∈ cs, c < cfg.numChannels)
    (h : forChannels (sampleChannel cfg) cs e = .done u e') :
    channelsOk cfg e'.chans ∧
      ∀ d, flagsOf (channelAt e'.chans d) = flagsOf (channelAt e.chans d) := by
  induction cs generalizing e with
  | nil => cases h; exact ⟨hok, fun _ => rfl⟩
  | cons c cs ih =>
    obtain ⟨_, e₂, h₂, h₃⟩ := Run.andThen_eq_done.1
      (show (sampleChannel cfg c e).andThen _ = _ from h)
    obtain ⟨_, e₁, h₁, h₂⟩ := Run.andThen_eq_done.1 (show (fill _ _ _ _ _).andThen _ = _ from h₂)
    have hc := hlt c (by simp)
    have F₁ := fill_filled hw hok hc h₁
    have F₂ := fill_filled hw F₁.ok hc h₂
    obtain ⟨k, kf⟩ := ih F₂.ok (fun d hd => hlt d (by simp [hd])) h₃
    refine ⟨k, fun d => ?_⟩
    obtain ⟨lb, hb, h'⟩ := F₁.registers d
    obtain ⟨lb', hb', h''⟩ := F₂.registers d
    rw [kf d, h'', h']
    rfl

/-- Steps 1 and 2 of a TICK leave the flags and counters of `afterStepOne` in every channel. -/
theorem tickSensing_flags (hw : configWf cfg = true) {e e' : Eng} {u : Unit}
    (hok : channelsOk cfg e.chans) (h : tickSensing cfg e = .done u e') :
    channelsOk cfg e'.chans ∧ ∀ c < cfg.numChannels,
      flagsOf (channelAt e'.chans c) = flagsOf (afterStepOne (channelAt e.chans c)) := by
  obtain ⟨_, e₁, h₁, h₂⟩ := Run.andThen_eq_done.1 (show (forChannels _ _ _).andThen _ = _ from h)
  obtain ⟨k₁, -, kf₁⟩ := calibrateAll_flags hw _ hok List.nodup_range
    (fun c hc => List.mem_range.1 hc) h₁
  obtain ⟨k₂, kf₂⟩ := sampleAll_flags hw _ k₁ (fun c hc => List.mem_range.1 hc) h₂
  exact ⟨k₂, fun c hc => (kf₂ c).trans (kf₁ c (List.mem_range.2 hc))⟩

end Sys2Proof.Machine
end

