-- ==== Sys2Proof/Laws/Walks.lean ====
section
/-! SUPPORT. What the low walk keeps (41_calibrator.md R131, R132): the high side is chosen from its own
initial fill, which the low walk does not touch (R129). -/

namespace Sys2Proof.Machine

variable {cfg : Params} {c : Nat}

/-- The channels stay good and the high buffer is as it was. -/
abbrev KeepsHigh (cfg : Params) (c : Nat) (e e' : Eng) : Prop :=
  channelsOk cfg e'.chans ∧ bufferAt e'.chans c .high = bufferAt e.chans c .high

theorem Filled.keepsHigh {t : Byte} {e e' : Eng} (h : Filled cfg c .low t e e') :
    KeepsHigh cfg c e e' :=
  ⟨h.ok, h.otherSide .high (by decide)⟩

theorem KeepsHigh.trans {e e' e'' : Eng} (h : KeepsHigh cfg c e e') (h' : KeepsHigh cfg c e' e'') :
    KeepsHigh cfg c e e'' :=
  ⟨h'.1, h'.2.trans h.2⟩

theorem lowWalkUp_keepsHigh (hw : configWf cfg = true) (hc : c < cfg.numChannels) (gap : Nat)
    {e e' : Eng} {r : Int} (hok : channelsOk cfg e.chans)
    (h : lowWalkUp cfg c gap e = .done r e') : KeepsHigh cfg c e e' := by
  induction gap generalizing e with
  | zero => cases h; exact ⟨hok, rfl⟩
  | succ gap ih =>
    obtain ⟨_, e₁, h₁, h₂⟩ := Run.andThen_eq_done.1 (show (fill _ _ _ _ _).andThen _ = _ from h)
    have F := fill_filled hw hok hc h₁
    split at h₂
    · exact F.keepsHigh.trans (ih F.ok h₂)
    · injection h₂ with _ h₂
      subst h₂
      exact F.keepsHigh

theorem lowWalkDown_keepsHigh (hw : configWf cfg = true) (hc : c < cfg.numChannels) (lo : Nat)
    {e e' : Eng} {r : Int} (hok : channelsOk cfg e.chans)
    (h : lowWalkDown cfg c lo e = .done r e') : KeepsHigh cfg c e e' := by
  induction lo generalizing e with
  | zero => cases h; exact ⟨hok, rfl⟩
  | succ lo ih =>
    obtain ⟨_, e₁, h₁, h₂⟩ := Run.andThen_eq_done.1 (show (fill _ _ _ _ _).andThen _ = _ from h)
    have F := fill_filled hw hok hc h₁
    split at h₂
    · injection h₂ with _ h₂
      subst h₂
      exact F.keepsHigh
    · exact F.keepsHigh.trans (ih F.ok h₂)

theorem lowWalk_keepsHigh (hw : configWf cfg = true) (hc : c < cfg.numChannels) {e e' : Eng}
    {lo r : Int} (hok : channelsOk cfg e.chans) (h : lowWalk cfg c lo e = .done r e') :
    KeepsHigh cfg c e e' := by
  unfold lowWalk at h
  split_ifs at h
  · exact lowWalkUp_keepsHigh hw hc _ hok h
  · exact lowWalkDown_keepsHigh hw hc _ hok h

end Sys2Proof.Machine
end

