-- ==== Sys2Proof/Tests/Slice0.lean ====
section
/-! SUPPORT. Tests, their expected results from 95_test_vectors.md and the rules, and for each statement
with hypotheses a concrete state that meets them. -/

namespace Sys2Proof.Tests

open Sys2Proof.Machine

/-- Two channels on pins 0x10 and 0x11, N samples, the other numbers of CFG-A. -/
def cfgOf (n mps : Nat) : Params := ⟨2, [0x10, 0x11], n, 90, 10, 1, 1, 2, 10, mps⟩

/-- That configuration after reset, with inputs to come. -/
def stateOf (n mps : Nat) (inputs : List Input) : State :=
  { State.resetOf (cfgOf n mps) with inputs := inputs }

/-- No channel flagged, thresholds 99 and 102. -/
def calibrated (n : Nat) : Channel :=
  { Channel.initial n with needsCalibration := false, lowThreshold := 99, highThreshold := 102 }

/-- Both channels so, with answers to come. -/
def steadyState (answers : List Bool) : State :=
  { stateOf 1 0 (answers.map Input.reply) with chans := [calibrated 1, calibrated 1] }

/-- A step or a meaning went on. -/
def wentOn (o : Host.Outcome State Fault Refusal) : Bool :=
  match o with
  | .next _ => true
  | _ => false

/-- The next state, or `s` where there is none. -/
def nextOr (s : State) (o : Host.Outcome State Fault Refusal) : State :=
  match o with
  | .next t => t
  | _ => s

/-- The state a command leaves. -/
def after (i : Instr) (s : State) : State := nextOr s (exec i s)

/-- The state a step leaves. -/
def stepped (s : State) : State := nextOr s (step s)

theorem next_of_wentOn {o : Host.Outcome State Fault Refusal} (s : State) (h : wentOn o = true) :
    o = .next (nextOr s o) := by
  cases o <;> first | rfl | cases h

/-! ### Well-formedness -/

/-- R80: CH is 5 bits; each command with an operand refuses 32. -/
theorem test_wf_refuses_channel_32 : (Instr.cal 32).wf = false ∧
    (Instr.bufReset 32 .low).wf = false ∧ (Instr.bufPush 32 .high true).wf = false ∧
    channelFits 32 = false ∧ (Instr.cal 31).wf = true := by decide

/-- R6, R8: one number out of its range makes a configuration ill-formed. -/
theorem test_configWf_refuses : configWf (cfgOf 1 8) = true ∧
    [ { cfgOf 1 8 with numChannels := 0, pinIds := [] },
      { cfgOf 1 8 with numChannels := 33, pinIds := List.replicate 33 0 },
      { cfgOf 1 8 with pinIds := [0x10] }, cfgOf 0 8, cfgOf 256 8,
      { cfgOf 1 8 with lowFractionPct := 101 }, { cfgOf 1 8 with highFractionPct := 101 },
      { cfgOf 1 8 with pressMargin := 6 }, { cfgOf 1 8 with releaseMargin := 6 },
      { cfgOf 1 8 with hysteresis := 2 ^ 32 }, { cfgOf 1 8 with maxTimeInGrayzone := 2 ^ 32 },
      cfgOf 1 256 ].all (fun cfg => configWf cfg == false) = true := by decide +kernel

/-! ### Decoding: words written out from R80 to R85 -/

theorem test_decode_nop : decodeTableWord 32 0b00000000000000000000000000000000 = some .nop := by
  decide

theorem test_decode_tick : decodeTableWord 32 0b00000000000000000000000000000001 = some .tick := by
  decide

theorem test_decode_cal : decodeTableWord 32 0b00000000000000000001001000000010 =
    some (.cal 18) := by decide

theorem test_decode_bufReset : decodeTableWord 32 0b00000000000000000010110100000011 =
    some (.bufReset 13 .high) := by decide

theorem test_decode_bufPush : decodeTableWord 32 0b00000000000000000100000100000100 =
    some (.bufPush 1 .low true) := by decide

theorem test_decode_init : decodeTableWord 32 0b00000000000000000000000000000101 = some .init := by
  decide

/-- V-ENC-7 to V-ENC-13, V-ENC-15 to V-ENC-17: ILLEGAL words. -/
theorem test_decode_illegal :
    [0x00004003, 0x00002002, 0x00008004, 0x80000001, 0x0000000F, 0x00000010, 0x00001F12, 0x00000105,
      0x00004000, 0x00000006].all (fun w => decodeTableWord 32 w == none) = true := by decide

/-- R62: the byte at the lowest address holds bits [7:0]; R86: OP 6 is refused by name. -/
theorem test_decode_bytes : decode [0x02, 0x03, 0x00, 0x00] = .ok (.cal 3, []) ∧
    decode [0x06, 0x00, 0x00, 0x00] = .error .reservedOp ∧
    decode [0x12, 0x00, 0x00, 0x00] = .error .reservedBit ∧
    decode [0x02, 0x03, 0x00] = .error .truncated := ⟨rfl, rfl, rfl, rfl⟩

/-! ### Reset, registers and acceptance -/

/-- V-RST-1. -/
theorem test_reset_registers :
    [(0x000, 0x00000000), (0x004, 0x00000000), (0x008, 0x00000000), (0x00C, 0x11080220),
      (0x010, 0x00000A5A), (0x014, 0x00000002), (0x018, 0x0000000A), (0x100, 0x1002C040),
      (0x120, 0x1102C040), (0x104, 0), (0x108, 0), (0x10C, 0), (0x110, 0), (0x140, 0),
      (0x01C, 0)].all (fun (off, w) =>
        (regWord (stateOf 32 8 []) (selectReg (cfgOf 32 8) off)).toNat == w) = true := by
  decide +kernel

/-- R201: NOP after a rejected write clears the code. -/
theorem test_nop : (after .nop { stateOf 1 0 [] with lastErr := 2 }).lastErr = 0 := by decide

/-- R203: INIT after a press. -/
theorem test_init : (after .init { stateOf 1 0 [] with
      chans := [{ calibrated 1 with pressed := true }, calibrated 1], report := 1 }).chans =
    initialChannels (cfgOf 1 0) := by decide

/-- V-CAL-11. -/
theorem test_cal_errors : (stepped ((stateOf 1 0 []).withFetchWord 32 0x202)).lastErr = 3 ∧
    (stepped ((stateOf 1 0 []).withFetchWord 32 0x2002)).lastErr = 2 := by decide

/-- V-ERR-1: an INIT while a TICK waits; STATUS reads 0x11. -/
theorem test_busy_rejects :
    statusWord (stepped ((after .tick (stateOf 1 0 [])).withFetchWord 32 5)) = 0x11 := by decide

/-! ### Buffers -/

/-- V-BUF-2. -/
theorem test_bufPush_sets_slot : pushBuffer 4 true ⟨[true, false, false, false], 1, 1⟩ =
    ⟨[true, true, false, false], 2, 2⟩ := by decide

/-- V-BUF-4, as the command BUF_PUSH 0, L, 0 of P3. -/
theorem test_bufPush_evicts : (after (.bufPush 0 .low false) { stateOf 4 0 [] with
      chans := [{ calibrated 4 with lowBuffer := ⟨[true, true, false, true], 0, 3⟩ },
        calibrated 4] }).chans =
    [{ calibrated 4 with lowBuffer := ⟨[false, true, false, true], 1, 2⟩ }, calibrated 4] := by
  decide

/-- V-BUF-5. -/
theorem test_bufReset : (after (.bufReset 0 .low) { stateOf 4 0 [] with
      chans := [{ calibrated 4 with lowBuffer := ⟨[true, true, false, true], 2, 3⟩ },
        calibrated 4] }).chans = [calibrated 4, calibrated 4] := by decide

/-! ### Configuration and calibration -/

/-- V-K-1, the columns LF 90 / HF 10 and LF 0 / HF 100. -/
theorem test_decision_constants :
    [(1, 0, 0, 1, 1), (10, 1, 9, 1, 9), (32, 3, 28, 4, 29), (255, 25, 229, 26, 230)].all
      (fun (n, a, b, c, d) => (kRel (cfgOf n 8), kLow (cfgOf n 8), kHigh (cfgOf n 8),
        kPress (cfgOf n 8)) == (a, b, c, d)) = true ∧
    kLow { cfgOf 255 8 with lowFractionPct := 0 } = 0 ∧
    kHigh { cfgOf 255 8 with highFractionPct := 100 } = 255 := by decide +kernel

/-- V-SRC-4. -/
theorem test_crossOver : crossOver ⟨101, 100, 0, 255⟩ = ⟨0, 1, 0, 255⟩ ∧
    crossOver ⟨100, 100, 0, 255⟩ = ⟨0, 1, 0, 255⟩ ∧
    crossOver ⟨150, 50, 0, 255⟩ = ⟨49, 51, 0, 255⟩ := by decide

/-- The answers of V-CAL-7: the acknowledgement, the coarse search of V-CAL-1, then five fills. -/
def calAnswers : List Bool :=
  [false] ++
  [true, false, false, false, true, false, false, false, false, false, true, false, false, false,
    false, false] ++
  [true, false, false, false, true]

/-- A CAL about to run on those answers. -/
def calState : State := stateOf 1 8 (calAnswers.map Input.reply)

/-- V-CAL-7: thresholds (99, 102) after 21 READs. -/
theorem test_cal : (chThrWord 0x10 (channelAt (after (.cal 0) calState).chans 0)) = 0x10006663 ∧
    (after (.cal 0) calState).senseLog.length = 22 ∧
    (after (.cal 0) calState).inputs = [] := by decide +kernel

/-- The answers of a CAL without a coarse search whose walks cross: the low one climbs from 64 by 70,
the high one falls from 192 by 70. -/
def crossingAnswers : List Bool :=
  [false, true, false] ++ List.replicate 70 true ++ [false] ++ List.replicate 70 false ++ [true]

/-- R142, third bullet: the thresholds may end crossed, here 133 above 123. -/
theorem test_thresholds_can_cross :
    let t := after (.cal 0) (stateOf 1 0 (crossingAnswers.map Input.reply))
    t.busy = false ∧ (channelAt t.chans 0).lowThreshold = 133 ∧
      (channelAt t.chans 0).highThreshold = 123 := by decide +kernel

/-! ### The tick -/

/-- A channel's flags and counters after the two rules, N = 10 as in CFG-B. -/
def decided (s h : Nat) (p nc : Bool) (gray deb : Nat) : Bool × Bool × Word × Word :=
  let cfg := { cfgOf 10 8 with maxTimeInGrayzone := 3 }
  flagsOf (highRule cfg h (lowRule cfg s
    { Channel.initial 10 with
      pressed := p, needsCalibration := nc, grayZoneTicks := BitVec.ofNat 32 gray,
      debounceTicks := BitVec.ofNat 32 deb }))

/-- V-ENG-2, 4, 6, 7, 9, 12, 13. -/
theorem test_bands : decided 1 0 true false 0 2 = (false, true, 0, 0) ∧
    decided 1 5 true false 1 2 = (false, true, 1, 0) ∧
    decided 9 0 true false 2 1 = (false, true, 0, 1) ∧
    decided 5 5 true false 1 0 = (false, true, 3, 0) ∧
    decided 10 8 true false 2 1 = (true, false, 1, 1) ∧
    decided 0 10 false false 0 2 = (true, true, 0, 0) ∧
    decided 5 9 false false 2 0 = (true, true, 0, 0) := by decide +kernel

/-- R162, R168, R171: channel 1 touched at both thresholds, channel 0 at its low one only. -/
theorem test_tick : (after .tick (steadyState [false, true, false, true, true])).report = 2 ∧
    (after .tick (steadyState [false, true, false, true, true])).senseLog.reverse =
      [.discharge, .read 0x10 99 true, .read 0x10 102 false, .read 0x11 99 true,
        .read 0x11 102 true] := by decide +kernel

/-! ### Witnesses: for each statement with hypotheses, a case that meets them -/

theorem witness_EncodeThenDecodeGivesTheCommand : (Instr.bufPush 31 .high true).wf = true := by decide

theorem witness_DecodeThenEncodeGivesTheWord :
    decodeWord 0x00007F04 = some (.bufPush 31 .high true) := by decide

theorem witness_StepRunsTheDecodedCommand :
    (let s := stateOf 1 0 [.write 0 4 0x302]
     accepting s ∧ s.inputs = .write 0 4 0x302 :: []) ∧
    decode (bytesOfWord 0x302) = .ok (.cal 3, []) ∧
    accepting (stateOf 1 0 []) ∧ decodeTableWord 32 0x302 = some (.cal 3) :=
  ⟨by decide, rfl, by decide, by decide⟩

/-- A TICK that waits for its first acknowledgement, with inputs to come. -/
def waiting (inputs : List Input) : State :=
  { after .tick (stateOf 1 0 []) with inputs := inputs }

theorem witness_CommandErrorsByPriority :
    (configWf (waiting [.write 0 4 6]).cfg = true ∧ (waiting [.write 0 4 6]).busy = true) ∧
    (configWf (stateOf 1 0 [.write 0 4 6]).cfg = true ∧
      (stateOf 1 0 [.write 0 4 6]).busy = false ∧ decodeWord 6 = none) ∧
    (decodeWord 0x202 = some (.cal 2) ∧ commandChannel (.cal 2) = some 2 ∧
      (stateOf 1 0 [.write 0 4 0x202]).cfg.numChannels ≤ 2) ∧
    (let cfg := { cfgOf 1 0 with numChannels := 4, pinIds := [0, 1, 2, 3] }
     accepting (State.resetOf cfg) ∧ (State.resetOf cfg).cfg.numChannels = 4) := by decide

theorem witness_WritesWhileBusyLeaveTheCommandAlone :
    (let s := waiting ([((0x000 : Offset), (5 : Word)), (0x100, 7)].map
      (fun p => Input.write p.1 4 p.2) ++ [.reply true])
     configWf s.cfg = true ∧ s.busy = true) ∧
    (let s := waiting [.reply true]
     configWf s.cfg = true ∧ s.busy = true ∧ s.inputs = .reply true :: [] ∧
       wentOn (step s) = true) := by decide

theorem witness_RejectedCommandsChangeOnlyLastErr :
    (accepting (stateOf 1 0 []) ∧ commandChannel (.bufPush 2 .low true) = some 2 ∧
      (stateOf 1 0 []).cfg.numChannels ≤ 2) ∧
    (configWf (waiting []).cfg = true ∧ (waiting []).busy = true) := by decide

theorem witness_NopOnlyRecordsSuccess : accepting (stateOf 1 0 []) ∧
    (configWf (waiting []).cfg = true ∧ (waiting []).busy = true) ∧
    fieldOp 0x10 = 0 ∧ (0x10 : Word) ≠ 0 := by decide

theorem witness_InitRestoresTheCreationState :
    (configWf (steadyState []).cfg = true ∧ (steadyState []).busy = false) ∧
    (configWf (waiting []).cfg = true ∧ (waiting []).busy = true) := by decide

theorem witness_PushEvictsTheOldestSample : bufferOk 1 ⟨[true], 0, 1⟩ ∧
    bufferOk 255 ⟨List.replicate 255 true, 254, 255⟩ := by decide +kernel

theorem witness_BufPushPushesIntoOneBuffer :
    accepting (steadyState []) ∧ channelsOk (steadyState []).cfg (steadyState []).chans ∧
      1 < (steadyState []).cfg.numChannels := by decide

theorem witness_BufResetClearsOneBuffer : accepting (steadyState []) ∧
    (steadyState []).chans.length = (steadyState []).cfg.numChannels ∧
    1 < (steadyState []).cfg.numChannels := by decide

/-- An engine state with answers at hand. -/
def engineWith (answers : List Bool) : Eng :=
  ⟨[calibrated 1, calibrated 1], 0, none, answers, []⟩

theorem witness_FillSumIsTheTouchedCount : configWf (cfgOf 1 0) = true ∧
    channelsOk (cfgOf 1 0) (engineWith [true]).chans ∧ 1 < (cfgOf 1 0).numChannels ∧
    (cfgOf 1 0).samplesNum ≤ (engineWith [true]).replies.length := by decide

theorem witness_DecisionConstantsAreExact : configWf (cfgOf 1 0) = true ∧ configWf (cfgOf 255 0) = true := by
  decide

/-- What a run of the pseudocode leaves, where it completes. -/
def doneWith {α : Type} [DecidableEq α] (a : α) : Run α → Bool
  | .done b _ => decide (b = a)
  | .waiting _ _ => false

theorem done_of {α : Type} [DecidableEq α] {a : α} {r : Run α} (h : doneWith a r = true) :
    r = .done a r.eng := by
  cases r with
  | done b e => rw [of_decide_eq_true h, Run.eng]
  | waiting q e => cases h

theorem witness_CoarseSearchStaysOrdered :
    (searchStart.hi > searchStart.lo + 1 ∧ searchStart.lo < searchStart.hi) ∧
    doneWith ⟨128, 160, 64, 192⟩ (coarse (cfgOf 1 1) 0 1 searchStart (engineWith [true, false])) =
      true := by decide +kernel

theorem witness_ProbesLieBetweenTheTemporaries : configWf (cfgOf 1 1) = true ∧
    1 ≤ (cfgOf 1 1).maxProbeSteps ∧ 0 ≤ searchStart.highestLow ∧
    searchStart.highestLow ≤ searchStart.lo ∧ searchStart.lo < searchStart.hi ∧
    searchStart.hi ≤ searchStart.lowestHigh ∧ searchStart.lowestHigh ≤ 255 ∧
    (coarse (cfgOf 1 1) 1 1 searchStart (engineWith [true])).request = some (.read 0x11 192) := by
  decide +kernel

theorem witness_CrossOverRecoveryRoundsAndClamps : (64 : Int) < 65 ∧ (65 : Int) ≤ 65 ∧ (0 : Int) ≤ 255 := by
  decide

/-- The walks at both ends of their range: from 254, and from 1. -/
theorem witness_LowWalkStopsAtTheCriterion : configWf (cfgOf 1 0) = true ∧
    channelsOk (cfgOf 1 0) (engineWith []).chans ∧ 1 < (cfgOf 1 0).numChannels ∧
    doneWith 255 (lowWalkUp (cfgOf 1 0) 1 0 (engineWith [])) = true ∧
    doneWith 254 (lowWalkUp (cfgOf 1 0) 1 1 (engineWith [false])) = true ∧
    doneWith 0 (lowWalkDown (cfgOf 1 0) 1 0 (engineWith [])) = true ∧
    doneWith 0 (lowWalkDown (cfgOf 1 0) 1 1 (engineWith [true])) = true ∧
    doneWith 253 (lowWalkDown (cfgOf 1 0) 1 255 (engineWith [false, true])) = true ∧
    doneWith (64, 192)
      (fineAdjust (cfgOf 1 0) 1 searchStart (engineWith [true, false, false, true])) = true ∧
    doneWith (63, 192)
      (fineAdjust (cfgOf 1 0) 1 searchStart (engineWith [false, false, true, true])) = true := by
  decide +kernel

theorem witness_HighWalkStopsAtTheCriterion : configWf (cfgOf 1 0) = true ∧
    channelsOk (cfgOf 1 0) (engineWith []).chans ∧ 1 < (cfgOf 1 0).numChannels ∧
    doneWith 255 (highWalkUp (cfgOf 1 0) 1 0 (engineWith [])) = true ∧
    doneWith 2 (highWalkUp (cfgOf 1 0) 1 255 (engineWith [true, false])) = true ∧
    doneWith 0 (highWalkDown (cfgOf 1 0) 1 0 (engineWith [])) = true ∧
    doneWith 254 (highWalkDown (cfgOf 1 0) 1 255 (engineWith [false, true])) = true ∧
    doneWith (64, 191)
      (fineAdjust (cfgOf 1 0) 1 searchStart (engineWith [true, false, false, false, true])) = true ∧
    doneWith (64, 193)
      (fineAdjust (cfgOf 1 0) 1 searchStart (engineWith [true, true, false, false])) = true := by
  decide +kernel

theorem witness_MarginsWidenAndClamp : configWf (cfgOf 1 0) = true ∧
    0 < (engineWith []).chans.length ∧ (0 : Int) ≤ 0 ∧ (255 : Int) ≤ 255 := by decide

/-- Fine adjustment from (253, 255) on the boundary 254: two fills, one round down a side. -/
theorem witness_FineAdjustmentFindsTheBoundary :
    let cfg := cfgOf 1 0
    let r := fineAdjust cfg 1 ⟨253, 255, 0, 255⟩ (engineWith [true, false, true, false, true])
    configWf cfg = true ∧ cfg.lowFractionPct < 100 ∧ 0 < cfg.highFractionPct ∧
      channelsOk cfg (engineWith []).chans ∧ 1 < cfg.numChannels ∧ doneWith (254, 255) r = true ∧
      r.eng.log = r.eng.log ++ (engineWith []).log ∧
      obeys (fixedBoundary fun _ => 254) r.eng.log := by decide +kernel

/-- The hypotheses of the statements about a CAL that completes on a boundary. -/
theorem witness_CalBracketsTheBoundary :
    let s := calState
    let t := after (.cal 0) s
    accepting s ∧ channelsOk s.cfg s.chans ∧ 0 < s.cfg.numChannels ∧ s.cfg.lowFractionPct < 100 ∧
      0 < s.cfg.highFractionPct ∧ wentOn (exec (.cal 0) s) = true ∧ t.busy = false ∧
      obeys (fixedBoundary fun _ => 100) (newEvents s t) := by decide +kernel

/-- The answers of V-CAL-5 with N = 1: an acknowledgement, 16 READs, four fills, all 0. -/
def zeroState : State := stateOf 1 8 (List.replicate 21 (.reply false))

/-- The answers of V-CAL-6 with N = 1: an acknowledgement, 16 READs, four fills, all 1. -/
def oneState : State := stateOf 1 8 (List.replicate 21 (.reply true))

theorem witness_CalOfAConstantPin :
    (let t := after (.cal 0) zeroState
     wentOn (exec (.cal 0) zeroState) = true ∧ t.busy = false ∧
       obeys (fun _ _ => false) (newEvents zeroState t)) ∧
    (let t := after (.cal 0) oneState
     wentOn (exec (.cal 0) oneState) = true ∧ t.busy = false ∧
       obeys (fun _ _ => true) (newEvents oneState t)) ∧
    accepting zeroState ∧ accepting oneState ∧ channelsOk zeroState.cfg zeroState.chans ∧
    channelsOk oneState.cfg oneState.chans ∧ 0 < zeroState.cfg.highFractionPct ∧
    oneState.cfg.lowFractionPct < 100 := by decide +kernel

/-- Each clause of the ordering: the boundary, the two constant pins with margins of at least one. -/
theorem witness_ThresholdOrderAfterCalibration :
    (accepting calState ∧ channelsOk calState.cfg calState.chans ∧ 0 < calState.cfg.numChannels ∧
      wentOn (exec (.cal 0) calState) = true ∧ (after (.cal 0) calState).busy = false ∧
      calState.cfg.lowFractionPct < 100 ∧ 0 < calState.cfg.highFractionPct ∧
      obeys (fixedBoundary fun _ => 100) (newEvents calState (after (.cal 0) calState))) ∧
    (wentOn (exec (.cal 0) zeroState) = true ∧ (after (.cal 0) zeroState).busy = false ∧
      obeys (fun _ _ => false) (newEvents zeroState (after (.cal 0) zeroState)) ∧
      1 ≤ zeroState.cfg.pressMargin) ∧
    (wentOn (exec (.cal 0) oneState) = true ∧ (after (.cal 0) oneState).busy = false ∧
      obeys (fun _ _ => true) (newEvents oneState (after (.cal 0) oneState)) ∧
      1 ≤ oneState.cfg.releaseMargin) := by decide +kernel

theorem witness_CalCompletesAndWritesOneChannel :
    let s := stateOf 1 0 (List.replicate 513 (.reply true))
    accepting s ∧ channelsOk s.cfg s.chans ∧ 1 < s.cfg.numChannels ∧
      calTransactions s.cfg ≤ (leadingReplies s.inputs).length := by decide +kernel

theorem witness_CalibrationIgnoresOtherChannels : (1 : Nat) ≠ 0 := by decide

/-- Each band of each side and each counter at its limit, N = 10: K_REL 1, K_LOW 9, K_HIGH 1,
K_PRESS 9. -/
theorem witness_LowSideBands :
    let cfg := cfgOf 10 0
    configWf cfg = true ∧ ((1 : Nat) : Int) ≤ kRel cfg ∧ kRel cfg < ((2 : Nat) : Int) ∧
      ((9 : Nat) : Int) ≤ kLow cfg ∧ kLow cfg < ((10 : Nat) : Int) ∧
      min (2 + 1) (2 ^ 32 - 1) > cfg.hysteresis ∧ min (1 + 1) (2 ^ 32 - 1) ≤ cfg.hysteresis ∧
      min (9 + 1) (2 ^ 32 - 1) ≥ cfg.maxTimeInGrayzone ∧
      min (8 + 1) (2 ^ 32 - 1) < cfg.maxTimeInGrayzone := by decide +kernel

theorem witness_HighSideBands :
    let cfg := cfgOf 10 0
    configWf cfg = true ∧ kPress cfg ≤ ((9 : Nat) : Int) ∧ kHigh cfg ≤ ((1 : Nat) : Int) ∧
      ((8 : Nat) : Int) < kPress cfg ∧ ((0 : Nat) : Int) < kHigh cfg ∧
      min (9 + 1) (2 ^ 32 - 1) ≥ cfg.maxTimeInGrayzone ∧
      min (8 + 1) (2 ^ 32 - 1) < cfg.maxTimeInGrayzone := by decide +kernel

theorem witness_PressWinsOverRelease : kPress (cfgOf 1 0) ≤
    (({ calibrated 1 with highBuffer := ⟨[true], 0, 1⟩ } : Channel).highBuffer.sum.toNat : Int) := by
  decide

theorem witness_GrayCountIsShared :
    (((0 : Nat) : Int) < kHigh (cfgOf 10 0) ∨ kPress (cfgOf 10 0) ≤ ((0 : Nat) : Int)) ∧
    kHigh (cfgOf 10 0) ≤ ((8 : Nat) : Int) ∧ ((8 : Nat) : Int) < kPress (cfgOf 10 0) := by
  decide +kernel

theorem witness_PressEndsOnlyByReleaseOrWatchdog :
    let ch := { calibrated 1 with pressed := true, debounceTicks := 2 }
    let s := { steadyState [false, false, false, false, false] with chans := [ch, calibrated 1] }
    (accepting s ∧ channelsOk s.cfg s.chans ∧ wentOn (exec .tick s) = true ∧
      (after .tick s).busy = false ∧ (channelAt s.chans 0).pressed = true ∧
      (channelAt (after .tick s).chans 0).pressed = false) ∧
    ch.pressed = true ∧ (decideChannel (cfgOf 1 0) ch).pressed = false := by decide +kernel

theorem witness_OnlyTickSetsPressed :
    let s := steadyState [false, true, false, true, true]
    wentOn (exec .tick s) = true ∧ (channelAt s.chans 1).pressed = false ∧
      (channelAt (after .tick s).chans 1).pressed = true := by decide +kernel

theorem witness_ReportHoldsThePressedBits :
    let s := steadyState [false, true, false, true, true]
    accepting s ∧ s.chans.length = s.cfg.numChannels ∧ wentOn (exec .tick s) = true ∧
      (after .tick s).busy = false := by decide +kernel

theorem witness_TickCompletes :
    let s := { stateOf 1 0 (List.replicate 1029 (.reply true)) with
      chans := [calibrated 1, Channel.initial 1] }
    accepting s ∧ channelsOk s.cfg s.chans ∧
      tickTransactions s.cfg ≤ (leadingReplies s.inputs).length ∧
      (channelAt s.chans 0).needsCalibration = false := by decide +kernel

theorem witness_TickWithoutCalibrationExactly :
    let s := steadyState [false, true, false, true, true]
    accepting s ∧ channelsOk s.cfg s.chans ∧ (∀ ch ∈ s.chans, ch.needsCalibration = false) ∧
      1 + 2 * s.cfg.samplesNum * s.cfg.numChannels ≤ (leadingReplies s.inputs).length := by
  decide +kernel

/-- One channel on pin 0x10. -/
def oneChannel : Params := { cfgOf 1 8 with numChannels := 1, pinIds := [0x10] }

/-- The answers of V-CAL-7, then those of the two fills at 99 and 102. -/
def firstTickInputs : List Input := (calAnswers ++ [true, false]).map Input.reply

theorem witness_FirstTickFindsEveryBoundary :
    let s := { State.resetOf oneChannel with inputs := firstTickInputs }
    let t := after .tick s
    configWf oneChannel = true ∧ oneChannel.lowFractionPct < 100 ∧ 0 < oneChannel.highFractionPct ∧
      wentOn (exec .tick s) = true ∧ t.busy = false ∧
      obeys (fixedBoundary fun _ => 100) t.senseLog := by decide +kernel

theorem witness_TickOnConstantPins :
    (let s := steadyState [true, true, true, true, true]
     accepting s ∧ channelsOk s.cfg s.chans ∧ wentOn (exec .tick s) = true ∧
       (after .tick s).busy = false ∧ obeys (fun _ _ => true) (newEvents s (after .tick s))) ∧
    (let s := { steadyState [false, false, false, false, false] with
       chans := [{ calibrated 1 with debounceTicks := 2 }, { calibrated 1 with debounceTicks := 1 }] }
     accepting s ∧ channelsOk s.cfg s.chans ∧ wentOn (exec .tick s) = true ∧
       (after .tick s).busy = false ∧ obeys (fun _ _ => false) (newEvents s (after .tick s)) ∧
       0 < s.cfg.highFractionPct ∧ min (2 + 1) (2 ^ 32 - 1) > s.cfg.hysteresis ∧
       min (1 + 1) (2 ^ 32 - 1) ≤ s.cfg.hysteresis) := by decide +kernel

theorem witness_UnansweredCommandWaits :
    (let s := waiting []
     configWf s.cfg = true ∧ s.busy = true ∧ s.running.isSome = true ∧ s.inputs = []) ∧
    (let s := waiting [.write 0 4 5]
     s.busy = true ∧ s.running.isSome = true ∧ inputExpressible (.write 0 4 5) = true ∧
       Input.write 0 4 5 ≠ .reset) := by decide

theorem witness_ResetLeavesTheResetState :
    (configWf (waiting [.reset, .reply true]).cfg = true ∧
      (waiting [.reset, .reply true]).inputs = .reset :: [.reply true]) ∧
    (waiting [.reset, .staleReply true]).inputs = .reset :: [.staleReply true] := by decide

/-- A TICK whose first two answers come, and later the other three. -/
theorem witness_AnswersMayComeInParts :
    let s := steadyState []
    let a := after .tick { s with inputs := [false, true].map Input.reply }
    accepting s ∧ [false, true, true] ≠ [] ∧
      wentOn (exec .tick { s with inputs := [false, true].map Input.reply }) = true ∧
      a.busy = true := by decide +kernel

theorem witness_OutstandingTransactionIsAnsweredNext :
    let s := waiting [.reply true]
    Inv s ∧ s.outstanding = some .discharge ∧ s.inputs = .reply true :: [] ∧
      wentOn (step s) = true := by decide +kernel

theorem witness_EveryStepGoesOn : configWf (cfgOf 1 0) = true ∧
    (∀ x ∈ (stateOf 1 0 [.write 0xFFC 4 7]).inputs.head?, inputExpressible x = true) := by decide

theorem witness_ResetStateIsGood : configWf Config.params = true ∧ configWf (cfgOf 255 0) = true := by
  decide +kernel

/-- A busy and an idle state that meet the invariant and step on. -/
theorem witness_EveryStepKeepsTheInvariant :
    (Inv (waiting [.reply true]) ∧ wentOn (step (waiting [.reply true])) = true) ∧
    (Inv (stateOf 1 0 [.write 0 4 2]) ∧ wentOn (step (stateOf 1 0 [.write 0 4 2])) = true) :=
  ⟨by decide +kernel, by decide +kernel⟩

theorem witness_ConfigurationIsNeverWritten : wentOn (exec .init (stateOf 1 0 [])) = true ∧
    wentOn (step (stateOf 1 0 [.reset])) = true := by decide

/-- A REPORT of 1 with inputs to come. -/
def reported (inputs : List Input) : State := { stateOf 1 0 inputs with report := 1 }

/-- A TICK that waits, its five answers to come. -/
def tickAnswered : State :=
  { after .tick (steadyState []) with inputs := List.replicate 5 (.reply true) }

/-- REPORT changes by a reset, by a CMD write, and by the answer that ends a TICK. -/
theorem witness_ReportChangesOnlyAtTheEndOfATick :
    (Inv (reported [.reset]) ∧ step (reported [.reset]) = .next (stepped (reported [.reset])) ∧
      (stepped (reported [.reset])).report ≠ (reported [.reset]).report) ∧
    (Inv (reported [.write 0 4 5]) ∧
      step (reported [.write 0 4 5]) = .next (stepped (reported [.write 0 4 5])) ∧
      (stepped (reported [.write 0 4 5])).report ≠ (reported [.write 0 4 5]).report) ∧
    (Inv tickAnswered ∧ step tickAnswered = .next (stepped tickAnswered) ∧
      (stepped tickAnswered).report ≠ tickAnswered.report) :=
  ⟨⟨by decide +kernel, next_of_wentOn _ (by decide +kernel), by decide +kernel⟩,
    ⟨by decide +kernel, next_of_wentOn _ (by decide +kernel), by decide +kernel⟩,
    by decide +kernel, next_of_wentOn _ (by decide +kernel), by decide +kernel⟩

theorem witness_StatusRegister :
    (configWf (waiting [.read 0x004 4]).cfg = true ∧
      (waiting [.read 0x004 4]).inputs = .read 0x004 4 :: []) ∧
    (stateOf 1 0 [.write 0x004 4 0xFFFFFFFF]).inputs = .write 0x004 4 0xFFFFFFFF :: [] := by decide

theorem witness_ConfigurationRegisters : configWf (cfgOf 255 255) = true ∧
    (0x018 : Offset) ∈ ([0x00C, 0x010, 0x014, 0x018] : List Offset) ∧
    (stateOf 1 0 [.write 0x018 4 1]).inputs = .write 0x018 4 1 :: [] := by decide

theorem witness_ChannelRegisters : (stateOf 1 0 []).busy = false ∧ 1 < (cfgOf 1 0).numChannels ∧
    selectReg (cfgOf 1 0) 0x130 = .channel 1 .hbuf ∧ (0x130 : Offset).toNat % 4 = 0 := by decide

theorem witness_ReadsFollowTheRegisterMap : configWf (stateOf 1 0 [.read 0x130 4]).cfg = true ∧
    (stateOf 1 0 [.read 0x130 4]).inputs = .read 0x130 4 :: [] ∧ (0x130 : Offset).toNat % 4 = 0 ∧
    (0x130 : Offset).toNat = 0x100 + 0x20 * 1 + 0x10 ∧ 1 < (cfgOf 1 0).numChannels ∧
    (stateOf 1 0 [.read 0x130 4]).busy = false := by decide

/-- Unmapped: the gap below the windows, the end of channel 1's window, and a channel that does not
exist. -/
theorem witness_UnmappedOffsetsReadZero :
    [0x01C, 0x0FC, 0x134, 0x140, 0xFFC].all (fun off => off % 4 == 0 &&
      !([0x004, 0x008, 0x00C, 0x010, 0x014, 0x018].contains off) &&
      (List.range 2).all (fun c => [0x00, 0x04, 0x08, 0x0C, 0x10].all fun k =>
        off != 0x100 + 0x20 * c + k)) = true ∧
    (stateOf 1 0 [.write 0x100 4 7]).inputs = .write 0x100 4 7 :: [] ∧
    (0x100 : Offset) ≠ 0 := by decide

theorem witness_BusyChannelReadsKeepFixedFields :
    let s := waiting [.read 0x12C 4]
    configWf s.cfg = true ∧ s.busy = true ∧ 1 < s.cfg.numChannels ∧
      (0x12C : Offset).toNat = 0x100 + 0x20 * 1 + 0x0C := by decide

theorem witness_RefusedAccessesAndConfigurations :
    (configWf (stateOf 1 0 [.read 4 2]).cfg = true ∧ (2 : Nat) ≠ 4) ∧
    ((stateOf 1 0 [.write 2 4 0]).inputs = .write 2 4 0 :: [] ∧ (2 : Offset).toNat % 4 ≠ 0) ∧
    configWf (stateOf 0 0 []).cfg = false := by decide

/-- A TICKW whose answers come before the second read of STATUS, and a CALW's command word. -/
theorem witness_HostStatementsAreTheirAccesses :
    let s := steadyState []
    let u := after .tick { s with inputs := (List.replicate 5 true).map Input.reply }
    Instr.tick.wf = true ∧ (Instr.cal 1).wf = true ∧ accepting s ∧ s.inputs = [] ∧
      wentOn (exec .tick s) = true ∧ (after .tick s).busy = true ∧
      wentOn (exec .tick { s with inputs := (List.replicate 5 true).map Input.reply }) = true ∧
      u.busy = false := by decide +kernel

theorem witness_CoarseIterationReadsLowThenHigh : searchStart.hi > searchStart.lo + 1 ∧
    (engineWith []).replies = [] ∧ (engineWith [true]).replies = [true] ∧
    (engineWith [true, false]).replies = [true, false] ∧
    ((⟨7, 8, 0, 255⟩ : Search).hi ≤ (⟨7, 8, 0, 255⟩ : Search).lo + 1) := by decide

/-- A WAIT during a TICK whose answers come in two parts: two reads find BUSY = 1, the third ends it. -/
def waitRun : HostRun :=
  runHost [.wait] [[], [.reply true, .reply true], [.reply true, .reply true, .reply true], []]
    (after .tick (steadyState []))

/-- The state in which a run of statements ended. -/
def endState (r : HostRun) : Option State :=
  match r with
  | .ended s _ => some s
  | _ => none

/-- R90: STATUS read as 1, 1, 0, and no fourth read. -/
theorem test_wait : (endState waitRun).map (fun s => s.hostReads) =
    some [(4, 0), (4, 1), (4, 1)] := by decide +kernel

theorem witness_WaitEndsAtTheFirstIdleRead :
    (let s := after .tick (steadyState [])
     configWf s.cfg = true ∧ s.inputs = [] ∧ s.busy = true ∧
       (∀ x ∈ s.inputs ++ ([[], [.reply true, .reply true], [.reply true, .reply true, .reply true],
         []] : World).flatten, isAccess x = false) ∧ (endState waitRun).isSome = true) ∧
    (configWf (steadyState []).cfg = true ∧ (steadyState []).inputs = [] ∧
      (steadyState []).busy = false) := by decide +kernel

end Sys2Proof.Tests
end

section
/-! The fields of the register words, which register an offset selects, and the statements about
the host register map (10_state.md R39 to R47). -/

namespace Sys2Proof.Machine

/-! ### Fields of a concatenation -/

theorem lowest_field {m n : Nat} {x : BitVec m} {y : BitVec n} : (x ++ y).extractLsb' 0 n = y := by
  rw [BitVec.extractLsb'_append_eq_of_add_le (by omega), BitVec.extractLsb'_eq_self]

/-- A field that starts above the lowest one is a field of what stands above it. -/
theorem field_above {m n k len : Nat} {x : BitVec m} {y : BitVec n} {f : BitVec len}
    (h : x.extractLsb' (k - n) len = f) (hk : n ≤ k := by decide) :
    (x ++ y).extractLsb' k len = f := by
  rw [BitVec.extractLsb'_append_eq_of_le hk, h]

theorem toNat_ofNat_of_lt {w n : Nat} (h : n < 2 ^ w) : (BitVec.ofNat w n).toNat = n := by
  rw [BitVec.toNat_ofNat, Nat.mod_eq_of_lt h]

theorem getLsbD_of_field {w : Word} {k : Nat} {b : Bool} (h : w.extractLsb' k 1 = BitVec.ofBool b) :
    w.getLsbD k = b := by
  have hbit := congrArg (·.getLsbD 0) h
  simpa using hbit

/-! ### The fields of each register -/

/-- STATUS above its BUSY bit, which `statusWord_busy` gives (R41). -/
theorem statusWord_fields (s : State) :
    (statusWord s).extractLsb' 1 3 = 0 ∧ (statusWord s).extractLsb' 4 4 = s.lastErr ∧
      (statusWord s).extractLsb' 8 24 = 0 := by
  unfold statusWord
  exact ⟨field_above lowest_field,
    field_above (field_above lowest_field),
    field_above (field_above (field_above BitVec.extractLsb'_eq_self))⟩

/-- STATUS is 0 after reset (R41). -/
theorem statusWord_resetOf (cfg : Params) : statusWord (State.resetOf cfg) = 0 := by
  have hword : statusWord (State.resetOf cfg) = 0#24 ++ 0#4 ++ 0#3 ++ BitVec.ofBool false := rfl
  rw [hword]
  decide

/-- CFG0 (R40). -/
theorem cfg0Word_fields (cfg : Params) :
    (cfg0Word cfg).extractLsb' 0 8 = BitVec.ofNat 8 cfg.samplesNum ∧
      (cfg0Word cfg).extractLsb' 8 8 = BitVec.ofNat 8 cfg.numChannels ∧
      (cfg0Word cfg).extractLsb' 16 8 = BitVec.ofNat 8 cfg.maxProbeSteps ∧
      (cfg0Word cfg).extractLsb' 24 4 = BitVec.ofNat 4 cfg.pressMargin ∧
      (cfg0Word cfg).extractLsb' 28 4 = BitVec.ofNat 4 cfg.releaseMargin := by
  unfold cfg0Word
  exact ⟨lowest_field,
    field_above lowest_field,
    field_above (field_above lowest_field),
    field_above (field_above (field_above lowest_field)),
    field_above (field_above (field_above (field_above BitVec.extractLsb'_eq_self)))⟩

/-- CFG1 (R40). -/
theorem cfg1Word_fields (cfg : Params) :
    (cfg1Word cfg).extractLsb' 0 8 = BitVec.ofNat 8 cfg.lowFractionPct ∧
      (cfg1Word cfg).extractLsb' 8 8 = BitVec.ofNat 8 cfg.highFractionPct ∧
      (cfg1Word cfg).extractLsb' 16 16 = 0 := by
  unfold cfg1Word
  exact ⟨lowest_field,
    field_above lowest_field,
    field_above (field_above BitVec.extractLsb'_eq_self)⟩

/-- CH_THR (R43). -/
theorem chThrWord_fields (pin : Byte) (ch : Channel) :
    (chThrWord pin ch).extractLsb' 0 8 = ch.lowThreshold ∧
      (chThrWord pin ch).extractLsb' 8 8 = ch.highThreshold ∧
      (chThrWord pin ch).getLsbD 16 = ch.pressed ∧
      (chThrWord pin ch).getLsbD 17 = ch.needsCalibration ∧
      (chThrWord pin ch).extractLsb' 18 6 = 0 ∧ (chThrWord pin ch).extractLsb' 24 8 = pin := by
  unfold chThrWord
  exact ⟨lowest_field,
    field_above lowest_field,
    getLsbD_of_field (field_above (field_above lowest_field)),
    getLsbD_of_field (field_above (field_above (field_above lowest_field))),
    field_above (field_above (field_above (field_above lowest_field))),
    field_above (field_above (field_above (field_above (field_above BitVec.extractLsb'_eq_self))))⟩

/-- CH_LBUF and CH_HBUF (R46). -/
theorem bufWord_fields (b : Buffer) :
    (bufWord b).extractLsb' 0 8 = b.sum ∧ (bufWord b).extractLsb' 8 8 = b.cursor ∧
      (bufWord b).extractLsb' 16 16 = 0 := by
  unfold bufWord
  exact ⟨lowest_field,
    field_above lowest_field,
    field_above (field_above BitVec.extractLsb'_eq_self)⟩

theorem bufWord_baseline (n : Nat) : bufWord (Buffer.baseline n) = 0 := by
  have hword : bufWord (Buffer.baseline n) = 0#16 ++ 0#8 ++ 0#8 := rfl
  rw [hword]
  decide

/-! ### The channel registers while idle, and at reset -/

theorem regWord_channel_idle {s : State} (hb : s.busy = false) (c : Nat) (r : ChannelReg) :
    regWord s (.channel c r) = channelWord s c r := by
  simp [regWord, hb]

theorem channelAt_resetOf {cfg : Params} {c : Nat} (hc : c < cfg.numChannels) :
    channelAt (State.resetOf cfg).chans c = Channel.initial cfg.samplesNum := by
  simp [channelAt, State.resetOf, initialChannels, List.getD_eq_getElem?_getD, hc]

/-- The reset value of CH_THR, which R43 writes as a shift and a constant: below PIN_ID stands the same
24-bit constant for every channel. -/
theorem chThrWord_initial (pin : Byte) (n : Nat) :
    chThrWord pin (Channel.initial n) = pin.setWidth 32 <<< 24 ||| 0x0002C040#32 := by
  have hcat : chThrWord pin (Channel.initial n) = pin ++ 0x02C040#24 := by
    apply BitVec.eq_of_toNat_eq
    unfold chThrWord Channel.initial
    iterate 6 rw [BitVec.toNat_append]
    simp [Nat.shiftLeft_or_distrib, ← Nat.shiftLeft_add, Nat.or_assoc]
  rw [hcat, BitVec.append_def, BitVec.shiftLeftZeroExtend_eq]
  rfl

/-- The other channel registers reset to 0 (R44 to R46). -/
theorem channelWord_resetOf {cfg : Params} {c : Nat} (hc : c < cfg.numChannels) {r : ChannelReg}
    (hr : r ≠ .thr) : channelWord (State.resetOf cfg) c r = 0 := by
  cases r with
  | thr => exact absurd rfl hr
  | gray | deb => rw [channelWord, channelAt_resetOf hc]; rfl
  | lbuf | hbuf => rw [channelWord, channelAt_resetOf hc]; exact bufWord_baseline cfg.samplesNum

/-! ### Which register an offset selects -/

theorem channelRegAt_none {k : Nat} (h : k ∉ [0x00, 0x04, 0x08, 0x0C, 0x10]) :
    channelRegAt k = none := by
  unfold channelRegAt
  split
  case h_6 => rfl
  all_goals exact absurd (by decide) h

/-- Below the channel windows, what is neither STATUS, REPORT nor a CFG register is CMD or unmapped. -/
theorem selectReg_below_windows (cfg : Params) {off : Nat} (hlow : off < 0x100)
    (h : off ∉ [0x004, 0x008, 0x00C, 0x010, 0x014, 0x018]) :
    selectReg cfg off = .cmd ∨ selectReg cfg off = .unmapped := by
  unfold selectReg
  rw [if_pos hlow]
  split
  case h_1 => exact .inl rfl
  case h_8 => exact .inr rfl
  all_goals exact absurd (by decide) h

/-- From 0x100 on, what is no register of an existing channel's window is unmapped. -/
theorem selectReg_outside_channels {cfg : Params} {off : Nat} (hhigh : 0x100 ≤ off)
    (h : ∀ c < cfg.numChannels, ∀ k ∈ [0x00, 0x04, 0x08, 0x0C, 0x10], off ≠ 0x100 + 0x20 * c + k) :
    selectReg cfg off = .unmapped := by
  unfold selectReg
  rw [if_neg (by omega)]
  by_cases hc : (off - 0x100) / 0x20 < cfg.numChannels
  · have hk : (off - 0x100) % 0x20 ∉ [0x00, 0x04, 0x08, 0x0C, 0x10] :=
      fun hk => h _ hc _ hk (by omega)
    rw [if_pos hc, channelRegAt_none hk]
  · rw [if_neg hc]

/-- Offset 0 is CMD, so no channel register is there. -/
theorem offset_ne_zero_of_channel {cfg : Params} {off : Offset} {c : Nat} {r : ChannelReg}
    (h : selectReg cfg off.toNat = .channel c r) : off ≠ 0 := by
  rintro rfl
  exact absurd (show RegSelect.cmd = .channel c r from h) (by simp)

/-- A read of CMD, or of an offset that selects nothing, records 0 and draws no free word (R47). -/
theorem step_read_zero {s : State} {off : Offset} {rest : List Input} (hw : configWf s.cfg = true)
    (ha : off.toNat % 4 = 0) (hi : s.inputs = .read off 4 :: rest)
    (h : selectReg s.cfg off.toNat = .cmd ∨ selectReg s.cfg off.toNat = .unmapped) :
    step s = .next { s with inputs := rest, hostReads := (off, 0) :: s.hostReads } := by
  rw [step_read hw ha hi]
  rcases h with h | h <;> rw [h] <;> rfl

theorem cfgOffset_aligned_ne_cmd {off : Offset}
    (h : off ∈ ([0x00C, 0x010, 0x014, 0x018] : List Offset)) : off.toNat % 4 = 0 ∧ off ≠ 0 := by
  simp only [List.mem_cons, List.not_mem_nil, or_false] at h
  rcases h with rfl | rfl | rfl | rfl <;> decide

/-! ### The statements -/

/-- Settles O55: an offset below the windows, or one outside every channel's window, selects CMD or
nothing; a write elsewhere than CMD is `step_write_other`. -/
theorem unmappedOffsetsReadZero : Obligations.UnmappedOffsetsReadZero := by
  refine ⟨fun s off rest hw hi ha hbelow hchan => ?_, fun s off w rest hw hi ha h0 =>
    step_write_other hw ha h0 hi⟩
  apply step_read_zero hw ha hi
  by_cases hlow : off.toNat < 0x100
  · exact selectReg_below_windows s.cfg hlow hbelow
  · exact .inr (selectReg_outside_channels (by omega) hchan)

/-- Settles O51, from the fields of the word a read of STATUS records. -/
theorem statusRegister : Obligations.StatusRegister := by
  intro s rest hw
  refine ⟨fun hi => ⟨statusWord s, step_read_status hw hi, statusWord_busy s, statusWord_fields s⟩,
    fun v hi => step_write_other hw (by decide) (by decide) hi,
    statusWord_resetOf s.cfg⟩

/-- Settles O52: a well-formed configuration fits the fields that hold it. -/
theorem configurationRegisters : Obligations.ConfigurationRegisters := by
  intro s hw
  obtain ⟨⟨_, hc⟩, _, ⟨_, hn⟩, hlow, hhigh, hpress, hrel, hhyst, hgray, hprobe⟩ := configWf_bounds hw
  obtain ⟨h0n, h0c, h0probe, h0press, h0rel⟩ := cfg0Word_fields s.cfg
  obtain ⟨h1low, h1high, h1upper⟩ := cfg1Word_fields s.cfg
  have h0 : regWord s (selectReg s.cfg 0x00C) = cfg0Word s.cfg := rfl
  have h1 : regWord s (selectReg s.cfg 0x010) = cfg1Word s.cfg := rfl
  rw [h0, h1, h0n, h0c, h0probe, h0press, h0rel, h1low, h1high]
  refine ⟨toNat_ofNat_of_lt (by omega), toNat_ofNat_of_lt (by omega),
    toNat_ofNat_of_lt (by omega), toNat_ofNat_of_lt (by omega),
    toNat_ofNat_of_lt (by omega), toNat_ofNat_of_lt (by omega),
    toNat_ofNat_of_lt (by omega), h1upper, toNat_ofNat_of_lt hhyst,
    toNat_ofNat_of_lt hgray, rfl, fun off hoff v rest hi => ?ignored⟩
  case ignored =>
    obtain ⟨haligned, hcmd⟩ := cfgOffset_aligned_ne_cmd hoff
    exact step_write_other hw haligned hcmd hi

/-- Settles O53: while idle a channel register holds its architectural word, at reset that of the
reset channel, and no channel register stands at CMD's offset. -/
theorem channelRegisters : Obligations.ChannelRegisters := by
  refine ⟨fun s c hb => ?fields, fun cfg c hc => ⟨?thr, fun r hr => ?others⟩,
    fun s off c r w rest hw hsel ha hi => step_write_other hw ha (offset_ne_zero_of_channel hsel) hi⟩
  case fields =>
    simp only [regWord_channel_idle hb]
    obtain ⟨hlow, hhigh, hpressed, hflag, hreserved, hpin⟩ :=
      chThrWord_fields (pinOf s.cfg c) (channelAt s.chans c)
    refine ⟨hlow, hhigh, hpressed, hflag, hreserved, hpin, rfl, rfl, fun side r h => ?_⟩
    rcases h with ⟨rfl, rfl⟩ | ⟨rfl, rfl⟩
    · exact bufWord_fields (bufferAt s.chans c .low)
    · exact bufWord_fields (bufferAt s.chans c .high)
  case thr =>
    rw [regWord_channel_idle rfl, channelWord, channelAt_resetOf hc]
    exact chThrWord_initial (pinOf cfg c) cfg.samplesNum
  case others => rw [regWord_channel_idle rfl, channelWord_resetOf hc hr]

end Sys2Proof.Machine
end

section
/-! The arithmetic parts of a calibration that READ nothing: the cross-over recovery and the margins,
and the statements about them (41_calibrator.md R127, R136, R139). -/

namespace Sys2Proof.Machine

/-! ### Clamping -/

theorem clamp8_eq_max_min (v : Int) : clamp8 v = max 0 (min 255 v) := by
  unfold clamp8
  split_ifs <;> omega

theorem byte_clamp8_toNat (v : Int) : ((byte (clamp8 v)).toNat : Int) = max 0 (min 255 v) := by
  obtain ⟨h0, h255⟩ := clamp8_range v
  rw [byte_toNat h0 h255, clamp8_eq_max_min]

/-! ### The cross-over recovery -/

theorem crossOver_of_lt {q : Search} (h : q.lo < q.hi) : crossOver q = q :=
  if_neg (by omega)

theorem crossOver_of_le {q : Search} (h : q.hi ≤ q.lo) :
    crossOver q = ⟨max 0 (min 255 (floorDiv (q.lo - q.hi - 1) 2)),
      max 0 (min 255 (ceilDiv (q.lo - q.hi + 1) 2)), q.highestLow, q.lowestHigh⟩ := by
  rw [crossOver, if_pos h, clamp8_eq_max_min, clamp8_eq_max_min]

/-! ### The margins -/

theorem byte_widenLow_toNat (cfg : Params) {lo : Int} (h : lo ≤ 255) :
    ((byte (widenLow cfg lo)).toNat : Int) = max 0 (lo - cfg.releaseMargin) := by
  rw [widenLow, byte_clamp8_toNat, min_eq_right (by omega)]

theorem byte_widenHigh_toNat (cfg : Params) {hi : Int} (h : 0 ≤ hi) :
    ((byte (widenHigh cfg hi)).toNat : Int) = min 255 (hi + cfg.pressMargin) := by
  rw [widenHigh, byte_clamp8_toNat, max_eq_right (by omega)]

/-! ### The statements -/

/-- Settles O21: the recovery's two values are a floor_div and a ceil_div by 2, each within one of the
exact half; on equal thresholds the floor of -1/2 is -1, which only the clamp brings into 0..255. -/
theorem crossOverRecoveryRoundsAndClamps : Obligations.CrossOverRecoveryRoundsAndClamps := by
  refine fun q => ⟨crossOver_of_lt, fun hcross => ?_⟩
  have hdown := floorDiv_le (q.lo - q.hi - 1) (b := 2) (by decide)
  have hdown' := lt_floorDiv_add_one (q.lo - q.hi - 1) (b := 2) (by decide)
  have hup := le_ceilDiv (q.lo - q.hi + 1) (b := 2) (by decide)
  have hup' := ceilDiv_sub_one_lt (q.lo - q.hi + 1) (b := 2) (by decide)
  exact ⟨floorDiv (q.lo - q.hi - 1) 2, ceilDiv (q.lo - q.hi + 1) 2, by omega, by omega, by omega,
    by omega, crossOver_of_le hcross, fun heq => by omega⟩

/-- Settles O24: a threshold of 0..255 can leave the range only on the side its margin moves it to, so
one bound of each clamp remains. -/
theorem marginsWidenAndClamp : Obligations.MarginsWidenAndClamp := by
  intro cfg c lo hi e _ _ _ hlo hhi _
  exact ⟨byte (widenLow cfg lo), byte (widenHigh cfg hi), byte_widenLow_toNat cfg hlo,
    byte_widenHigh_toNat cfg hhi, rfl⟩

end Sys2Proof.Machine
end

section
/-! The bands of the high-side rule and what the gray-zone watchdog they share with the low side does
at each count, and the statement about them (42_engine.md R168 to R170). -/

namespace Sys2Proof.Machine

/-! ### The gray-zone watchdog -/

theorem grayBand_of_reached {cfg : Params} {ch : Channel}
    (h : cfg.maxTimeInGrayzone ≤ min (ch.grayZoneTicks.toNat + 1) (2 ^ 32 - 1)) :
    grayBand cfg ch =
      { ch with
        grayZoneTicks := BitVec.ofNat 32 (min (ch.grayZoneTicks.toNat + 1) (2 ^ 32 - 1))
        needsCalibration := true
        pressed := false } := by
  rw [← satInc32_toNat] at h
  rw [grayBand, if_pos h, satInc32_eq]

theorem grayBand_of_not_reached {cfg : Params} {ch : Channel}
    (h : min (ch.grayZoneTicks.toNat + 1) (2 ^ 32 - 1) < cfg.maxTimeInGrayzone) :
    grayBand cfg ch =
      { ch with
        grayZoneTicks := BitVec.ofNat 32 (min (ch.grayZoneTicks.toNat + 1) (2 ^ 32 - 1)) } := by
  rw [← satInc32_toNat] at h
  rw [grayBand, if_neg h.not_ge, satInc32_eq]

/-! ### The bands of the high-side rule -/

theorem highRule_of_kPress_le {cfg : Params} {h : Nat} (hpress : kPress cfg ≤ h) (ch : Channel) :
    highRule cfg h ch = strongPress ch :=
  if_pos hpress

theorem highRule_of_kHigh_le {cfg : Params} {h : Nat} (hhigh : kHigh cfg ≤ h)
    (hpress : (h : Int) < kPress cfg) (ch : Channel) : highRule cfg h ch = grayBand cfg ch := by
  rw [highRule, if_neg hpress.not_ge, if_pos hhigh]

theorem highRule_of_lt_kHigh {cfg : Params} {h : Nat} (hhigh : (h : Int) < kHigh cfg)
    (hpress : (h : Int) < kPress cfg) (ch : Channel) : highRule cfg h ch = steadyBand ch := by
  rw [highRule, if_neg hpress.not_ge, if_neg hhigh.not_ge]

/-! ### The statement -/

/-- Settles O32: the sum's place against K_PRESS and then K_HIGH selects the band; in the gray band
the saturating count's place against MAX_TIME_IN_GRAYZONE decides what the watchdog writes. -/
theorem highSideBands : Obligations.HighSideBands := by
  intro cfg h ch _
  refine ⟨fun hpress => highRule_of_kPress_le hpress ch, fun hhigh hpress => ?gray,
    fun hhigh hpress => highRule_of_lt_kHigh hhigh hpress ch⟩
  case gray =>
    rw [highRule_of_kHigh_le hhigh hpress]
    exact ⟨grayBand_of_reached, grayBand_of_not_reached⟩

end Sys2Proof.Machine
end

section
/-! The words of the control commands, what acceptance does for a command without a channel operand,
and the statements about NOP and INIT (43_control.md R201, R203). -/

namespace Sys2Proof.Machine

/-! ### Rows of the opcode map -/

/-- A command is read by a row of the opcode map that selects the word (R84). -/
theorem exists_row_of_decodeWord {w : Word} {i : Instr} (h : decodeWord w = some i) :
    ∃ r ∈ opcodeMap, rowMatches w r = true ∧ r.read w = i := by
  obtain ⟨r, hfind, hread⟩ := Option.map_eq_some_iff.mp h
  exact ⟨r, List.mem_of_find?_eq_some hfind, List.find?_some hfind, hread⟩

/-- Every mask covers OP, so a selected word has the OP of its row (R81, R85). -/
theorem fieldOp_of_rowMatches {w : Word} {r : OpRow} (hr : r ∈ opcodeMap)
    (h : rowMatches w r = true) : fieldOp w = fieldOp r.pattern := by
  have hmask : ∀ r ∈ opcodeMap, r.mask.extractLsb' 0 4 = BitVec.allOnes 4 := by decide
  rw [fieldOp, fieldOp, ← eq_of_beq h, BitVec.extractLsb'_and, hmask r hr, BitVec.and_allOnes]

/-- A row whose mask covers all bits selects its pattern alone. -/
theorem eq_pattern_of_rowMatches {w : Word} {r : OpRow} (hmask : r.mask = BitVec.allOnes 32)
    (h : rowMatches w r = true) : w = r.pattern := by
  rw [← eq_of_beq h, hmask, BitVec.and_allOnes]

/-- The one row with OP 0 is NOP's, and it covers all bits (R85). -/
theorem eq_zero_of_fieldOp_of_decodeWord {w : Word} {i : Instr} (hop : fieldOp w = 0)
    (h : decodeWord w = some i) : w = 0 := by
  have hrow : ∀ r ∈ opcodeMap, fieldOp r.pattern = 0 →
      r.mask = BitVec.allOnes 32 ∧ r.pattern = 0 := by decide
  obtain ⟨r, hr, hmatch, _⟩ := exists_row_of_decodeWord h
  obtain ⟨hmask, hpattern⟩ := hrow r hr (by rw [← fieldOp_of_rowMatches hr hmatch, hop])
  rw [eq_pattern_of_rowMatches hmask hmatch, hpattern]

/-- The one row that reads INIT covers all bits (R85). -/
theorem decodeWord_eq_init_iff {w : Word} : decodeWord w = some .init ↔ w = 0x00000005#32 := by
  refine ⟨fun h => ?_, fun h => h ▸ by decide⟩
  obtain ⟨r, hr, hmatch, hread⟩ := exists_row_of_decodeWord h
  simp only [opcodeMap, List.mem_cons, List.not_mem_nil, or_false] at hr
  obtain rfl | rfl | rfl | rfl | rfl | rfl := hr
  case inr.inr.inr.inr.inr => exact eq_pattern_of_rowMatches rfl hmatch
  all_goals exact absurd hread (by simp)

/-! ### Acceptance without a channel operand -/

theorem accept_none_idle {s : State} (h : accepting s) (effect : State → State) :
    accept none effect s = .next (effect (raiseCmdError .ok s)) := by
  obtain ⟨hw, hb⟩ := h
  simp [accept_none, hw, hb]

theorem accept_none_busy {s : State} (hw : configWf s.cfg = true) (hb : s.busy = true)
    (effect : State → State) : accept none effect s = .next (raiseCmdError .busy s) := by
  simp [accept_none, hw, hb]

/-! ### INIT and the creation state -/

theorem exec_init_idle {s : State} (h : accepting s) :
    exec .init s = .next (createEngine (raiseCmdError .ok s)) :=
  accept_none_idle h createEngine

theorem channelAt_initialChannels {cfg : Params} {c : Nat} (hc : c < cfg.numChannels) :
    channelAt (initialChannels cfg) c = Channel.initial cfg.samplesNum :=
  channelAt_resetOf hc

/-- What INIT does to an accepting state, done again, changes nothing (R203). -/
theorem createEngine_raise_idem (s : State) :
    createEngine (raiseCmdError .ok (createEngine (raiseCmdError .ok s))) =
      createEngine (raiseCmdError .ok s) := rfl

/-! ### The statements -/

/-- Settles O10: NOP has no effect beyond acceptance, and a legal word with OP 0 is the zero
word. -/
theorem nopOnlyRecordsSuccess : Obligations.NopOnlyRecordsSuccess := by
  refine ⟨fun s hs => accept_none_idle hs id, fun s hw hb => accept_none_busy hw hb id,
    by decide, fun w hop hne => ?nonzero⟩
  case nonzero =>
    rw [Option.eq_none_iff_forall_ne_some]
    exact fun i hi => hne (eq_zero_of_fieldOp_of_decodeWord hop hi)

/-- Settles O11: an accepted INIT leaves the creation state over LAST_ERR = 0, which a second INIT
finds already in place. -/
theorem initRestoresTheCreationState : Obligations.InitRestoresTheCreationState := by
  refine ⟨fun w => decodeWord_eq_init_iff, fun s hw => ⟨fun hb => ?accepted, fun hb =>
    accept_none_busy hw hb createEngine⟩⟩
  case accepted =>
    refine ⟨createEngine (raiseCmdError .ok s), exec_init_idle ⟨hw, hb⟩, rfl,
      List.length_replicate, fun c hc => channelAt_initialChannels hc, fun c hc => ?thr, ?again⟩
    case thr =>
      rw [regWord_channel_idle (s := createEngine (raiseCmdError .ok s)) hb, channelWord,
        createEngine_chans, raiseCmdError_cfg, channelAt_initialChannels hc]
      exact chThrWord_initial (pinOf s.cfg c) s.cfg.samplesNum
    case again =>
      have haccepting : accepting (createEngine (raiseCmdError .ok s)) := ⟨hw, hb⟩
      rw [exec_init_idle haccepting, createEngine_raise_idem]

end Sys2Proof.Machine
end

section
/-! The rejections of a CMD write in the order of the checks, and the statement about them
(60_exceptions.md R221, R222). -/

namespace Sys2Proof.Machine

/-! ### The channel check -/

theorem accept_badChannel {s : State} {ch : Nat} (h : accepting s) (hc : s.cfg.numChannels ≤ ch)
    (effect : State → State) :
    accept (some ch) effect s = .next (raiseCmdError .badChannel s) := by
  obtain ⟨hw, hb⟩ := h
  simp [accept_some, hw, hb, hc]

/-- The meaning of a command is acceptance, with its CH operand as the channel to check (R200). -/
theorem exec_eq_accept (i : Instr) (s : State) :
    ∃ effect, exec i s = accept (commandChannel i) effect s := by
  cases i <;> exact ⟨_, rfl⟩

theorem exec_badChannel {s : State} {i : Instr} {ch : Nat} (h : accepting s)
    (hi : commandChannel i = some ch) (hc : s.cfg.numChannels ≤ ch) :
    exec i s = .next (raiseCmdError .badChannel s) := by
  obtain ⟨effect, heffect⟩ := exec_eq_accept i s
  rw [heffect, hi, accept_badChannel h hc]

/-! ### A rejected write to CMD -/

section
variable {s : State} {w : Word} {rest : List Input}

theorem step_cmd_busy (hw : configWf s.cfg = true) (hin : s.inputs = .write 0 4 w :: rest)
    (hb : s.busy = true) : step s = .next { s with inputs := rest, lastErr := 1 } :=
  (step_write_cmd hw hin).trans (onCmdWrite_busy w hb)

theorem step_cmd_illegal (hw : configWf s.cfg = true) (hin : s.inputs = .write 0 4 w :: rest)
    (hb : s.busy = false) (hd : decodeWord w = none) :
    step s = .next { s with inputs := rest, lastErr := 2 } :=
  (step_write_cmd hw hin).trans (onCmdWrite_illegal hb hd)

theorem step_cmd_badChannel {i : Instr} {ch : Nat} (hw : configWf s.cfg = true)
    (hin : s.inputs = .write 0 4 w :: rest) (hb : s.busy = false) (hd : decodeWord w = some i)
    (hi : commandChannel i = some ch) (hc : s.cfg.numChannels ≤ ch) :
    step s = .next { s with inputs := rest, lastErr := 3 } :=
  calc
    step s = onCmdWrite w { s with inputs := rest } := step_write_cmd hw hin
    _ = exec i { s with inputs := rest } := onCmdWrite_legal hb hd
    _ = .next { s with inputs := rest, lastErr := 3 } := exec_badChannel ⟨hw, hb⟩ hi hc

end

/-! ### The statement -/

/-- Settles O7: BUSY is checked before the word is decoded, and the channel of a decoded command
last. The second example's word is a CAL with a reserved bit set, so no row of the opcode map reads
it and its channel is not looked at. -/
theorem commandErrorsByPriority : Obligations.CommandErrorsByPriority := by
  refine ⟨fun s w rest hw hin => ⟨step_cmd_busy hw hin, step_cmd_illegal hw hin,
    fun i ch => step_cmd_badChannel hw hin⟩, fun s rest hw hb hin => step_cmd_busy hw hin hb,
    fun s rest hs _ hin => ?reservedBit⟩
  case reservedBit =>
    obtain ⟨hw, hb⟩ := hs
    exact step_cmd_illegal hw hin hb (by decide)

end Sys2Proof.Machine
end

section
/-! What a step and a command can do, said once, and from it the invariant, the configuration and the
absence of stops (00_scope.md R6; 10_state.md R20, R36; 20_memory.md R73; 60_exceptions.md R220, R223). -/

namespace Sys2Proof.Machine

/-! ### What a command does -/

/-- What a command does where it is accepted (43_control.md R200). -/
def commandEffect (cfg : Params) : Instr → State → State
  | .nop => id
  | .tick => startCommand .tick
  | .cal ch => startCommand (.cal ch)
  | .bufReset ch side => changeBuffer ch side (resetBuffer cfg.samplesNum)
  | .bufPush ch side val => changeBuffer ch side (pushBuffer cfg.samplesNum val)
  | .init => createEngine

/-- The meaning of every command is acceptance of its effect, its CH operand checked (R200). -/
theorem exec_eq_accept_effect (i : Instr) (s : State) :
    exec i s = accept (commandChannel i) (commandEffect s.cfg i) s := by
  cases i <;> rfl

/-- All that a command can do: record a rejection, or have its effect with LAST_ERR cleared. -/
theorem exec_cases {i : Instr} {s t : State} (h : exec i s = .next t) :
    configWf s.cfg = true ∧
      ((∃ err, t = raiseCmdError err s) ∨
       (s.busy = false ∧ (∀ c, commandChannel i = some c → c < s.cfg.numChannels) ∧
          t = commandEffect s.cfg i (raiseCmdError .ok s))) := by
  rw [exec_eq_accept_effect] at h
  obtain ⟨hw, ⟨_, ht⟩ | ⟨_, _, ht⟩ | ⟨hb, hc, ht⟩⟩ := accept_cases h
  · exact ⟨hw, .inl ⟨.busy, ht⟩⟩
  · exact ⟨hw, .inl ⟨.badChannel, ht⟩⟩
  · exact ⟨hw, .inr ⟨hb, hc, ht⟩⟩

theorem startCommand_eq_advance (cmd : EngineCmd) (s : State) :
    startCommand cmd (raiseCmdError .ok s) = advance ⟨cmd, engineOf s⟩ (begun s) := rfl

/-! ### What a step does -/

/-- All that a step can leave, by the input it takes. -/
inductive StepLeaves (s : State) : State → Prop
  | nothing : s.inputs = [] → StepLeaves s s
  | ignoredWrite (off : Offset) (w : Word) (rest : List Input) :
      s.inputs = .write off 4 w :: rest → off ≠ 0 → StepLeaves s { s with inputs := rest }
  | command (w : Word) (rest : List Input) (t : State) : s.inputs = .write 0 4 w :: rest →
      onCmdWrite w { s with inputs := rest } = .next t → StepLeaves s t
  | read (off : Offset) (rest : List Input) (w : Word) (n : Nat) : s.inputs = .read off 4 :: rest →
      StepLeaves s
        { s with inputs := rest, hostReads := (off, w) :: s.hostReads, draws := s.draws + n }
  | reply (b : Bool) (rest : List Input) : s.inputs = .reply b :: rest → StepLeaves s (onReply s)
  | staleReply (b : Bool) (rest : List Input) : s.inputs = .staleReply b :: rest →
      StepLeaves s { s with inputs := rest }
  | reset (rest : List Input) : s.inputs = .reset :: rest →
      StepLeaves s (resetBlock { s with inputs := rest })

theorem size_of_alignedWord {off : Offset} {size : Nat} (h : alignedWord off size = true) :
    size = 4 := by
  simp only [alignedWord, decide_eq_true_eq] at h
  exact h.1

theorem step_of_configWf {s : State} (hw : configWf s.cfg = true) : step s = takeInput s :=
  if_neg (by simp [hw])

theorem configWf_of_step {s t : State} (h : step s = .next t) : configWf s.cfg = true := by
  unfold step at h
  split_ifs at h with hw
  simpa using hw

theorem step_cases {s t : State} (h : step s = .next t) : StepLeaves s t := by
  rw [step_of_configWf (configWf_of_step h), takeInput] at h
  split at h
  next hi => cases h; exact .nothing hi
  next off size w rest hi =>
    unfold memWrite at h
    split_ifs at h with ha h0
    · obtain rfl := size_of_alignedWord ha
      exact .command w rest t (h0 ▸ hi) h
    · obtain rfl := size_of_alignedWord ha
      cases h
      exact .ignoredWrite off w rest hi h0
  next off size rest hi =>
    unfold memRead at h
    split_ifs at h with ha
    obtain rfl := size_of_alignedWord ha
    cases h
    exact .read off rest _ _ hi
  next b rest hi => cases h; exact .reply b rest hi
  next b rest hi => cases h; exact .staleReply b rest hi
  next rest hi => cases h; exact .reset rest hi

/-- All that a write to CMD can do: record an error, or run the command its word decodes to while no
other is in progress (43_control.md R200). -/
theorem onCmdWrite_cases {w : Word} {s t : State} (h : onCmdWrite w s = .next t) :
    (∃ err, t = raiseCmdError err s) ∨
      ∃ i, decodeWord w = some i ∧ s.busy = false ∧ exec i s = .next t := by
  cases hb : s.busy with
  | true =>
    rw [onCmdWrite_busy w hb] at h
    cases h
    exact .inl ⟨.busy, rfl⟩
  | false =>
    cases hd : decodeWord w with
    | none =>
      rw [onCmdWrite_illegal hb hd] at h
      cases h
      exact .inl ⟨.illegal, rfl⟩
    | some i =>
      rw [onCmdWrite_legal hb hd] at h
      exact .inr ⟨i, rfl, rfl, h⟩

/-! ### The configuration -/

theorem advance_cfg (p : InProgress) (s : State) : (advance p s).cfg = s.cfg := by
  rcases advance_cases p s with ⟨e, _, h⟩ | ⟨q, e, _, h⟩ <;> rw [h] <;> rfl

theorem onReply_cfg (s : State) : (onReply s).cfg = s.cfg := by
  unfold onReply
  split
  · exact advance_cfg _ s
  · rfl

theorem commandEffect_cfg (cfg : Params) (i : Instr) (s : State) :
    (commandEffect cfg i s).cfg = s.cfg := by
  cases i with
  | tick | cal ch => exact advance_cfg _ _
  | nop | bufReset ch side | bufPush ch side val | init => rfl

theorem exec_cfg {i : Instr} {s t : State} (h : exec i s = .next t) : t.cfg = s.cfg := by
  obtain ⟨_, ⟨err, rfl⟩ | ⟨_, _, rfl⟩⟩ := exec_cases h
  · rfl
  · exact commandEffect_cfg s.cfg i _

theorem step_cfg {s t : State} (h : step s = .next t) : t.cfg = s.cfg := by
  cases step_cases h with
  | command w rest t hi hc =>
    obtain ⟨err, rfl⟩ | ⟨i, _, _, he⟩ := onCmdWrite_cases hc
    · rfl
    · have hcfg := exec_cfg he
      exact hcfg
  | reply b rest hi => exact onReply_cfg s
  | nothing | ignoredWrite | read | staleReply | reset => rfl

/-! ### The invariant -/

/-- What the invariant asks of a command in progress, whatever answers it has received. -/
structure Startable (cfg : Params) (p : InProgress) : Prop where
  command : commandOk cfg p.cmd = true
  chans : channelsOk cfg p.start.chans
  report : reportOk cfg p.start.report
  temps : p.start.temps = none

theorem Startable.receive {cfg : Params} {p : InProgress} (h : Startable cfg p) (bs : List Bool) :
    Startable cfg (receive bs p) :=
  ⟨h.command, h.chans, h.report, h.temps⟩

/-- Carrying a command on leaves a good state: it completes with good channels and no temporaries, or
waits in the state the answers received determine (10_state.md R21, R33, R36). -/
theorem inv_advance {p : InProgress} {s : State} (hw : configWf s.cfg = true)
    (herr : s.lastErr.toNat ≤ 3) (hp : Startable s.cfg p) : Inv (advance p s) := by
  have hr := hp.receive (leadingReplies s.inputs)
  obtain ⟨hchans, hreport⟩ := runCommand_ok (cmd := p.cmd) hw hr.chans hr.report
  rcases advance_cases p s with ⟨e, hrun, hadv⟩ | ⟨q, e, hrun, hadv⟩
  · rw [hrun] at hchans hreport
    rw [hadv]
    exact ⟨hw, hchans, hreport, herr, fun _ => ⟨rfl, rfl, runCommand_temps hrun hr.temps⟩, by simp⟩
  · rw [hrun] at hchans hreport
    rw [hadv]
    refine ⟨hw, hchans, hreport, herr, by simp, ?_⟩
    simp only [suspendCommand_running, Option.mem_some_iff, forall_eq']
    refine ⟨rfl, rfl, hr.command, hr.chans, hr.report, hr.temps, ?_⟩
    show heldBy _ (runCommand s.cfg p.cmd (receive (leadingReplies s.inputs) p).start)
    rw [hrun]
    exact ⟨rfl, rfl, rfl, rfl, rfl⟩

/-- A command in progress shows BUSY, so an idle state has none. -/
theorem Inv.not_running {s : State} (h : Inv s) (hb : s.busy = false) : s.running = none := by
  obtain ⟨_, _, _, _, _, hp⟩ := h
  rw [Option.eq_none_iff_forall_not_mem]
  intro p hmem
  obtain ⟨hbusy, _⟩ := hp p hmem
  rw [hb] at hbusy
  cases hbusy

theorem Inv.startable {s : State} (h : Inv s) {p : InProgress} (hp : s.running = some p) :
    Startable s.cfg p := by
  obtain ⟨_, _, _, _, _, hprog⟩ := h
  obtain ⟨_, _, hcmd, hchans, hreport, htemps, _⟩ := hprog p hp
  exact ⟨hcmd, hchans, hreport, htemps⟩

theorem errorCode_le (err : CmdError) : (errorCode err).toNat ≤ 3 := by cases err <;> decide

theorem inv_raiseCmdError {s : State} (h : Inv s) (err : CmdError) : Inv (raiseCmdError err s) := by
  obtain ⟨hw, hchans, hreport, _, hidle, hprog⟩ := h
  exact ⟨hw, hchans, hreport, errorCode_le err, hidle, hprog⟩

/-- An idle good state stays good when its channels and REPORT become other good ones. -/
theorem Inv.changeChannels {s : State} (h : Inv s) (hb : s.busy = false) {chans : List Channel}
    {report : Word} (hchans : channelsOk s.cfg chans) (hreport : reportOk s.cfg report) :
    Inv { s with chans := chans, report := report } := by
  have hrun := h.not_running hb
  obtain ⟨hw, _, _, herr, hidle, _⟩ := h
  exact ⟨hw, hchans, hreport, herr, hidle, by simp [hrun]⟩

theorem initialChannels_ok {cfg : Params} (hw : configWf cfg = true) :
    channelsOk cfg (initialChannels cfg) := by
  obtain ⟨_, _, ⟨hn, _⟩, _⟩ := configWf_bounds hw
  refine ⟨List.length_replicate, fun ch hch => ?_⟩
  obtain ⟨_, rfl⟩ := List.mem_replicate.mp hch
  exact ⟨baseline_ok hn, baseline_ok hn⟩

theorem reportOk_zero (cfg : Params) : reportOk cfg 0 := Nat.two_pow_pos cfg.numChannels

theorem inv_resetBlock {s : State} (hw : configWf s.cfg = true) : Inv (resetBlock s) :=
  ⟨hw, initialChannels_ok hw, reportOk_zero s.cfg, errorCode_le .ok, fun _ => ⟨rfl, rfl, rfl⟩, by simp⟩

/-- The state in which an accepted TICK or CAL starts its engine is one the invariant allows. -/
theorem startable_engineOf {s : State} (h : Inv s) {cmd : EngineCmd}
    (hcmd : commandOk s.cfg cmd = true) : Startable s.cfg ⟨cmd, engineOf s⟩ := by
  obtain ⟨_, hchans, hreport, _⟩ := h
  exact ⟨hcmd, hchans, hreport, rfl⟩

theorem inv_startCommand {s : State} (h : Inv s) {cmd : EngineCmd}
    (hcmd : commandOk s.cfg cmd = true) : Inv (startCommand cmd (raiseCmdError .ok s)) := by
  have hstart := startable_engineOf h hcmd
  obtain ⟨hw, _⟩ := h
  rw [startCommand_eq_advance]
  exact inv_advance (s := begun s) hw (errorCode_le .ok) hstart

theorem inv_commandEffect {i : Instr} {s : State} (h : Inv s) (hb : s.busy = false)
    (hc : ∀ c, commandChannel i = some c → c < s.cfg.numChannels) :
    Inv (commandEffect s.cfg i (raiseCmdError .ok s)) := by
  have hr := inv_raiseCmdError h .ok
  have ⟨hw, hchans, hreport, _⟩ := h
  obtain ⟨_, _, hn, _⟩ := configWf_bounds hw
  cases i with
  | nop => exact hr
  | tick => exact inv_startCommand h rfl
  | cal ch => exact inv_startCommand h (decide_eq_true (hc ch rfl))
  | bufReset ch side =>
    exact hr.changeChannels hb
      (channelsOk_updateBuffer hchans ch side fun b _ => baseline_ok hn.1) hreport
  | bufPush ch side val =>
    exact hr.changeChannels hb
      (channelsOk_updateBuffer hchans ch side fun b hok => pushBuffer_ok hn hok val) hreport
  | init => exact hr.changeChannels hb (initialChannels_ok hw) (reportOk_zero s.cfg)

theorem inv_exec {i : Instr} {s t : State} (h : Inv s) (he : exec i s = .next t) : Inv t := by
  obtain ⟨_, ⟨err, rfl⟩ | ⟨hb, hc, rfl⟩⟩ := exec_cases he
  · exact inv_raiseCmdError h err
  · exact inv_commandEffect h hb hc

theorem inv_onReply {s : State} (h : Inv s) : Inv (onReply s) := by
  unfold onReply
  split
  next p hp =>
    have hstart := h.startable hp
    obtain ⟨hw, _, _, herr, _⟩ := h
    exact inv_advance hw herr hstart
  next => exact h

/-! ### The statements -/

/-- Settles O48: by the input the step takes. The inputs and the records are no part of the invariant;
what is left is a command's effect, an answer, and the reset. -/
theorem everyStepKeepsTheInvariant : Obligations.EveryStepKeepsTheInvariant := by
  intro s t h hstep
  cases step_cases hstep with
  | nothing | ignoredWrite | read | staleReply => exact h
  | command w rest t hi hc =>
    have h' : Inv { s with inputs := rest } := h
    obtain ⟨err, rfl⟩ | ⟨i, _, _, he⟩ := onCmdWrite_cases hc
    · exact inv_raiseCmdError h' err
    · exact inv_exec h' he
  | reply b rest hi => exact inv_onReply h
  | reset rest hi => exact inv_resetBlock h.1

/-- Settles O47: the reset state is what the reset action leaves. -/
theorem resetStateIsGood : Obligations.ResetStateIsGood := fun cfg hw =>
  inv_resetBlock (s := State.resetOf cfg) hw

/-- Settles O49. -/
theorem configurationIsNeverWritten : Obligations.ConfigurationIsNeverWritten :=
  ⟨fun _ _ _ h => exec_cfg h, fun _ _ h => step_cfg h⟩

end Sys2Proof.Machine
end

section
/-! What a command in progress meets: answers in parts, host accesses, a reset, and nothing at all
(10_state.md R21, R42; 20_memory.md R61, R70, R72; 60_exceptions.md R221, R223, R234;
70_reset_and_hazards.md R250, R251). -/

namespace Sys2Proof.Machine

/-! ### Steps by their input -/

section
variable {s : State} {rest : List Input}

theorem step_nothing (hw : configWf s.cfg = true) (hi : s.inputs = []) : step s = .next s := by
  rw [step_of_configWf hw, takeInput, hi]

theorem step_staleReply (hw : configWf s.cfg = true) {b : Bool}
    (hi : s.inputs = .staleReply b :: rest) : step s = .next { s with inputs := rest } := by
  rw [step_of_configWf hw, takeInput, hi]

theorem step_reset (hw : configWf s.cfg = true) (hi : s.inputs = .reset :: rest) :
    step s = .next (resetBlock { s with inputs := rest }) := by
  rw [step_of_configWf hw, takeInput, hi]

theorem step_reply_idle (hw : configWf s.cfg = true) (hrun : s.running = none) {b : Bool}
    (hi : s.inputs = .reply b :: rest) : step s = .next { s with inputs := rest } := by
  rw [step_reply hw hi, onReply, hrun, hi]
  rfl

theorem step_reply_running (hw : configWf s.cfg = true) {p : InProgress}
    (hrun : s.running = some p) {b : Bool} (hi : s.inputs = .reply b :: rest) :
    step s = .next (advance p s) := by
  rw [step_reply hw hi, onReply, hrun]

theorem step_read_unaligned (hw : configWf s.cfg = true) {off : Offset} {size : Nat}
    (ha : alignedWord off size = false) (hi : s.inputs = .read off size :: rest) :
    step s = .refused .unsupportedAccess := by
  rw [step_of_configWf hw, takeInput, hi]
  exact if_neg (by simp [ha])

theorem step_write_unaligned (hw : configWf s.cfg = true) {off : Offset} {size : Nat} {w : Word}
    (ha : alignedWord off size = false) (hi : s.inputs = .write off size w :: rest) :
    step s = .refused .unsupportedAccess := by
  rw [step_of_configWf hw, takeInput, hi]
  exact if_neg (by simp [ha])

/-- A write while a command is in progress changes LAST_ERR at most (60_exceptions.md R221). -/
theorem step_write_busy (hw : configWf s.cfg = true) (hb : s.busy = true) {off : Offset} {w : Word}
    (ha : off.toNat % 4 = 0) (hi : s.inputs = .write off 4 w :: rest) :
    step s = .next
      { s with inputs := rest, lastErr := if off = 0 then errorCode .busy else s.lastErr } := by
  by_cases h0 : off = 0
  · subst h0
    rw [step_cmd_busy hw hi hb, if_pos rfl]
    rfl
  · rw [step_write_other hw ha h0 hi, if_neg h0]

end

theorem alignedWord_eq_true {off : Offset} {size : Nat} :
    alignedWord off size = true ↔ size = 4 ∧ off.toNat % 4 = 0 := decide_eq_true_iff

theorem alignedWord_eq_false {off : Offset} {size : Nat} :
    alignedWord off size = false ↔ size ≠ 4 ∨ off.toNat % 4 ≠ 0 := by
  rw [alignedWord, decide_eq_false_iff_not, not_and_or]

/-! ### Whether a step goes on -/

theorem goesOn_accept {s : State} (hw : configWf s.cfg = true) (ch : Option Nat)
    (effect : State → State) : goesOn (accept ch effect s) := by
  unfold accept
  rw [if_neg (by simp [hw])]
  split_ifs <;> exact ⟨_, rfl⟩

theorem goesOn_exec (i : Instr) {s : State} (hw : configWf s.cfg = true) : goesOn (exec i s) := by
  rw [exec_eq_accept_effect]
  exact goesOn_accept hw _ _

theorem goesOn_onCmdWrite (w : Word) {s : State} (hw : configWf s.cfg = true) :
    goesOn (onCmdWrite w s) := by
  unfold onCmdWrite
  split
  · exact ⟨_, rfl⟩
  · split
    · exact ⟨_, rfl⟩
    · exact goesOn_exec _ hw

/-- A step stops only at an access the port cannot express (20_memory.md R61). -/
theorem safe_of_expressible {s : State} (hw : configWf s.cfg = true)
    (hx : ∀ x ∈ s.inputs.head?, inputExpressible x = true) : Safe s := by
  cases hi : s.inputs with
  | nil => exact ⟨_, step_nothing hw hi⟩
  | cons x rest =>
    have hexpr : inputExpressible x = true := hx x (by simp [hi])
    cases x with
    | write off size w =>
      obtain ⟨rfl, ha⟩ := alignedWord_eq_true.1 hexpr
      by_cases h0 : off = 0
      · rw [Safe, step_write_cmd hw (h0 ▸ hi)]
        exact goesOn_onCmdWrite w hw
      · exact ⟨_, step_write_other hw ha h0 hi⟩
    | read off size =>
      obtain ⟨rfl, ha⟩ := alignedWord_eq_true.1 hexpr
      exact ⟨_, step_read hw ha hi⟩
    | reply b => exact ⟨_, step_reply hw hi⟩
    | staleReply b => exact ⟨_, step_staleReply hw hi⟩
    | reset => exact ⟨_, step_reset hw hi⟩

/-- Settles O46. -/
theorem everyStepGoesOn : Obligations.EveryStepGoesOn :=
  ⟨fun i _ hw => goesOn_exec i hw, fun _ hw hx => safe_of_expressible hw hx⟩

/-- Settles O57: the port's check of an access and the check of the configuration come first. -/
theorem refusedAccessesAndConfigurations : Obligations.RefusedAccessesAndConfigurations := by
  refine ⟨fun s off size w rest hw hsize => ?access, fun s hw => ⟨if_pos hw, fun i => ?command⟩⟩
  case access =>
    have ha := alignedWord_eq_false.2 hsize
    exact ⟨step_read_unaligned hw ha, step_write_unaligned hw ha⟩
  case command => rw [exec_eq_accept_effect]; exact if_pos hw

/-- Settles O9: the two rejections of acceptance. -/
theorem rejectedCommandsChangeOnlyLastErr : Obligations.RejectedCommandsChangeOnlyLastErr := by
  refine ⟨fun i ch s hs hi hc => exec_badChannel hs hi hc, fun i s hw hb => ?busy⟩
  case busy =>
    rw [exec_eq_accept_effect, accept, if_neg (by simp [hw]), if_pos hb]
    rfl

/-! ### Accesses and resets while a command is in progress -/

/-- Settles O42: a write is rejected or ignored, a read is recorded, a stale answer is dropped; none of
them reaches the engine. -/
theorem unansweredCommandWaits : Obligations.UnansweredCommandWaits := by
  intro s p hw hb hrun
  refine ⟨step_nothing hw, fun x rest hi hexpr hreset hreply => ?_⟩
  cases x with
  | write off size w =>
    obtain ⟨rfl, ha⟩ := alignedWord_eq_true.1 hexpr
    refine ⟨_, step_write_busy hw hb ha hi, rfl, hb, hrun, rfl, rfl, rfl, rfl, rfl, fun w' hx => ?_⟩
    cases hx
    rfl
  | read off size =>
    obtain ⟨rfl, ha⟩ := alignedWord_eq_true.1 hexpr
    exact ⟨_, step_read hw ha hi, rfl, hb, hrun, rfl, rfl, rfl, rfl, rfl, fun w hx => by cases hx⟩
  | reply b => exact absurd rfl (hreply b)
  | staleReply b =>
    exact ⟨_, step_staleReply hw hi, rfl, hb, hrun, rfl, rfl, rfl, rfl, rfl, fun w hx => by cases hx⟩
  | reset => exact absurd rfl hreset

/-- Settles O43: the reset leaves no command in progress, so an answer that comes late finds none. -/
theorem resetLeavesTheResetState : Obligations.ResetLeavesTheResetState := by
  intro s rest hw hi
  refine ⟨_, step_reset hw hi, rfl, fun b rest' hrest => ?_⟩
  rcases hrest with h | h
  · exact step_reply_idle hw rfl h
  · exact step_staleReply hw h

/-- Writes while a command is in progress, one after another (60_exceptions.md R221). -/
theorem run_writes_busy (ws : List (Offset × Word)) {s : State} {rest : List Input}
    (hw : configWf s.cfg = true) (hb : s.busy = true) (ha : ∀ p ∈ ws, p.1.toNat % 4 = 0)
    (hi : s.inputs = ws.map (fun p => Input.write p.1 4 p.2) ++ rest) :
    Sys2Proof.core.run ws.length s = .next
      { s with
        inputs := rest
        lastErr := if ws.any (fun p => p.1 == 0) then errorCode .busy else s.lastErr } := by
  induction ws generalizing s with
  | nil =>
    have hs : s = { s with inputs := rest, lastErr := s.lastErr } := by
      rw [← show s.inputs = rest from hi]
    exact congrArg Host.Outcome.next hs
  | cons p ws ih =>
    have hstep := step_write_busy (off := p.1) hw hb (ha p (by simp)) hi
    have hrest := ih (s := { s with
        inputs := ws.map (fun p => Input.write p.1 4 p.2) ++ rest
        lastErr := if p.1 = 0 then errorCode .busy else s.lastErr })
      hw hb (fun q hq => ha q (by simp [hq])) rfl
    have herr : (if ws.any (fun p => p.1 == 0) then errorCode .busy
          else if p.1 = 0 then errorCode .busy else s.lastErr) =
        if (p :: ws).any (fun p => p.1 == 0) then errorCode .busy else s.lastErr := by
      rw [List.any_cons]
      by_cases h0 : p.1 = 0 <;> cases ws.any _ <;> simp [h0]
    rw [← herr]
    exact (core_run_succ ws.length hstep).trans hrest

theorem advance_lastErr (p : InProgress) (s : State) (code : BitVec 4) :
    advance p { s with lastErr := code } = { advance p s with lastErr := code } := by
  unfold advance
  dsimp only
  cases runCommand s.cfg p.cmd (receive (leadingReplies s.inputs) p).start <;> rfl

theorem onReply_lastErr (s : State) (code : BitVec 4) :
    onReply { s with lastErr := code } = { onReply s with lastErr := code } := by
  unfold onReply
  dsimp only
  cases s.running with
  | none => rfl
  | some p => exact advance_lastErr p s code

/-- Settles O8. -/
theorem writesWhileBusyLeaveTheCommandAlone : Obligations.WritesWhileBusyLeaveTheCommandAlone := by
  refine ⟨fun s ws rest hw hb ha hi => run_writes_busy ws hw hb ha hi,
    fun s t b rest code hw _ hi hstep => ?answer⟩
  case answer =>
    rw [step_reply hw hi] at hstep
    cases hstep
    rw [step_reply (s := { s with lastErr := code }) hw hi, onReply_lastErr]

/-! ### The pseudocode with more answers -/

theorem runTick_eng (cfg : Params) (e : Eng) :
    (runTick cfg e).eng.log = (tickUntilDecided cfg e).eng.log := by
  rw [runTick_eq]
  show ((tickUntilDecided cfg e).andThen _).eng.log = _
  cases tickUntilDecided cfg e <;> rfl

/-- A command that waited goes on, when the answer comes, from the transaction it waited on. -/
theorem runCommand_waiting_withMore {cfg : Params} {cmd : EngineCmd} {e e' : Eng} {q : SenseReq}
    (h : runCommand cfg cmd e = .waiting q e') (b : Bool) (ys : List Bool) :
    ∃ new, (runCommand cfg cmd (e.withMore (b :: ys))).eng.log = new ++ answered b q :: e'.log := by
  cases cmd with
  | cal ch => exact (runCal_prog cfg).waiting_withMore e q e' h b ys
  | tick =>
    show ∃ new, (runTick cfg _).eng.log = _
    rw [runTick_eng]
    exact (tickUntilDecided_prog cfg).waiting_withMore e q e' (runTick_waiting h) b ys

theorem advance_senseLog (p : InProgress) (s : State) : (advance p s).senseLog =
    (runCommand s.cfg p.cmd (receive (leadingReplies s.inputs) p).start).eng.log := by
  rcases advance_cases p s with ⟨e, hrun, hadv⟩ | ⟨q, e, hrun, hadv⟩ <;> rw [hadv, hrun] <;> rfl

/-- A command changes REPORT only where a TICK ends (10_state.md R42). -/
theorem runCommand_report (cfg : Params) (cmd : EngineCmd) (e : Eng) :
    (runCommand cfg cmd e).eng.report = e.report ∨
      cmd = .tick ∧ ∃ e', runCommand cfg cmd e = .done () e' := by
  cases cmd with
  | cal ch => exact .inl ((runCal_prog cfg).uses e).report
  | tick =>
    cases hrun : runCommand cfg .tick e with
    | done u e' => exact .inr ⟨rfl, e', rfl⟩
    | waiting q e' =>
      have huses := (tickUntilDecided_prog cfg).uses e
      rw [runTick_waiting hrun] at huses
      exact .inl huses.report

theorem advance_report (p : InProgress) (s : State) :
    (advance p s).report = p.start.report ∨ p.cmd = .tick ∧ (advance p s).busy = false := by
  have hreport := runCommand_report s.cfg p.cmd (receive (leadingReplies s.inputs) p).start
  rcases advance_cases p s with ⟨e, hrun, hadv⟩ | ⟨q, e, hrun, hadv⟩ <;> rw [hadv] <;>
    rw [hrun] at hreport
  · exact hreport.imp id fun ⟨htick, _⟩ => ⟨htick, rfl⟩
  · rcases hreport with hkeep | ⟨_, _, hdone⟩
    · exact .inl hkeep
    · cases hdone

/-- A run with a transaction outstanding waits on it. -/
theorem eq_waiting_of_request {r : Run Unit} {q : SenseReq} (h : r.request = some q) :
    r = .waiting q r.eng := by
  cases r with
  | done a e => cases h
  | waiting q' e => cases h; rfl

/-- What the invariant says of a state with a command in progress. -/
theorem Inv.held {s : State} (h : Inv s) {p : InProgress} (hp : s.running = some p) :
    ∃ q e, s.outstanding = some q ∧ runCommand s.cfg p.cmd p.start = .waiting q e ∧
      s.senseLog = e.log ∧ s.report = p.start.report := by
  obtain ⟨_, _, _, _, _, hprog⟩ := h
  obtain ⟨_, hsome, _, _, _, _, hout, _, hreport, _, hlog⟩ := hprog p hp
  obtain ⟨q, hq⟩ := Option.isSome_iff_exists.1 hsome
  have hwait := eq_waiting_of_request (hout.symm.trans hq)
  refine ⟨q, _, hq, hwait, hlog, ?_⟩
  rcases runCommand_report s.cfg p.cmd p.start with hkeep | ⟨_, _, hdone⟩
  · rw [hreport, hkeep]
  · rw [hdone] at hwait
    cases hwait

theorem Inv.running_of_outstanding {s : State} (h : Inv s) {q : SenseReq}
    (hq : s.outstanding = some q) : ∃ p, s.running = some p := by
  obtain ⟨_, _, _, _, hidle, _⟩ := h
  cases hp : s.running with
  | some p => exact ⟨p, rfl⟩
  | none =>
    obtain ⟨_, hnone, _⟩ := hidle hp
    rw [hnone] at hq
    cases hq

/-- Settles O45: the state holds what the pseudocode reached by waiting on the outstanding transaction,
and with the answer the pseudocode goes on from there. -/
theorem outstandingTransactionIsAnsweredNext : Obligations.OutstandingTransactionIsAnsweredNext := by
  intro s t q b rest h hq hi hstep
  obtain ⟨p, hp⟩ := h.running_of_outstanding hq
  obtain ⟨q', e, hq', hwait, hlog, _⟩ := h.held hp
  obtain rfl : q' = q := Option.some.inj (hq'.symm.trans hq)
  rw [step_reply_running h.1 hp hi] at hstep
  cases hstep
  rw [advance_senseLog, hi, hlog]
  exact runCommand_waiting_withMore hwait b (leadingReplies rest)

/-- A command leaves REPORT as it was, except INIT and a TICK that completes (10_state.md R42). -/
theorem exec_report {i : Instr} {s t : State} (h : exec i s = .next t) :
    t.report = s.report ∨
      s.busy = false ∧ t.busy = false ∧ (i = .init ∨ i = .tick) := by
  obtain ⟨_, ⟨err, rfl⟩ | ⟨hb, _, rfl⟩⟩ := exec_cases h
  · exact .inl rfl
  · cases i with
    | nop | bufReset ch side | bufPush ch side val => exact .inl rfl
    | init => exact .inr ⟨hb, hb, .inl rfl⟩
    | tick =>
      exact (advance_report ⟨.tick, engineOf s⟩ (begun s)).imp id fun ⟨_, hidle⟩ =>
        ⟨hb, hidle, .inr rfl⟩
    | cal ch =>
      exact (advance_report ⟨.cal ch, engineOf s⟩ (begun s)).imp id fun ⟨htick, _⟩ => by
        cases htick

/-- Settles O50. -/
theorem reportChangesOnlyAtTheEndOfATick : Obligations.ReportChangesOnlyAtTheEndOfATick := by
  intro s t h hstep hne
  cases step_cases hstep with
  | nothing | ignoredWrite | read | staleReply => exact absurd rfl hne
  | reset rest hi => exact .inl ⟨rest, hi⟩
  | command w rest t hi hc =>
    obtain ⟨err, rfl⟩ | ⟨i, hd, hb, he⟩ := onCmdWrite_cases hc
    · exact absurd rfl hne
    · rcases exec_report he with hkeep | ⟨_, hidle, rfl | rfl⟩
      · exact absurd hkeep hne
      · exact .inr (.inl ⟨w, rest, hi, hb, hidle, .inl hd⟩)
      · exact .inr (.inl ⟨w, rest, hi, hb, hidle, .inr hd⟩)
  | reply b rest hi =>
    unfold onReply at hne ⊢
    cases hp : s.running with
    | none => simp [hp] at hne
    | some p =>
      obtain ⟨_, _, _, _, _, hreport⟩ := h.held hp
      simp only [hp] at hne ⊢
      rcases advance_report p s with hkeep | ⟨htick, hidle⟩
      · exact absurd (hkeep.trans hreport.symm) hne
      · exact .inr (.inr ⟨p, rfl, htick, hidle⟩)

/-! ### Answers in parts -/

/-- The commands that sense, as the engine runs them. -/
def engineCmd : Instr → Option EngineCmd
  | .tick => some .tick
  | .cal ch => some (.cal ch)
  | _ => none

/-- A command that leaves BUSY = 1 in a state that was idle is a TICK or a CAL that was accepted. -/
theorem exec_busy {i : Instr} {s t : State} (hs : accepting s) (h : exec i s = .next t)
    (hb : t.busy = true) : ∃ cmd, engineCmd i = some cmd ∧
      (∀ c, commandChannel i = some c → c < s.cfg.numChannels) ∧
      t = advance ⟨cmd, engineOf s⟩ (begun s) := by
  obtain ⟨_, hidle⟩ := hs
  obtain ⟨_, ⟨err, rfl⟩ | ⟨_, hc, rfl⟩⟩ := exec_cases h
  · exact absurd (hidle.symm.trans hb) (by simp)
  · cases i with
    | tick | cal ch => exact ⟨_, rfl, hc, rfl⟩
    | nop | bufReset ch side | bufPush ch side val | init =>
      exact absurd (hidle.symm.trans hb) (by simp)

/-- An accepted command that senses starts its engine. -/
theorem exec_engineCmd {i : Instr} {cmd : EngineCmd} {s : State} (hs : accepting s)
    (hi : engineCmd i = some cmd) (hc : ∀ c, commandChannel i = some c → c < s.cfg.numChannels) :
    exec i s = .next (advance ⟨cmd, engineOf s⟩ (begun s)) := by
  cases i with
  | tick => cases hi; exact execTick_accepted hs
  | cal ch => cases hi; exact execCal_accepted hs (hc ch rfl)
  | nop | bufReset ch side | bufPush ch side val | init => cases hi

theorem receive_receive (xs ys : List Bool) (p : InProgress) :
    receive ys (receive xs p) = receive (xs ++ ys) p := by
  simp [receive]

/-- A list of answers, each an input. -/
theorem leadingReplies_map (xs : List Bool) : leadingReplies (xs.map Input.reply) = xs := by
  simpa [leadingReplies] using leadingReplies_append xs []

/-- Carrying on a command that waits does what carrying it on with all the answers at once does
(10_state.md R21). -/
theorem advance_suspended (p : InProgress) (s : State) (q : SenseReq) (e : Eng) (xs : List Bool)
    (inputs : List Input) :
    advance (receive xs p) { suspendCommand q (receive xs p) e s with inputs := inputs } =
      advance p { s with inputs := xs.map Input.reply ++ inputs } := by
  have hcmd : (receive xs p).cmd = p.cmd := rfl
  unfold advance
  simp only [suspendCommand_cfg, hcmd, receive_receive, leadingReplies_append, afterReplies_append]
  cases runCommand s.cfg p.cmd (receive (xs ++ leadingReplies inputs) p).start <;> rfl

/-- A command that waits after the answers xs goes on with the answers ys to where it comes with both. -/
theorem advance_in_parts {p : InProgress} {s : State} {xs ys : List Bool} (rest : List Input)
    (hw : configWf s.cfg = true) (hi : s.inputs = xs.map Input.reply) (hys : ys ≠ [])
    (hbusy : (advance p s).busy = true) :
    step { advance p s with inputs := ys.map Input.reply ++ rest } =
      .next (advance p { s with inputs := (xs ++ ys).map Input.reply ++ rest }) := by
  obtain ⟨y, ys, rfl⟩ := List.exists_cons_of_ne_nil hys
  rcases advance_cases p s with ⟨e, _, hadv⟩ | ⟨q, e, _, hadv⟩
  · rw [hadv] at hbusy
    cases hbusy
  · rw [hi, leadingReplies_map] at hadv
    rw [hadv]
    have hstep := step_reply_running (b := y) (rest := ys.map Input.reply ++ rest) (s :=
      { suspendCommand q (receive xs p) e { s with inputs := afterReplies s.inputs } with
        inputs := (y :: ys).map Input.reply ++ rest }) hw rfl rfl
    rw [advance_suspended] at hstep
    simpa using hstep

/-- Settles O44: the command that waits has kept the answers of the first part, and its pseudocode runs
again on these and the second part together. -/
theorem answersMayComeInParts : Obligations.AnswersMayComeInParts := by
  intro i s a xs ys rest hs hys hexec hbusy
  obtain ⟨cmd, hcmd, hc, rfl⟩ := exec_busy (s := { s with inputs := xs.map Input.reply }) hs hexec hbusy
  rw [exec_engineCmd (s := { s with inputs := (xs ++ ys).map Input.reply ++ rest }) hs hcmd hc]
  exact advance_in_parts rest hs.1 rfl hys hbusy

end Sys2Proof.Machine
end

section
/-! The fields of the command word, encoder and decoder undoing each other, the disjoint rows of the
opcode map and the ILLEGAL words (30_encoding.md R80 to R91). -/

namespace Sys2Proof.Machine

/-! ### Words and bytes -/

theorem wordOfBytes_byteOfWord (w : Word) :
    wordOfBytes (byteOfWord w 0) (byteOfWord w 1) (byteOfWord w 2) (byteOfWord w 3) = w := by
  apply BitVec.eq_of_getLsbD_eq
  intro k hk
  simp only [wordOfBytes, byteOfWord, BitVec.getLsbD_append, BitVec.getLsbD_extractLsb']
  interval_cases k <;> simp

section
variable {w : Word} (rest : List Byte)

/-- The decoder on the four bytes of a word that stands for a command (20_memory.md R62). -/
theorem decode_of_decodeWord {i : Instr} (h : decodeWord w = some i) :
    decode (bytesOfWord w ++ rest) = .ok (i, rest) := by
  simp [bytesOfWord, decode, wordOfBytes_byteOfWord, h]

theorem decode_of_illegal (h : decodeWord w = none) :
    decode (bytesOfWord w ++ rest) = .error (illegalReason w) := by
  simp [bytesOfWord, decode, wordOfBytes_byteOfWord, h]

theorem decodeWord_of_decode {i : Instr} (h : decode (bytesOfWord w) = .ok (i, [])) :
    decodeWord w = some i := by
  cases hd : decodeWord w with
  | none => cases h.symm.trans (decode_of_illegal [] hd)
  | some j => cases h.symm.trans (decode_of_decodeWord [] hd); rfl

end

theorem decodeWord_of_decodeTableWord {n : Nat} {i : Instr} (h : decodeTableWord 32 n = some i) :
    decodeWord (BitVec.ofNat 32 (n % 2 ^ 32)) = some i := by
  have happ := List.append_nil (bytesOfWord (BitVec.ofNat 32 (n % 2 ^ 32)))
  unfold decodeTableWord at h
  cases hd : decodeWord (BitVec.ofNat 32 (n % 2 ^ 32)) with
  | none =>
    rw [← happ, decode_of_illegal [] hd] at h
    cases h
  | some j =>
    rw [← happ, decode_of_decodeWord [] hd] at h
    exact h

/-! ### The fields of a word -/

/-- The bits of CH, SIDE and VAL (R80). -/
theorem chBits (w : Word) : BitVec.ofNat 32 (fieldCh w) <<< 8 = w &&& 0x1F00#32 := by
  rw [fieldCh, BitVec.ofNat_toNat]
  apply BitVec.eq_of_getLsbD_eq
  intro k hk
  interval_cases k <;> simp

theorem sideBits (w : Word) :
    BitVec.ofNat 32 (sideBit (fieldSide w)) <<< 13 = w &&& 0x2000#32 := by
  apply BitVec.eq_of_getLsbD_eq
  intro k hk
  unfold fieldSide
  cases h : w[13] <;> interval_cases k <;> simp [sideBit, h]

theorem valBits (w : Word) : BitVec.ofNat 32 (fieldVal w).toNat <<< 14 = w &&& 0x4000#32 := by
  apply BitVec.eq_of_getLsbD_eq
  intro k hk
  unfold fieldVal
  cases h : w[14] <;> interval_cases k <;> simp [h]

/-! ### Encode, then decode -/

/-- A word of the format decodes to the command whose fields it carries; there are 32 channels, two sides
and two sample values. -/
theorem decodeWord_encodeWord {i : Instr} (h : i.wf = true) : decodeWord (encodeWord i) = some i := by
  cases i with
  | nop | tick | init => decide
  | cal ch =>
    have hall : ∀ ch < 32, decodeWord (encodeWord (.cal ch)) = some (.cal ch) := by decide
    exact hall ch (of_decide_eq_true h)
  | bufReset ch side =>
    have hall : ∀ ch < 32, decodeWord (encodeWord (.bufReset ch side)) = some (.bufReset ch side) := by
      cases side <;> decide
    exact hall ch (of_decide_eq_true h)
  | bufPush ch side val =>
    have hall : ∀ ch < 32,
        decodeWord (encodeWord (.bufPush ch side val)) = some (.bufPush ch side val) := by
      cases side <;> cases val <;> decide
    exact hall ch (of_decide_eq_true h)

/-- Settles O1. -/
theorem encodeThenDecodeGivesTheCommand : Obligations.EncodeThenDecodeGivesTheCommand :=
  fun _ rest h => decode_of_decodeWord rest (decodeWord_encodeWord h)

/-! ### Decode, then encode -/

theorem fieldCh_lt (w : Word) : fieldCh w < 32 := (w.extractLsb' 8 5).isLt

/-- The fields of the format, put together, are the bits that belong to them. -/
theorem commandWord_fields (w : Word) (op : Nat) {side val m : Word} {s v : Nat}
    (hside : BitVec.ofNat 32 s <<< 13 = w &&& side) (hval : BitVec.ofNat 32 v <<< 14 = w &&& val)
    (hop : w &&& m = BitVec.ofNat 32 op) (hm : m ||| 0x1F00#32 ||| side ||| val = BitVec.allOnes 32) :
    commandWord op (fieldCh w) s v = w := by
  rw [commandWord, chBits, hside, hval, ← hop, ← BitVec.and_or_distrib_left,
    ← BitVec.and_or_distrib_left, ← BitVec.and_or_distrib_left, hm, BitVec.and_allOnes]

/-- Settles O2: the row's mask and the operand fields its command uses are together all 32 bits. -/
theorem decodeThenEncodeGivesTheWord : Obligations.DecodeThenEncodeGivesTheWord := by
  intro w i h
  have hch : channelFits (fieldCh w) = true := decide_eq_true (fieldCh_lt w)
  have hnone : ∀ k : Nat, BitVec.ofNat 32 0 <<< k = w &&& 0#32 := by simp
  obtain ⟨r, hr, hmatch, hread⟩ := exists_row_of_decodeWord h
  simp only [opcodeMap, List.mem_cons, List.not_mem_nil, or_false] at hr
  obtain rfl | rfl | rfl | rfl | rfl | rfl := hr <;> subst hread
  · exact ⟨(eq_pattern_of_rowMatches rfl hmatch).symm ▸ by decide, rfl⟩
  · exact ⟨(eq_pattern_of_rowMatches rfl hmatch).symm ▸ by decide, rfl⟩
  · exact ⟨commandWord_fields w 2 (hnone 13) (hnone 14) (eq_of_beq hmatch) (by decide), hch⟩
  · exact ⟨commandWord_fields w 3 (sideBits w) (hnone 14) (eq_of_beq hmatch) (by decide), hch⟩
  · exact ⟨commandWord_fields w 4 (sideBits w) (valBits w) (eq_of_beq hmatch) (by decide), hch⟩
  · exact ⟨(eq_pattern_of_rowMatches rfl hmatch).symm ▸ by decide, rfl⟩

/-! ### Disjoint rows and ILLEGAL words -/

/-- Settles O3: every mask covers OP, and no two rows have the same OP. -/
theorem atMostOneRowMatches : Obligations.AtMostOneRowMatches := by
  intro w
  have hops : opcodeMap.Pairwise fun r r' => fieldOp r.pattern ≠ fieldOp r'.pattern := by decide
  refine hops.imp_of_mem fun {r r'} hr hr' hne ⟨hmatch, hmatch'⟩ => hne ?_
  rw [← fieldOp_of_rowMatches hr hmatch, fieldOp_of_rowMatches hr' hmatch']

/-- A word by the fields of R80, CH, SIDE and VAL as one. -/
theorem word_eq_iff_fields {v w : Word} : v = w ↔
    fieldOp v = fieldOp w ∧ v.extractLsb' 4 4 = w.extractLsb' 4 4 ∧
      v.extractLsb' 8 7 = w.extractLsb' 8 7 ∧ v.extractLsb' 15 17 = w.extractLsb' 15 17 := by
  refine ⟨fun h => by simp [h], fun ⟨hop, hlow, hoperand, hhigh⟩ => ?_⟩
  have hop := BitVec.eq_of_toNat_eq hop
  apply BitVec.eq_of_getLsbD_eq
  intro k hk
  have hfield : ∀ {a n : Nat}, v.extractLsb' a n = w.extractLsb' a n → a ≤ k → k < a + n →
      v.getLsbD k = w.getLsbD k := fun {a n} h ha hn => by
    have hbit := congrArg (·.getLsbD (k - a)) h
    simpa [BitVec.getLsbD_extractLsb', show k - a < n by omega, Nat.add_sub_cancel' ha] using hbit
  rcases Nat.lt_or_ge k 4 with h4 | h4
  · exact hfield hop (Nat.zero_le k) (by omega)
  rcases Nat.lt_or_ge k 8 with h8 | h8
  · exact hfield hlow h4 (by omega)
  rcases Nat.lt_or_ge k 15 with h15 | h15
  · exact hfield hoperand h8 (by omega)
  · exact hfield hhigh h15 (by omega)

/-- A row whose mask covers OP and the reserved bits selects the words with its OP, no reserved bit, and
no bit in the operand fields its command does not use (R83, R84). -/
theorem rowMatches_iff {w : Word} {r : OpRow} (hr : r ∈ opcodeMap) : rowMatches w r = true ↔
    fieldOp w = fieldOp r.pattern ∧ w.extractLsb' 4 4 = 0 ∧
      w.extractLsb' 8 7 &&& r.mask.extractLsb' 8 7 = 0 ∧ w.extractLsb' 15 17 = 0 := by
  have hrow : ∀ r ∈ opcodeMap, (r.mask.extractLsb' 0 4 = BitVec.allOnes 4 ∧
      r.mask.extractLsb' 4 4 = BitVec.allOnes 4 ∧ r.mask.extractLsb' 15 17 = BitVec.allOnes 17) ∧
      r.pattern.extractLsb' 4 4 = 0 ∧ r.pattern.extractLsb' 8 7 = 0 ∧
      r.pattern.extractLsb' 15 17 = 0 := by decide
  obtain ⟨⟨hm, hm', hm''⟩, hp, hp', hp''⟩ := hrow r hr
  rw [rowMatches, beq_iff_eq, word_eq_iff_fields, fieldOp]
  simp only [BitVec.extractLsb'_and, hm, hm', hm'', hp, hp', hp'', BitVec.and_allOnes, fieldOp]

/-- No row selects a word that stands for no command. -/
theorem decodeWord_eq_none_iff {w : Word} : decodeWord w = none ↔ ∀ r ∈ opcodeMap,
    ¬(fieldOp w = fieldOp r.pattern ∧ w.extractLsb' 4 4 = 0 ∧
      w.extractLsb' 8 7 &&& r.mask.extractLsb' 8 7 = 0 ∧ w.extractLsb' 15 17 = 0) := by
  rw [decodeWord, Option.map_eq_none_iff, List.find?_eq_none]
  exact forall₂_congr fun r hr => not_congr (rowMatches_iff hr)

/-- The operand bits a row of the opcode map forbids, in the map's order (R83, R85). -/
theorem forall_opcodeMap_iff {P : Nat → BitVec 7 → Prop} :
    (∀ r ∈ opcodeMap, P (fieldOp r.pattern) (r.mask.extractLsb' 8 7)) ↔
      P 0 0x7F#7 ∧ P 1 0x7F#7 ∧ P 2 0x60#7 ∧ P 3 0x40#7 ∧ P 4 0#7 ∧ P 5 0x7F#7 := by
  have hrows : opcodeMap.map (fun r => (fieldOp r.pattern, r.mask.extractLsb' 8 7)) =
      [(0, 0x7F#7), (1, 0x7F#7), (2, 0x60#7), (3, 0x40#7), (4, 0#7), (5, 0x7F#7)] := by decide
  have hmap : (∀ r ∈ opcodeMap, P (fieldOp r.pattern) (r.mask.extractLsb' 8 7)) ↔
      ∀ p ∈ opcodeMap.map (fun r => (fieldOp r.pattern, r.mask.extractLsb' 8 7)), P p.1 p.2 := by
    simp only [List.forall_mem_map]
  rw [hmap, hrows]
  simp

/-- SIDE and VAL are the upper two bits of the operand field, VAL the uppermost. -/
theorem operand_bits (w : Word) :
    (w.extractLsb' 8 7 &&& 0x60#7 = 0 ↔ w.extractLsb' 13 2 = 0) ∧
      (w.extractLsb' 8 7 &&& 0x40#7 = 0 ↔ w.extractLsb' 14 1 = 0) := by
  have hall : ∀ x : BitVec 7, (x &&& 0x60#7 = 0 ↔ x.extractLsb' 5 2 = 0) ∧
      (x &&& 0x40#7 = 0 ↔ x.extractLsb' 6 1 = 0) := by decide
  have hfield : ∀ {a n}, a + n ≤ 7 →
      (w.extractLsb' 8 7).extractLsb' a n = w.extractLsb' (8 + a) n := fun {a n} ha => by
    apply BitVec.eq_of_getLsbD_eq
    intro k hk
    simp [BitVec.getLsbD_extractLsb', show a + k < 7 by omega, Nat.add_assoc]
  have h := hall (w.extractLsb' 8 7)
  rwa [hfield (by decide), hfield (by decide)] at h

/-- Settles O4: the word's OP leaves one row at most that could select it, and that row does where no
reserved and no unused bit is one. -/
theorem illegalWordsAreThoseWithReservedBits : Obligations.IllegalWordsAreThoseWithReservedBits := by
  intro w
  obtain ⟨hsideVal, hval⟩ := operand_bits w
  have hall : w.extractLsb' 8 7 &&& 0x7F#7 = w.extractLsb' 8 7 := BitVec.and_allOnes
  rw [decodeWord_eq_none_iff, forall_opcodeMap_iff (P := fun op m => ¬(fieldOp w = op ∧
    w.extractLsb' 4 4 = 0 ∧ w.extractLsb' 8 7 &&& m = 0 ∧ w.extractLsb' 15 17 = 0))]
  simp only [hall, hsideVal, hval, BitVec.and_zero]
  by_cases hop : 6 ≤ fieldOp w
  · simp [hop, show ∀ k < 6, fieldOp w ≠ k by omega]
  · have hlt : fieldOp w < 6 := by omega
    generalize fieldOp w = op at *
    interval_cases op <;> simp <;> tauto

/-! ### The statements on examples and on steps -/

/-- Settles O5. -/
theorem encodingExamples : Obligations.EncodingExamples := by
  unfold Obligations.EncodingExamples
  decide

/-- Settles O6. -/
theorem stepRunsTheDecodedCommand : Obligations.StepRunsTheDecodedCommand := by
  refine ⟨fun s w i rest ⟨hw, hb⟩ hi hd => ?_, fun s n i ⟨hw, hb⟩ hd => ?_⟩
  · rw [step_write_cmd hw hi]
    exact onCmdWrite_legal hb (decodeWord_of_decode hd)
  · rw [State.withFetchWord, step_write_cmd (s := placeCommand _ s) hw (placeCommand_inputs _ s)]
    exact onCmdWrite_legal hb (decodeWord_of_decodeTableWord hd)

end Sys2Proof.Machine
end

section
/-! The buffer primitives and commands, a fill, and the decision constants: the statements about them
(40_buffer.md R101 to R109; 00_scope.md R7). -/

namespace Sys2Proof.Machine

/-! ### Buffers -/

/-- A buffer's sum is at most its capacity. -/
theorem bufferOk.sum_le {n : Nat} {b : Buffer} (h : bufferOk n b) : b.sum.toNat ≤ n := by
  obtain ⟨hlen, _, hsum⟩ := h
  rw [hsum, ← hlen]
  exact List.count_le_length

/-- A push into a buffer that meets its invariant changes the sum by the new sample less the one it
evicts (R101). -/
theorem pushBuffer_sum {n : Nat} (hn : 1 ≤ n ∧ n ≤ 255) {b : Buffer} (h : bufferOk n b) (x : Bool) :
    (pushBuffer n x b).sum.toNat + (b.slots.getD b.cursor.toNat false).toNat =
      b.sum.toNat + x.toNat := by
  obtain ⟨_, _, hsum'⟩ := pushBuffer_ok hn h x
  obtain ⟨hlen, hcur, hsum⟩ := h
  rw [hsum', hsum]
  exact count_set_true (by omega) x

/-- Settles O12. -/
theorem pushEvictsTheOldestSample : Obligations.PushEvictsTheOldestSample := by
  intro n b x h1 h255 h
  have hok := pushBuffer_ok ⟨h1, h255⟩ h x
  exact ⟨pushBuffer_sum ⟨h1, h255⟩ h x, hok.sum_le, rfl, cursor_pushBuffer ⟨h1, h255⟩ x b, hok⟩

/-- Settles O13: a reset does not look at the buffer. -/
theorem resetTwiceIsResetOnce : Obligations.ResetTwiceIsResetOnce := fun _ _ => ⟨rfl, rfl⟩

theorem window_baseline (n : Nat) : window (Buffer.baseline n) = List.replicate n false :=
  List.rotate_zero _

/-- Settles O14: from its oldest sample on, the buffer holds the last N of N zeros and the pushes. -/
theorem sumCountsTheLastPushes : Obligations.SumCountsTheLastPushes := by
  intro n b xs h1 h255
  have hok := baseline_ok h1
  show (pushAll n xs (Buffer.baseline n)).sum.toNat = _
  rw [← window_count (pushAll_ok ⟨h1, h255⟩ xs hok), window_pushAll ⟨h1, h255⟩ xs hok, window_baseline,
    List.drop_append, List.drop_replicate, List.count_append, List.count_replicate,
    List.length_replicate]
  simp [show xs.length - min xs.length n = xs.length - n by omega]

/-! ### The buffer commands -/

/-- An accepted command that changes one buffer. -/
theorem accept_changeBuffer {ch : Nat} {side : Side} {s : State} (hs : accepting s)
    (hc : ch < s.cfg.numChannels) (f : Buffer → Buffer) :
    accept (some ch) (changeBuffer ch side f) s =
      .next (changeBuffer ch side f (raiseCmdError .ok s)) := by
  obtain ⟨hw, hb⟩ := hs
  rw [accept_some, if_neg (by simp [hw]), if_neg (by simp [hb]), if_neg (by omega)]

/-- What a change of one buffer of a channel that exists leaves: that buffer changed, nothing else. -/
theorem changeBuffer_frame {ch : Nat} (side : Side) {s : State} (hc : ch < s.chans.length)
    {f : Buffer → Buffer} {b : Buffer} (hf : f (bufferAt s.chans ch side) = b) :
    ∃ t, changeBuffer ch side f (raiseCmdError .ok s) = t ∧
      t = { s with chans := t.chans, lastErr := 0 } ∧ t.chans.length = s.chans.length ∧
      channelAt t.chans ch = updateBufferOf side (fun _ => b) (channelAt s.chans ch) ∧
      ∀ c, c ≠ ch → channelAt t.chans c = channelAt s.chans c := by
  refine ⟨_, rfl, rfl, updateBuffer_length _ _ _ _, ?_, fun c hne =>
    channelAt_updateChannel_ne hne s.chans _⟩
  subst hf
  refine (channelAt_updateChannel hc _).trans ?_
  cases side <;> rfl

/-- Settles O16. -/
theorem bufResetClearsOneBuffer : Obligations.BufResetClearsOneBuffer := by
  intro ch side s hs hlen hc
  obtain ⟨t, ht, hframe⟩ := changeBuffer_frame side (s := s) (f := resetBuffer s.cfg.samplesNum)
    (hlen ▸ hc) rfl
  exact ⟨t, (accept_changeBuffer hs hc _).trans (congrArg _ ht), hframe⟩

/-- Settles O15. -/
theorem bufPushPushesIntoOneBuffer : Obligations.BufPushPushesIntoOneBuffer := by
  intro ch side val s hs hok hc
  obtain ⟨_, _, hn, _⟩ := configWf_bounds hs.1
  obtain ⟨t, ht, hstate, hlen, hchan, hother⟩ := changeBuffer_frame side (s := s)
    (f := pushBuffer s.cfg.samplesNum val) (hok.1 ▸ hc) rfl
  obtain ⟨_, _, hsum⟩ := pushBuffer_ok hn (channelsOk_bufferAt hok hc side) val
  exact ⟨t, _, (accept_changeBuffer hs hc _).trans (congrArg _ ht), hstate, hlen, hchan, hother, rfl,
    cursor_pushBuffer hn val _, hsum⟩

/-! ### A fill -/

/-- Pushes into one buffer leave the channels as replacing that buffer by what they end with does. -/
theorem updateBuffer_const {chans : List Channel} (c : Nat) (side : Side) (f : Buffer → Buffer) :
    updateBuffer chans c side f = updateBuffer chans c side fun _ => f (bufferAt chans c side) := by
  unfold updateBuffer updateChannel
  apply List.ext_getElem (by simp)
  intro k hk _
  rw [List.getElem_modify, List.getElem_modify]
  split_ifs with h
  · subst h
    simp only [bufferAt, channelAt_eq_getElem (show c < chans.length by simpa using hk)]
    cases side <;> rfl
  · rfl

/-- Settles O17. -/
theorem fillSumIsTheTouchedCount : Obligations.FillSumIsTheTouchedCount := by
  intro cfg c side t e hw hok hc hlen
  obtain ⟨_, _, hn, _⟩ := configWf_bounds hw
  have hb := channelsOk_bufferAt hok hc side
  have htake : (e.replies.take cfg.samplesNum).length = cfg.samplesNum := List.length_take_of_le hlen
  refine ⟨pushAll cfg.samplesNum (e.replies.take cfg.samplesNum) (bufferAt e.chans c side), ?_,
    pushAll_sum hn hb _ htake, ?_, pushAll_ok hn _ hb⟩
  · rw [fill_done cfg c side t e hlen, updateBuffer_const]
  · apply BitVec.eq_of_toNat_eq
    have ⟨_, hcur, _⟩ := hb
    rw [cursor_pushAll hn _ hb, htake, Nat.add_mod_right, Nat.mod_eq_of_lt hcur]

/-! ### The decision constants -/

/-- A floor_div by 100 compares an integer with a fraction exactly, and lies in 0..N for one of 0..N. -/
theorem floorDiv_hundred {a n : Int} (h0 : 0 ≤ a) (hn : a ≤ n * 100) :
    (∀ s : Int, s ≤ floorDiv a 100 ↔ 100 * s ≤ a) ∧ 0 ≤ floorDiv a 100 ∧ floorDiv a 100 ≤ n := by
  have hle := floorDiv_le a (b := 100) (by decide)
  have hlt := lt_floorDiv_add_one a (b := 100) (by decide)
  exact ⟨fun s => by omega, by omega, by omega⟩

theorem ceilDiv_hundred {a n : Int} (h0 : 0 ≤ a) (hn : a ≤ n * 100) :
    (∀ s : Int, ceilDiv a 100 ≤ s ↔ a ≤ 100 * s) ∧ 0 ≤ ceilDiv a 100 ∧ ceilDiv a 100 ≤ n := by
  have hle := le_ceilDiv a (b := 100) (by decide)
  have hlt := ceilDiv_sub_one_lt a (b := 100) (by decide)
  exact ⟨fun s => by omega, by omega, by omega⟩

/-- A share of at most 100 percent of N samples. -/
theorem share_range (n : Nat) {p : Nat} (hp : p ≤ 100) :
    (0 : Int) ≤ (n : Int) * p ∧ (n : Int) * p ≤ n * 100 := by
  exact ⟨by positivity, by exact_mod_cast Nat.mul_le_mul_left n hp⟩

/-- Settles O18. -/
theorem decisionConstantsAreExact : Obligations.DecisionConstantsAreExact := by
  intro cfg hw
  obtain ⟨_, _, _, hlow, hhigh, _⟩ := configWf_bounds hw
  have hr := share_range cfg.samplesNum (p := 10) (by decide)
  have hl := share_range cfg.samplesNum hlow
  have hh := share_range cfg.samplesNum hhigh
  have hp := share_range cfg.samplesNum (p := 90) (by decide)
  obtain ⟨hrel, hrel'⟩ := floorDiv_hundred hr.1 hr.2
  obtain ⟨hlow, hlow'⟩ := floorDiv_hundred hl.1 hl.2
  obtain ⟨hhigh, hhigh'⟩ := ceilDiv_hundred hh.1 hh.2
  obtain ⟨hpress, hpress'⟩ := ceilDiv_hundred hp.1 hp.2
  refine ⟨fun s _ => ⟨?_, ?_, ?_, ?_, ?_⟩, hrel', hlow', hhigh', hpress'⟩
  · exact (hrel s).trans (by norm_cast)
  · exact (hlow s).trans (by norm_cast)
  · exact (not_le.symm.trans (not_congr (hlow s))).trans (by norm_cast; exact not_le)
  · exact (hhigh s).trans (by norm_cast)
  · exact (hpress s).trans (by norm_cast)

end Sys2Proof.Machine
end

section
/-! The coarse search, iteration by iteration: its READs, its ordered bracket, its temporaries, and the
statements about it (41_calibrator.md R122 to R128; 10_state.md R33). -/

namespace Sys2Proof.Machine

/-! ### The two updates -/

/-- The bracket of R128: the search's values in their order, all of them bytes. -/
abbrev Ordered (q : Search) : Prop :=
  0 ≤ q.highestLow ∧ q.highestLow ≤ q.lo ∧ q.lo < q.hi ∧ q.hi ≤ q.lowestHigh ∧ q.lowestHigh ≤ 255

theorem searchStart_ordered : Ordered searchStart := by decide

theorem probeLow_true (q : Search) :
    probeLow true q = { q with highestLow := q.lo, lo := q.lo + floorDiv (q.hi - q.lo) 2 } := rfl

theorem probeLow_false (q : Search) :
    probeLow false q = { q with lo := floorDiv (q.lo + q.highestLow) 2 } := rfl

theorem probeHigh_true (q : Search) :
    probeHigh true q = { q with hi := ceilDiv (q.hi + q.lowestHigh) 2 } := rfl

theorem probeHigh_false (q : Search) :
    probeHigh false q = { q with lowestHigh := q.hi, hi := q.hi - floorDiv (q.hi - q.lo) 2 } := rfl

theorem probeLow_hi (a : Bool) (q : Search) : (probeLow a q).hi = q.hi := by cases a <;> rfl

/-- The low-side update stays in its part of the bracket: below hi when it goes up, above highest_low when
it goes down. -/
theorem probeLow_ordered {q : Search} (h : Ordered q) (a : Bool) : Ordered (probeLow a q) := by
  obtain ⟨h0, hlow, hlt, hhigh, h255⟩ := h
  cases a with
  | true =>
    have hle := floorDiv_le (q.hi - q.lo) (b := 2) (by decide)
    have hgt := lt_floorDiv_add_one (q.hi - q.lo) (b := 2) (by decide)
    simp only [probeLow_true, Ordered]
    omega
  | false =>
    have hle := floorDiv_le (q.lo + q.highestLow) (b := 2) (by decide)
    have hgt := lt_floorDiv_add_one (q.lo + q.highestLow) (b := 2) (by decide)
    simp only [probeLow_false, Ordered]
    omega

theorem probeHigh_ordered {q : Search} (h : Ordered q) (b : Bool) : Ordered (probeHigh b q) := by
  obtain ⟨h0, hlow, hlt, hhigh, h255⟩ := h
  cases b with
  | true =>
    have hge := le_ceilDiv (q.hi + q.lowestHigh) (b := 2) (by decide)
    have hlt' := ceilDiv_sub_one_lt (q.hi + q.lowestHigh) (b := 2) (by decide)
    simp only [probeHigh_true, Ordered]
    omega
  | false =>
    have hle := floorDiv_le (q.hi - q.lo) (b := 2) (by decide)
    have hgt := lt_floorDiv_add_one (q.hi - q.lo) (b := 2) (by decide)
    simp only [probeHigh_false, Ordered]
    omega

/-- An ordered bracket never needs the cross-over recovery (R128). -/
theorem searchStep_eq {q : Search} (h : Ordered q) (a b : Bool) :
    searchStep a b q = probeHigh b (probeLow a q) := by
  have ⟨_, _, hlt, _⟩ := probeHigh_ordered (probeLow_ordered h a) b
  exact crossOver_of_lt hlt

theorem searchStep_ordered {q : Search} (h : Ordered q) (a b : Bool) :
    Ordered (searchStep a b q) := by
  rw [searchStep_eq h]
  exact probeHigh_ordered (probeLow_ordered h a) b

/-! ### One iteration -/

section
variable (cfg : Params) (c : Nat) {k : Nat} {q : Search} {e : Eng}

/-- The search sets the temporaries before anything else, so it does not matter what they were. -/
theorem coarse_temps (k : Nat) (q : Search) (e : Eng) (t : Option CalTemps) :
    coarse cfg c k q { e with temps := t } = coarse cfg c k q e := by
  cases k with
  | zero => rfl
  | succ k => unfold coarse; rfl

/-- With MAX_PROBE_STEPS iterations made, or a closed bracket, the search ends (R124). -/
theorem coarse_stops (e : Eng) (h : k = 0 ∨ q.hi ≤ q.lo + 1) :
    ∃ temps, coarse cfg c k q e = .done q { e with temps := temps } := by
  cases k with
  | zero => exact ⟨_, rfl⟩
  | succ k =>
    refine ⟨(holdTemps (cfg.maxProbeSteps - (k + 1)) q e).temps, ?_⟩
    rw [coarse, if_neg (by omega)]
    rfl

/-- An open bracket and no answer: the search waits on the READ at lo. -/
theorem coarse_none (h : q.lo + 1 < q.hi) (hr : e.replies = []) : coarse cfg c (k + 1) q e =
    .waiting (.read (pinOf cfg c) (byte q.lo)) (holdTemps (cfg.maxProbeSteps - k) q e) := by
  rw [coarse, if_pos h, sense_nil (e := holdTemps _ q e) _ _ hr]
  rfl

/-- One answer: the low side is updated, and the search waits on the READ at hi. -/
theorem coarse_one (h : q.lo + 1 < q.hi) {a : Bool} (hr : e.replies = [a]) :
    coarse cfg c (k + 1) q e = .waiting (.read (pinOf cfg c) (byte q.hi))
      (holdTemps (cfg.maxProbeSteps - k) (probeLow a q)
        { e with replies := [], log := .read (pinOf cfg c) (byte q.lo) a :: e.log }) := by
  rw [coarse, if_pos h, sense_cons (e := holdTemps _ q e) _ _ hr]
  rfl

/-- Two answers: the search goes on from both updates. -/
theorem coarse_two (h : q.lo + 1 < q.hi) {a b : Bool} {rest : List Bool}
    (hr : e.replies = a :: b :: rest) :
    coarse cfg c (k + 1) q e = coarse cfg c k (searchStep a b q)
      { e with
        replies := rest
        log := .read (pinOf cfg c) (byte q.hi) b :: .read (pinOf cfg c) (byte q.lo) a :: e.log } := by
  rw [coarse, if_pos h, sense_cons (e := holdTemps _ q e) _ _ hr]
  exact coarse_temps cfg c k _ { e with
    replies := rest
    log := .read (pinOf cfg c) (byte q.hi) b :: .read (pinOf cfg c) (byte q.lo) a :: e.log } _

/-- All that an open bracket with an iteration left can meet: no answer, one, or two and more. -/
theorem coarse_cases (k : Nat) (h : q.lo + 1 < q.hi) (e : Eng) :
    (coarse cfg c (k + 1) q e =
      .waiting (.read (pinOf cfg c) (byte q.lo)) (holdTemps (cfg.maxProbeSteps - k) q e)) ∨
    (∃ a e₁, coarse cfg c (k + 1) q e = .waiting (.read (pinOf cfg c) (byte q.hi))
      (holdTemps (cfg.maxProbeSteps - k) (probeLow a q) e₁)) ∨
    ∃ a b e₁, e.replies = a :: b :: e₁.replies ∧
      coarse cfg c (k + 1) q e = coarse cfg c k (searchStep a b q) e₁ := by
  match hr : e.replies with
  | [] => exact .inl (coarse_none cfg c h hr)
  | [a] => exact .inr (.inl ⟨a, _, coarse_one cfg c h hr⟩)
  | a :: b :: rest => exact .inr (.inr ⟨a, b, _, rfl, coarse_two cfg c h hr⟩)

end

/-! ### The search as a whole -/

/-- A search that ends has kept its bracket and has taken two answers an iteration (R124, R128). -/
theorem coarse_done {cfg : Params} {c k : Nat} {q q' : Search} {e e' : Eng} (hq : Ordered q)
    (h : coarse cfg c k q e = .done q' e') :
    Ordered q' ∧ ∃ n ≤ k, e.replies.length = e'.replies.length + 2 * n := by
  induction k generalizing q e with
  | zero => cases h; exact ⟨hq, 0, le_rfl, rfl⟩
  | succ k ih =>
    by_cases hopen : q.lo + 1 < q.hi
    · rcases coarse_cases cfg c k hopen e with hrun | ⟨a, e₁, hrun⟩ | ⟨a, b, e₁, hr, hrun⟩
      · cases hrun.symm.trans h
      · cases hrun.symm.trans h
      · obtain ⟨hq', n, hn, hlen⟩ := ih (searchStep_ordered hq a b) (hrun.symm.trans h)
        exact ⟨hq', n + 1, by omega, by simp [hr, hlen]; omega⟩
    · obtain ⟨temps, hrun⟩ := coarse_stops cfg c (k := k + 1) e (.inr (not_lt.1 hopen))
      cases hrun.symm.trans h
      exact ⟨hq, 0, Nat.zero_le _, rfl⟩

/-- Settles O19: each midpoint is a floor_div or a ceil_div by 2; the bracket is kept by every
iteration. -/
theorem coarseSearchStaysOrdered : Obligations.CoarseSearchStaysOrdered := by
  refine ⟨by decide, fun q => ⟨⟨_, probeLow_true q, ?_⟩, ⟨_, probeLow_false q, ?_⟩,
    ⟨_, probeHigh_true q, ?_⟩, ⟨_, probeHigh_false q, ?_⟩⟩, searchStart_ordered,
    fun q a b hq _ => ⟨searchStep_ordered hq a b, searchStep_eq hq a b⟩,
    fun cfg c k q q' e e' hq h => coarse_done hq h⟩
  · have hle := floorDiv_le (q.hi - q.lo) (b := 2) (by decide)
    have hgt := lt_floorDiv_add_one (q.hi - q.lo) (b := 2) (by decide)
    omega
  · have hle := floorDiv_le (q.lo + q.highestLow) (b := 2) (by decide)
    have hgt := lt_floorDiv_add_one (q.lo + q.highestLow) (b := 2) (by decide)
    omega
  · have hge := le_ceilDiv (q.hi + q.lowestHigh) (b := 2) (by decide)
    have hlt := ceilDiv_sub_one_lt (q.hi + q.lowestHigh) (b := 2) (by decide)
    omega
  · have hle := floorDiv_le (q.hi - q.lo) (b := 2) (by decide)
    have hgt := lt_floorDiv_add_one (q.hi - q.lo) (b := 2) (by decide)
    omega

theorem byte_le_byte {a b : Int} (h0 : 0 ≤ a) (hab : a ≤ b) (hb : b ≤ 255) : byte a ≤ byte b := by
  have ha := byte_toNat h0 (by omega)
  have hb := byte_toNat (v := b) (by omega) hb
  rw [BitVec.le_def]
  omega

/-- What the temporaries say of the probe the search waits on (10_state.md R33). -/
abbrev ProbeHeld (cfg : Params) (c : Nat) (req : SenseReq) (e : Eng) : Prop :=
  ∃ (t : CalTemps) (thr : Byte), e.temps = some t ∧ req = .read (pinOf cfg c) thr ∧
    t.highestLow ≤ thr ∧ thr ≤ t.lowestHigh ∧ 1 ≤ t.probeCount.toNat ∧
    t.probeCount.toNat ≤ cfg.maxProbeSteps

/-- Temporaries held for an ordered bracket, a probe inside it outstanding. -/
theorem probeHeld_holdTemps {cfg : Params} (hw : configWf cfg = true) (c : Nat) {n : Nat} {q : Search}
    (hq : Ordered q) {v : Int} (hlo : q.highestLow ≤ v) (hhi : v ≤ q.lowestHigh) (hn : 1 ≤ n)
    (hn' : n ≤ cfg.maxProbeSteps) (e : Eng) :
    ProbeHeld cfg c (.read (pinOf cfg c) (byte v)) (holdTemps n q e) := by
  obtain ⟨h0, _, _, _, h255⟩ := hq
  obtain ⟨_, _, _, _, _, _, _, _, _, hprobe⟩ := configWf_bounds hw
  have hcount := byte_ofNat_toNat (n := n) (by omega)
  exact ⟨_, _, rfl, rfl, byte_le_byte h0 hlo (by omega), byte_le_byte (by omega) hhi h255,
    by rw [hcount]; exact hn, by rw [hcount]; exact hn'⟩

theorem coarse_waiting {cfg : Params} (hw : configWf cfg = true) {c k : Nat}
    (hk : k ≤ cfg.maxProbeSteps) {q : Search} (hq : Ordered q) {e e' : Eng} {req : SenseReq}
    (h : coarse cfg c k q e = .waiting req e') : ProbeHeld cfg c req e' := by
  induction k generalizing q e with
  | zero => cases h
  | succ k ih =>
    by_cases hopen : q.lo + 1 < q.hi
    · rcases coarse_cases cfg c k hopen e with hrun | ⟨a, e₁, hrun⟩ | ⟨a, b, e₁, _, hrun⟩
      · have ⟨_, hlow, hlt, hhigh, _⟩ := hq
        cases hrun.symm.trans h
        exact probeHeld_holdTemps hw c hq hlow (by omega) (by omega) (by omega) e
      · have hq' := probeLow_ordered hq a
        have ⟨_, hlow, hlt, hhigh, _⟩ := hq'
        cases hrun.symm.trans h
        rw [← probeLow_hi a q]
        exact probeHeld_holdTemps hw c hq' (by omega) hhigh (by omega) (by omega) e₁
      · exact ih (by omega) (searchStep_ordered hq a b) (hrun.symm.trans h)
    · obtain ⟨temps, hrun⟩ := coarse_stops cfg c (k := k + 1) e (.inr (not_lt.1 hopen))
      cases hrun.symm.trans h

/-- Settles O20. -/
theorem probesLieBetweenTheTemporaries : Obligations.ProbesLieBetweenTheTemporaries :=
  fun _ _ _ _ _ _ _ hw hk h0 hlow hlt hhigh h255 h =>
    coarse_waiting hw hk ⟨h0, hlow, hlt, hhigh, h255⟩ h

/-- Settles O59. -/
theorem coarseIterationReadsLowThenHigh : Obligations.CoarseIterationReadsLowThenHigh := by
  refine fun cfg c k q e => ⟨fun hopen => ⟨fun hr => ?_, fun a hr => ?_,
    fun a b rest hr => coarse_two cfg c hopen hr⟩, coarse_stops cfg c e, rfl⟩
  · rw [coarse_none cfg c hopen hr, Run.request_waiting]
  · rw [coarse_one cfg c hopen hr, Run.request_waiting]

end Sys2Proof.Machine
end

section
/-! The four walks of the fine adjustment as one walk, what it does fill by fill and on a source that
answers by threshold, and the statements about the walks (41_calibrator.md R129 to R134, R141). -/

namespace Sys2Proof.Machine

/-! ### One walk for the four -/

/-- A walk with n thresholds left, the next one `val (n - 1)`: it fills there and goes on while `go` holds
of the sum; it ends at its last threshold, or where `go` fails, `back` thresholds before that one. -/
def walk (cfg : Params) (c : Nat) (side : Side) (go : Nat → Bool) (val : Nat → Int) (back : Nat) :
    Nat → Eng → Run Int
  | 0, e => .done (val 0) e
  | n + 1, e =>
    (fill cfg c side (byte (val n)) e).andThen fun _ e =>
      if go (sumAt e.chans c side) then walk cfg c side go val back n e else .done (val (n + back)) e

/-- Thresholds counted from 255 down, and from 0 up. -/
def fromTop (n : Nat) : Int := 255 - n

def fromBottom (n : Nat) : Int := n

section
variable (cfg : Params) (c n : Nat) (e : Eng)

theorem lowWalkUp_eq_walk :
    lowWalkUp cfg c n e = walk cfg c .low (lowOK cfg) fromTop 1 n e := by
  induction n generalizing e with
  | zero => rfl
  | succ n ih =>
    rw [lowWalkUp, walk]
    simp only [ih]
    rfl

theorem lowWalkDown_eq_walk :
    lowWalkDown cfg c n e = walk cfg c .low (fun s => !lowOK cfg s) fromBottom 0 n e := by
  induction n generalizing e with
  | zero => rfl
  | succ n ih =>
    simp only [lowWalkDown, walk, ih, fromBottom, Bool.not_eq_true', Nat.add_zero]
    congr 1
    funext _ e
    cases lowOK cfg (sumAt e.chans c .low) <;> rfl

theorem highWalkUp_eq_walk :
    highWalkUp cfg c n e = walk cfg c .high (fun h => !highOK cfg h) fromTop 0 n e := by
  induction n generalizing e with
  | zero => rfl
  | succ n ih =>
    simp only [highWalkUp, walk, ih, fromTop, Bool.not_eq_true', Nat.add_zero]
    congr 1
    funext _ e
    cases highOK cfg (sumAt e.chans c .high) <;> rfl

theorem highWalkDown_eq_walk :
    highWalkDown cfg c n e = walk cfg c .high (highOK cfg) fromBottom 1 n e := by
  induction n generalizing e with
  | zero => rfl
  | succ n ih =>
    rw [highWalkDown, walk]
    simp only [ih]
    rfl

end

/-! ### A walk fill by fill -/

/-- All that k completed fills of buf(c, side), the j-th at `thr j`, have done between e and e'. -/
structure Rounds (cfg : Params) (c : Nat) (thr : Nat → Int) (k : Nat) (e e' : Eng) : Prop where
  enough : k * cfg.samplesNum ≤ e.replies.length
  replies : e'.replies = e.replies.drop (k * cfg.samplesNum)
  log : e'.log = (fillEvents cfg c thr e.replies k).reverse ++ e.log

theorem Rounds.zero (cfg : Params) (c : Nat) (thr : Nat → Int) (e : Eng) :
    Rounds cfg c thr 0 e e :=
  ⟨by simp, by simp, by simp⟩

theorem Filled.thenRounds {cfg : Params} {c : Nat} {side : Side} {thr : Nat → Int} {k : Nat}
    {e e₁ e' : Eng} (F : Filled cfg c side (byte (thr 0)) e e₁)
    (R : Rounds cfg c (fun j => thr (j + 1)) k e₁ e') : Rounds cfg c thr (k + 1) e e' := by
  have hmul : (k + 1) * cfg.samplesNum = cfg.samplesNum + k * cfg.samplesNum := by ring
  have henough := R.enough
  have hdrop := F.enough
  rw [F.replies, List.length_drop] at henough
  refine ⟨by omega, ?_, ?_⟩
  · rw [R.replies, F.replies, List.drop_drop, hmul]
  · rw [R.log, F.log, F.replies, fillEvents_succ, List.reverse_append, List.append_assoc]

theorem Rounds.congr {cfg : Params} {c : Nat} {thr thr' : Nat → Int} {k : Nat} {e e' : Eng}
    (R : Rounds cfg c thr k e e') (h : ∀ j < k, thr j = thr' j) : Rounds cfg c thr' k e e' := by
  refine ⟨R.enough, R.replies, ?_⟩
  have hevents : fillEvents cfg c thr e.replies k = fillEvents cfg c thr' e.replies k :=
    List.flatMap_congr fun j hj => by rw [h j (List.mem_range.1 hj)]
  rw [R.log, hevents]

/-- A walk that ends has gone on past m thresholds, whose sums `go` held of, to the first one it fails on
or to the last one. -/
theorem walk_done {cfg : Params} (hw : configWf cfg = true) {c : Nat} (hc : c < cfg.numChannels)
    {side : Side} {go : Nat → Bool} {val : Nat → Int} {back n : Nat} {e e' : Eng} {r : Int}
    (hok : channelsOk cfg e.chans) (h : walk cfg c side go val back n e = .done r e') :
    ∃ m ≤ n, (∀ j < m, go ((fillAnswers cfg e.replies j).count true) = true) ∧
      (m < n → go ((fillAnswers cfg e.replies m).count true) = false) ∧
      r = (if m < n then val (n - 1 - m + back) else val 0) ∧
      Rounds cfg c (fun j => val (n - 1 - j)) (min (m + 1) n) e e' ∧ channelsOk cfg e'.chans := by
  induction n generalizing e with
  | zero =>
    cases h
    exact ⟨0, le_rfl, by simp, by simp, rfl, by simpa using Rounds.zero cfg c _ _, hok⟩
  | succ n ih =>
    obtain ⟨_, e₁, h₁, h₂⟩ := Run.andThen_eq_done.1 (show (fill _ _ _ _ _).andThen _ = _ from h)
    have F := fill_filled hw hok hc h₁
    have hsum : sumAt e₁.chans c side = (fillAnswers cfg e.replies 0).count true := by
      rw [F.sum, fillAnswers_zero]
    rw [hsum] at h₂
    split_ifs at h₂ with hgo
    · obtain ⟨m, hm, hwent, hstop, hr, hrounds, hok'⟩ := ih F.ok h₂
      have hanswers : ∀ j, fillAnswers cfg e₁.replies j = fillAnswers cfg e.replies (j + 1) := fun j => by
        rw [F.replies, fillAnswers_drop]
      simp only [hanswers] at hwent hstop
      refine ⟨m + 1, by omega, fun j hj => ?_, fun hlt => hstop (by omega), ?_, ?_, hok'⟩
      · cases j with
        | zero => exact hgo
        | succ j => exact hwent j (by omega)
      · rw [hr]
        simp only [Nat.add_lt_add_iff_right]
        split_ifs
        · congr 1
          omega
        · rfl
      · rw [show min (m + 1 + 1) (n + 1) = min (m + 1) n + 1 by omega]
        refine F.thenRounds (hrounds.congr fun j _ => ?_)
        congr 1
        omega
    · injection h₂ with hr he
      subst hr he
      exact ⟨0, by omega, by simp, fun _ => Bool.eq_false_iff.2 hgo, by simp,
        by simpa using F.thenRounds (Rounds.zero cfg c _ e₁), F.ok⟩

/-! ### Fine adjustment -/

/-- A fine adjustment that ended: both fills, then the two walks, each directed by its own fill (R129). -/
structure FineAdjusted (cfg : Params) (c : Nat) (q : Search) (e e₁ e₂ e' : Eng) (r : Int × Int) :
    Prop where
  replies : e₁.replies = e.replies.drop (2 * cfg.samplesNum)
  log : e₁.log = (readsAt (pinOf cfg c) (byte q.lo) (fillAnswers cfg e.replies 0) ++
    readsAt (pinOf cfg c) (byte q.hi) (fillAnswers cfg e.replies 1)).reverse ++ e.log
  enough : 2 * cfg.samplesNum ≤ e.replies.length
  ok : channelsOk cfg e₁.chans
  lowSum : sumAt e₁.chans c .low = (fillAnswers cfg e.replies 0).count true
  lowDone : lowWalk cfg c q.lo e₁ = .done r.1 e₂
  ok₂ : channelsOk cfg e₂.chans
  highSum : sumAt e₂.chans c .high = (fillAnswers cfg e.replies 1).count true
  highDone : highWalk cfg c q.hi e₂ = .done r.2 e'

section
variable {cfg : Params} (hw : configWf cfg = true) {c : Nat} (hc : c < cfg.numChannels)
include hw hc

theorem fineAdjust_done {q : Search} {e e' : Eng} {r : Int × Int} (hok : channelsOk cfg e.chans)
    (h : fineAdjust cfg c q e = .done r e') : ∃ e₁ e₂, FineAdjusted cfg c q e e₁ e₂ e' r := by
  obtain ⟨_, e₀, h₁, h⟩ := Run.andThen_eq_done.1 (show (fill _ _ _ _ _).andThen _ = _ from h)
  obtain ⟨_, e₁, h₂, h⟩ := Run.andThen_eq_done.1 h
  obtain ⟨lo, e₂, hlow, h⟩ := Run.andThen_eq_done.1 h
  obtain ⟨hi, e₃, hhigh, h⟩ := Run.andThen_eq_done.1 h
  cases h
  have F₁ := fill_filled hw hok hc h₁
  have F₂ := fill_filled hw F₁.ok hc h₂
  have K := lowWalk_keepsHigh hw hc F₂.ok hlow
  have hsecond : fillAnswers cfg e.replies 1 = e₀.replies.take cfg.samplesNum := by
    rw [F₁.replies, ← fillAnswers_zero, fillAnswers_drop]
  have henough := F₂.enough
  rw [F₁.replies, List.length_drop] at henough
  have hfirst := F₁.enough
  refine ⟨e₁, e₂, ?_, ?_, by omega, F₂.ok, ?_, hlow, K.1, ?_, hhigh⟩
  · rw [F₂.replies, F₁.replies, List.drop_drop, Nat.two_mul]
  · rw [F₂.log, F₁.log, hsecond, fillAnswers_zero, List.reverse_append, List.append_assoc]
  · rw [sumAt, F₂.otherSide .low (by decide), fillAnswers_zero]
    exact F₁.sum
  · rw [sumAt, K.2, hsecond]
    exact F₂.sum

end

/-! ### The statements on the walks -/

section
variable (cfg : Params) (c : Nat) (start : Int) {e : Eng}

theorem lowWalk_up (h : lowOK cfg (sumAt e.chans c .low) = true) :
    lowWalk cfg c start e = lowWalkUp cfg c (255 - start).toNat e := if_pos h

theorem lowWalk_down (h : lowOK cfg (sumAt e.chans c .low) = false) :
    lowWalk cfg c start e = lowWalkDown cfg c start.toNat e := if_neg (by simp [h])

theorem highWalk_down (h : highOK cfg (sumAt e.chans c .high) = true) :
    highWalk cfg c start e = highWalkDown cfg c start.toNat e := if_pos h

theorem highWalk_up (h : highOK cfg (sumAt e.chans c .high) = false) :
    highWalk cfg c start e = highWalkUp cfg c (255 - start).toNat e := if_neg (by simp [h])

end

section
variable {cfg : Params} (hw : configWf cfg = true) {c : Nat} (hc : c < cfg.numChannels) {n : Nat}
  {side : Side} {e e' : Eng} {r : Int} (hok : channelsOk cfg e.chans)
include hw hc hok

/-- A walk that goes on while its criterion holds ends at the last threshold where it held. -/
theorem walk_while_done {sat : Nat → Bool} {val : Nat → Int}
    (h : walk cfg c side sat val 1 n e = .done r e') :
    ∃ m rounds, m ≤ n ∧ r = val (n - m) ∧ rounds = min (m + 1) n ∧
      (∀ j < m, sat ((fillAnswers cfg e.replies j).count true) = true) ∧
      (m < n → sat ((fillAnswers cfg e.replies m).count true) = false) ∧
      Rounds cfg c (fun j => val (n - 1 - j)) rounds e e' := by
  obtain ⟨m, hm, hwent, hstop, hr, hrounds, _⟩ := walk_done hw hc hok h
  refine ⟨m, _, hm, ?_, rfl, hwent, hstop, hrounds⟩
  rw [hr]
  split_ifs <;> congr 1 <;> omega

/-- A walk that goes on until its criterion holds ends at the first threshold where it holds. -/
theorem walk_until_done {sat : Nat → Bool} {val : Nat → Int}
    (h : walk cfg c side (fun s => !sat s) val 0 n e = .done r e') :
    ∃ rounds, rounds ≤ n ∧ r = val (n - rounds) ∧
      (∀ j, j + 1 < rounds → sat ((fillAnswers cfg e.replies j).count true) = false) ∧
      (∀ j, j + 1 = rounds → rounds < n →
        sat ((fillAnswers cfg e.replies j).count true) = true) ∧
      (rounds = 0 → n = 0) ∧ Rounds cfg c (fun j => val (n - 1 - j)) rounds e e' := by
  obtain ⟨m, hm, hwent, hstop, hr, hrounds, _⟩ := walk_done hw hc hok h
  refine ⟨min (m + 1) n, by omega, ?_, fun j hj => by simpa using hwent j (by omega),
    fun j hj hlt => ?_, by omega, hrounds⟩
  · rw [hr]
    split_ifs <;> congr 1 <;> omega
  · obtain rfl : j = m := by omega
    simpa using hstop (by omega)

end

/-- Settles O22: the upward walk goes on while LowOK holds, the downward one until it does. -/
theorem lowWalkStopsAtTheCriterion : Obligations.LowWalkStopsAtTheCriterion := by
  refine fun cfg c gap lo e e' r hw hok hc => ⟨fun hgap h => ?up, fun hlo h => ?down,
    fun start => ⟨lowWalk_up cfg c start, lowWalk_down cfg c start⟩, fun q p h => ?fine⟩
  case up =>
    rw [lowWalkUp_eq_walk] at h
    obtain ⟨m, rounds, hm, hr, hrounds, hwent, hstop, R⟩ := walk_while_done hw hc hok h
    have R := R.congr (thr' := fun j => 255 - gap + 1 + j) fun j hj => by simp only [fromTop]; omega
    exact ⟨m, rounds, hm, by rw [hr, fromTop]; omega, hrounds, hwent, hstop, R.replies, R.log⟩
  case down =>
    rw [lowWalkDown_eq_walk] at h
    obtain ⟨rounds, hle, hr, hwent, hstop, hzero, R⟩ := walk_until_done hw hc hok h
    have R := R.congr (thr' := fun j => lo - 1 - j) fun j hj => by simp only [fromBottom]; omega
    rw [fromBottom] at hr
    exact ⟨rounds, hle, by omega, hwent, fun j hj hne => hstop j hj (by omega), hzero, R.replies, R.log⟩
  case fine =>
    obtain ⟨e₁, e₂, A⟩ := fineAdjust_done hw hc hok h
    refine ⟨e₁, e₂, A.replies, A.log, fun hsat => ?_, fun hsat => ?_⟩ <;> rw [← A.lowSum] at hsat
    · exact (lowWalk_up cfg c q.lo hsat).symm.trans A.lowDone
    · exact (lowWalk_down cfg c q.lo hsat).symm.trans A.lowDone

/-- Settles O23: the upward walk goes on until HighOK holds, the downward one while it does. -/
theorem highWalkStopsAtTheCriterion : Obligations.HighWalkStopsAtTheCriterion := by
  refine fun cfg c gap hi e e' r hw hok hc => ⟨fun hgap h => ?up, fun hhi h => ?down,
    fun start => ⟨highWalk_down cfg c start, highWalk_up cfg c start⟩, fun q p h => ?fine⟩
  case up =>
    rw [highWalkUp_eq_walk] at h
    obtain ⟨rounds, hle, hr, hwent, hstop, hzero, R⟩ := walk_until_done hw hc hok h
    have R := R.congr (thr' := fun j => 255 - gap + 1 + j) fun j hj => by simp only [fromTop]; omega
    rw [fromTop] at hr
    exact ⟨rounds, hle, by omega, hwent, fun j hj hne => hstop j hj (by omega), hzero, R.replies, R.log⟩
  case down =>
    rw [highWalkDown_eq_walk] at h
    obtain ⟨m, rounds, hm, hr, hrounds, hwent, hstop, R⟩ := walk_while_done hw hc hok h
    have R := R.congr (thr' := fun j => hi - 1 - j) fun j hj => by simp only [fromBottom]; omega
    exact ⟨m, rounds, hm, by rw [hr, fromBottom]; omega, hrounds, hwent, hstop, R.replies, R.log⟩
  case fine =>
    obtain ⟨e₁, e₂, A⟩ := fineAdjust_done hw hc hok h
    refine ⟨e₁, e₂, A.replies, A.lowDone, fun hsat => ?_, fun hsat => ?_⟩ <;> rw [← A.highSum] at hsat
    · exact (highWalk_down cfg c q.hi hsat).symm.trans A.highDone
    · exact (highWalk_up cfg c q.hi hsat).symm.trans A.highDone

end Sys2Proof.Machine
end

section
/-! The fine adjustment on a source that answers by pin and threshold, and the statement about a fixed
boundary (41_calibrator.md R130, R141). -/

namespace Sys2Proof.Machine

/-! ### What a source answered -/

/-- The history grew from l to l', and a source answered all that is new. -/
def AnsweredBy (src : Source) (l l' : List SenseEvent) : Prop := ∃ new, l' = new ++ l ∧ obeys src new

/-- A history that grew in two parts was answered in both. -/
theorem AnsweredBy.split {src : Source} {l l₁ l' : List SenseEvent} (h : AnsweredBy src l l')
    (h₁ : ∃ new, l₁ = new ++ l) (h₂ : ∃ new, l' = new ++ l₁) :
    AnsweredBy src l l₁ ∧ AnsweredBy src l₁ l' := by
  obtain ⟨new, hnew, ho⟩ := h
  obtain ⟨new₁, rfl⟩ := h₁
  obtain ⟨new₂, rfl⟩ := h₂
  obtain rfl : new = new₂ ++ new₁ := List.append_cancel_right (by rw [← hnew, List.append_assoc])
  exact ⟨⟨new₁, rfl, fun ev hev => ho ev (List.mem_append_right _ hev)⟩,
    ⟨new₂, rfl, fun ev hev => ho ev (List.mem_append_left _ hev)⟩⟩

/-- The sum a fill of channel c at threshold t ends with on a source. -/
def sourceSum (cfg : Params) (src : Source) (c : Nat) (t : Int) : Nat :=
  if src (pinOf cfg c) (byte t) then cfg.samplesNum else 0

/-- N answers that are all the same. -/
theorem count_of_forall_eq {l : List Bool} {b : Bool} {n : Nat} (hl : l.length = n)
    (h : ∀ x ∈ l, x = b) : l.count true = if b then n else 0 := by
  rw [List.eq_replicate_of_mem h, hl, List.count_replicate]
  cases b <;> simp

theorem Rounds.count_of_answeredBy {cfg : Params} {c k : Nat} {thr : Nat → Int} {e e' : Eng}
    (R : Rounds cfg c thr k e e') {src : Source} (h : AnsweredBy src e.log e'.log) {j : Nat}
    (hj : j < k) :
    (fillAnswers cfg e.replies j).count true = sourceSum cfg src c (thr j) := by
  obtain ⟨new, hnew, ho⟩ := h
  obtain rfl : new = (fillEvents cfg c thr e.replies k).reverse :=
    List.append_cancel_right (hnew.symm.trans R.log)
  refine count_of_forall_eq ?_ fun b hb => ?_
  · have hmul : (j + 1) * cfg.samplesNum ≤ k * cfg.samplesNum := Nat.mul_le_mul_right _ hj
    have henough := R.enough
    rw [Nat.succ_mul] at hmul
    rw [fillAnswers, List.length_take, List.length_drop]
    omega
  · have hev : SenseEvent.read (pinOf cfg c) (byte (thr j)) b ∈
        (fillEvents cfg c thr e.replies k).reverse :=
      List.mem_reverse.2 (List.mem_flatMap.2 ⟨j, List.mem_range.2 hj, List.mem_map.2 ⟨b, hb, rfl⟩⟩)
    exact beq_iff_eq.1 (ho _ hev)

/-! ### Where the walks end on a source -/

section
variable {cfg : Params} (hw : configWf cfg = true) {c : Nat} (hc : c < cfg.numChannels) {n : Nat}
  {side : Side} {e e' : Eng} {r : Int} {src : Source} (hok : channelsOk cfg e.chans)
  (hsrc : AnsweredBy src e.log e'.log)
include hw hc hok hsrc

/-- With k thresholds left when it ends, a walk has gone on at every one before, and not at the next. -/
theorem walk_while_answeredBy {sat : Nat → Bool} {val : Nat → Int}
    (h : walk cfg c side sat val 1 n e = .done r e') :
    ∃ k ≤ n, r = val k ∧ (∀ t, k ≤ t → t < n → sat (sourceSum cfg src c (val t)) = true) ∧
      (k ≠ 0 → sat (sourceSum cfg src c (val (k - 1))) = false) := by
  obtain ⟨m, rounds, hm, hr, hrounds, hwent, hstop, R⟩ := walk_while_done hw hc hok h
  refine ⟨n - m, by omega, hr, fun t ht hlt => ?_, fun hk => ?_⟩
  · have hcount := R.count_of_answeredBy hsrc (j := n - 1 - t) (by omega)
    rw [show n - 1 - (n - 1 - t) = t by omega] at hcount
    rw [← hcount]
    exact hwent _ (by omega)
  · have hcount := R.count_of_answeredBy hsrc (j := m) (by omega)
    rw [show n - 1 - m = n - m - 1 by omega] at hcount
    rw [← hcount]
    exact hstop (by omega)

theorem walk_until_answeredBy {sat : Nat → Bool} {val : Nat → Int}
    (h : walk cfg c side (fun s => !sat s) val 0 n e = .done r e') :
    ∃ k ≤ n, r = val k ∧ (∀ t, k < t → t < n → sat (sourceSum cfg src c (val t)) = false) ∧
      (k ≠ 0 → sat (sourceSum cfg src c (val k)) = true) := by
  obtain ⟨rounds, hle, hr, hwent, hstop, hzero, R⟩ := walk_until_done hw hc hok h
  refine ⟨n - rounds, by omega, hr, fun t ht hlt => ?_, fun hk => ?_⟩
  · have hcount := R.count_of_answeredBy hsrc (j := n - 1 - t) (by omega)
    rw [show n - 1 - (n - 1 - t) = t by omega] at hcount
    rw [← hcount]
    exact hwent _ (by omega)
  · have hcount := R.count_of_answeredBy hsrc (j := rounds - 1) (by omega)
    rw [show n - 1 - (rounds - 1) = n - rounds by omega] at hcount
    rw [← hcount]
    exact hstop _ (by omega) (by omega)

end

/-- Where the low side ends from lo when `sat` says at which thresholds LowOK holds (R131, R132). -/
structure LowEnds (sat : Int → Bool) (lo r : Int) : Prop where
  nonneg : 0 ≤ r
  le : r ≤ 255
  up : sat lo = true → lo ≤ r ∧ (∀ t, lo < t → t ≤ r → sat t = true) ∧ (r ≠ 255 → sat (r + 1) = false)
  down : sat lo = false → r ≤ lo ∧ (∀ t, r < t → t < lo → sat t = false) ∧ (r ≠ 0 → sat r = true)

/-- Where the high side ends from hi when `sat` says at which thresholds HighOK holds (R133, R134). -/
structure HighEnds (sat : Int → Bool) (hi r : Int) : Prop where
  nonneg : 0 ≤ r
  le : r ≤ 255
  down : sat hi = true → r ≤ hi ∧ (∀ t, r ≤ t → t < hi → sat t = true) ∧ (r ≠ 0 → sat (r - 1) = false)
  up : sat hi = false → hi ≤ r ∧ (∀ t, hi < t → t < r → sat t = false) ∧ (r ≠ 255 → sat r = true)

section
variable {cfg : Params} (hw : configWf cfg = true) {c : Nat} (hc : c < cfg.numChannels)
  {e e' : Eng} {start r : Int} {src : Source} (hok : channelsOk cfg e.chans)
  (hsrc : AnsweredBy src e.log e'.log) (h0 : 0 ≤ start) (h255 : start ≤ 255)
include hw hc hok hsrc h0 h255

theorem lowWalk_ends (hsum : sumAt e.chans c .low = sourceSum cfg src c start)
    (h : lowWalk cfg c start e = .done r e') :
    LowEnds (fun t => lowOK cfg (sourceSum cfg src c t)) start r := by
  cases hsat : lowOK cfg (sourceSum cfg src c start) with
  | true =>
    rw [lowWalk_up cfg c start (by rw [hsum, hsat]), lowWalkUp_eq_walk] at h
    obtain ⟨k, hk, rfl, hwent, hstop⟩ := walk_while_answeredBy hw hc hok hsrc h
    rw [fromTop]
    refine ⟨by omega, by omega, fun _ => ⟨by omega, fun t ht hle => ?_, fun hne => ?_⟩, by simp [hsat]⟩
    · have hval := hwent (255 - t).toNat (by omega) (by omega)
      rwa [fromTop, show (255 : Int) - ((255 - t).toNat : Nat) = t by omega] at hval
    · have hval := hstop (by omega)
      rwa [fromTop, show (255 : Int) - ((k - 1 : Nat) : Int) = 255 - k + 1 by omega] at hval
  | false =>
    rw [lowWalk_down cfg c start (by rw [hsum, hsat]), lowWalkDown_eq_walk] at h
    obtain ⟨k, hk, rfl, hwent, hstop⟩ := walk_until_answeredBy hw hc hok hsrc h
    rw [fromBottom]
    refine ⟨by omega, by omega, by simp [hsat], fun _ => ⟨by omega, fun t ht hlt => ?_, fun hne => ?_⟩⟩
    · have hval := hwent t.toNat (by omega) (by omega)
      rwa [fromBottom, Int.toNat_of_nonneg (by omega)] at hval
    · exact hstop (by omega)

theorem highWalk_ends (hsum : sumAt e.chans c .high = sourceSum cfg src c start)
    (h : highWalk cfg c start e = .done r e') :
    HighEnds (fun t => highOK cfg (sourceSum cfg src c t)) start r := by
  cases hsat : highOK cfg (sourceSum cfg src c start) with
  | true =>
    rw [highWalk_down cfg c start (by rw [hsum, hsat]), highWalkDown_eq_walk] at h
    obtain ⟨k, hk, rfl, hwent, hstop⟩ := walk_while_answeredBy hw hc hok hsrc h
    rw [fromBottom]
    refine ⟨by omega, by omega, fun _ => ⟨by omega, fun t ht hlt => ?_, fun hne => ?_⟩, by simp [hsat]⟩
    · have hval := hwent t.toNat (by omega) (by omega)
      rwa [fromBottom, Int.toNat_of_nonneg (by omega)] at hval
    · have hval := hstop (by omega)
      rwa [fromBottom, Nat.cast_pred (by omega)] at hval
  | false =>
    rw [highWalk_up cfg c start (by rw [hsum, hsat]), highWalkUp_eq_walk] at h
    obtain ⟨k, hk, rfl, hwent, hstop⟩ := walk_until_answeredBy hw hc hok hsrc h
    rw [fromTop]
    refine ⟨by omega, by omega, by simp [hsat], fun _ => ⟨by omega, fun t ht hlt => ?_, fun hne => ?_⟩⟩
    · have hval := hwent (255 - t).toNat (by omega) (by omega)
      rwa [fromTop, show (255 : Int) - ((255 - t).toNat : Nat) = t by omega] at hval
    · exact hstop (by omega)

end

/-- Where a fine adjustment ends on a source, both sides. -/
theorem fineAdjust_ends {cfg : Params} (hw : configWf cfg = true) {c : Nat} (hc : c < cfg.numChannels)
    {q : Search} {e e' : Eng} {r : Int × Int} {src : Source} (hok : channelsOk cfg e.chans)
    (hsrc : AnsweredBy src e.log e'.log) (h0 : 0 ≤ q.lo) (hlt : q.lo < q.hi) (h255 : q.hi ≤ 255)
    (h : fineAdjust cfg c q e = .done r e') :
    LowEnds (fun t => lowOK cfg (sourceSum cfg src c t)) q.lo r.1 ∧
      HighEnds (fun t => highOK cfg (sourceSum cfg src c t)) q.hi r.2 := by
  obtain ⟨e₁, e₂, A⟩ := fineAdjust_done hw hc hok h
  have hgrow₂ : ∃ new, e₂.log = new ++ e₁.log := by
    simpa [A.lowDone] using (lowWalk_prog cfg c q.lo).log_grows e₁
  have hgrow₃ : ∃ new, e'.log = new ++ e₂.log := by
    simpa [A.highDone] using (highWalk_prog cfg c q.hi).log_grows e₂
  have hgrow : ∃ new, e'.log = new ++ e₁.log := by
    obtain ⟨new₂, h₂⟩ := hgrow₂
    obtain ⟨new₃, h₃⟩ := hgrow₃
    exact ⟨new₃ ++ new₂, by rw [h₃, h₂, List.append_assoc]⟩
  obtain ⟨hfills, hwalks⟩ := hsrc.split ⟨_, A.log⟩ hgrow
  obtain ⟨hlow, hhigh⟩ := hwalks.split hgrow₂ hgrow₃
  have R : Rounds cfg c (fun j => if j = 0 then q.lo else q.hi) 2 e e₁ :=
    ⟨A.enough, A.replies, by simp [A.log, fillEvents, List.range_succ]⟩
  refine ⟨lowWalk_ends hw hc A.ok hlow h0 (by omega) ?_ A.lowDone,
    highWalk_ends hw hc A.ok₂ hhigh (by omega) h255 ?_ A.highDone⟩
  · rw [A.lowSum, R.count_of_answeredBy hfills (by decide)]
    rfl
  · rw [A.highSum, R.count_of_answeredBy hfills (by decide)]
    rfl

/-! ### A fixed boundary -/

/-- LowOK and HighOK at a fill that is all zeros, and at one that is all ones, where the fractions leave
room (R130). -/
theorem lowOK_zero {cfg : Params} (hw : configWf cfg = true) : lowOK cfg 0 = false := by
  obtain ⟨_, _, ⟨hlow, _⟩, _⟩ := decisionConstantsAreExact cfg hw
  exact decide_eq_false (by omega)

theorem lowOK_samplesNum {cfg : Params} (hw : configWf cfg = true) (hlow : cfg.lowFractionPct < 100) :
    lowOK cfg cfg.samplesNum = true := by
  obtain ⟨hexact, _⟩ := decisionConstantsAreExact cfg hw
  obtain ⟨_, _, hgt, _⟩ := hexact cfg.samplesNum le_rfl
  obtain ⟨_, _, ⟨hn, _⟩, _⟩ := configWf_bounds hw
  exact decide_eq_true (hgt.2 (by nlinarith))

theorem highOK_zero {cfg : Params} (hw : configWf cfg = true) (hhigh : 0 < cfg.highFractionPct) :
    highOK cfg 0 = true := by
  obtain ⟨hexact, _⟩ := decisionConstantsAreExact cfg hw
  obtain ⟨_, _, _, hge, _⟩ := hexact 0 (Nat.zero_le _)
  obtain ⟨_, _, ⟨hn, _⟩, _⟩ := configWf_bounds hw
  exact decide_eq_true (lt_of_not_ge fun hle => absurd (hge.1 hle) (by nlinarith))

theorem highOK_samplesNum {cfg : Params} (hw : configWf cfg = true) :
    highOK cfg cfg.samplesNum = false := by
  obtain ⟨_, _, _, ⟨_, hhigh⟩, _⟩ := decisionConstantsAreExact cfg hw
  exact decide_eq_false (by omega)

section
variable {sat : Int → Bool} {start r B : Int} (hB : 0 ≤ B ∧ B ≤ 254) (hstart : 0 ≤ start ∧ start ≤ 255)
include hB hstart

/-- Where LowOK holds up to B and no further, the low side ends at B. -/
theorem LowEnds.eq_boundary (h : LowEnds sat start r)
    (hsat : ∀ t, 0 ≤ t → t ≤ 255 → (sat t = true ↔ t ≤ B)) : r = B := by
  have hunsat : ∀ t, 0 ≤ t → t ≤ 255 → (sat t = false ↔ B < t) := fun t h0 h255 => by
    rw [← Bool.not_eq_true, hsat t h0 h255, not_le]
  obtain ⟨hr, hr', hup, hdown⟩ := h
  rcases le_or_gt start B with hle | hgt
  · obtain ⟨hge, hall, hnext⟩ := hup ((hsat _ hstart.1 hstart.2).2 hle)
    have hrB : r ≤ B := by
      rcases eq_or_lt_of_le hge with rfl | hlt
      · exact hle
      · exact (hsat r hr hr').1 (hall r hlt le_rfl)
    have := (hunsat (r + 1) (by omega) (by omega)).1 (hnext (by omega))
    omega
  · obtain ⟨hle, hall, hnext⟩ := hdown ((hunsat _ hstart.1 hstart.2).2 hgt)
    have hBr : B ≤ r := by
      by_contra hlt
      have := (hunsat B hB.1 (by omega)).1 (hall B (by omega) hgt)
      omega
    by_contra hne
    have := (hsat r hr hr').1 (hnext (by omega))
    omega

/-- Where HighOK holds above B and nowhere else, the high side ends just above B. -/
theorem HighEnds.eq_boundary (h : HighEnds sat start r)
    (hsat : ∀ t, 0 ≤ t → t ≤ 255 → (sat t = true ↔ B < t)) : r = B + 1 := by
  have hunsat : ∀ t, 0 ≤ t → t ≤ 255 → (sat t = false ↔ t ≤ B) := fun t h0 h255 => by
    rw [← Bool.not_eq_true, hsat t h0 h255, not_lt]
  obtain ⟨hr, hr', hdown, hup⟩ := h
  rcases le_or_gt start B with hle | hgt
  · obtain ⟨hge, hall, hnext⟩ := hup ((hunsat _ hstart.1 hstart.2).2 hle)
    have hrB : r ≤ B + 1 := by
      by_contra hlt
      have := (hunsat (B + 1) (by omega) (by omega)).1 (hall (B + 1) (by omega) (by omega))
      omega
    by_contra hne
    have := (hsat r hr hr').1 (hnext (by omega))
    omega
  · obtain ⟨hle, hall, hnext⟩ := hdown ((hsat _ hstart.1 hstart.2).2 hgt)
    have hBr : B < r := by
      rcases eq_or_lt_of_le hle with rfl | hlt
      · exact hgt
      · exact (hsat r hr hr').1 (hall r le_rfl hlt)
    have := (hunsat (r - 1) (by omega) (by omega)).1 (hnext (by omega))
    omega

end

/-- On a source with boundary B a fill ends with N at B and below, and with 0 above. -/
theorem sourceSum_fixedBoundary (cfg : Params) (boundary : Byte → Nat) (c : Nat) {t : Int}
    (h0 : 0 ≤ t) (h255 : t ≤ 255) : sourceSum cfg (fixedBoundary boundary) c t =
      if t ≤ boundary (pinOf cfg c) then cfg.samplesNum else 0 := by
  have ht := byte_toNat h0 h255
  rw [sourceSum, fixedBoundary]
  simp only [decide_eq_true_eq]
  congr 1
  exact propext (by omega)

/-- On a source with boundary B, the low side ends at B and the high side just above it (R141). -/
theorem ends_fixedBoundary {cfg : Params} (hw : configWf cfg = true) (hlow : cfg.lowFractionPct < 100)
    (hhigh : 0 < cfg.highFractionPct) {c : Nat} {lo hi : Int} {r : Int × Int}
    {boundary : Byte → Nat} (hB : boundary (pinOf cfg c) ≤ 254) (h0 : 0 ≤ lo) (hlt : lo < hi)
    (h255 : hi ≤ 255)
    (hL : LowEnds (fun t => lowOK cfg (sourceSum cfg (fixedBoundary boundary) c t)) lo r.1)
    (hH : HighEnds (fun t => highOK cfg (sourceSum cfg (fixedBoundary boundary) c t)) hi r.2) :
    r = ((boundary (pinOf cfg c) : Int), (boundary (pinOf cfg c) : Int) + 1) := by
  refine Prod.ext (hL.eq_boundary (by omega) (by omega) fun t ht ht' => ?_)
    (hH.eq_boundary (by omega) (by omega) fun t ht ht' => ?_) <;>
    rw [sourceSum_fixedBoundary cfg boundary c ht ht'] <;> split_ifs with hle
  · simp [lowOK_samplesNum hw hlow, hle]
  · simp [lowOK_zero hw, hle]
  · simp [highOK_samplesNum hw, hle]
  · simp [highOK_zero hw hhigh, not_le.1 hle]

/-- Settles O25. -/
theorem fineAdjustmentFindsTheBoundary : Obligations.FineAdjustmentFindsTheBoundary := by
  refine fun cfg hw hlow hhigh => ⟨⟨lowOK_samplesNum hw hlow, lowOK_zero hw, highOK_zero hw hhigh,
    highOK_samplesNum hw⟩, fun c q e e' r boundary new hok hc hB h0 hlt h255 h hlog ho => ?_⟩
  obtain ⟨hL, hH⟩ := fineAdjust_ends hw hc hok ⟨new, hlog, ho⟩ h0 hlt h255 h
  exact ends_fixedBoundary hw hlow hhigh hB h0 hlt h255 hL hH

end Sys2Proof.Machine
end

section
/-! A calibration as a whole: what it keeps, how many answers it takes, where its thresholds end, and the
statements about CAL (41_calibrator.md R121, R136 to R144). -/

namespace Sys2Proof.Machine

/-! ### What a calibration's changes keep -/

/-- A change of channel c leaves every channel as it was but c, where it makes the change. -/
theorem channelAt_updateChannel_cases (chans : List Channel) (c d : Nat) (f : Channel → Channel) :
    channelAt (updateChannel chans c f) d = channelAt chans d ∨
      channelAt (updateChannel chans c f) d = f (channelAt chans d) := by
  by_cases hd : d = c
  · subst hd
    by_cases hlt : d < chans.length
    · exact .inr (channelAt_updateChannel hlt f)
    · exact .inl (by simp [channelAt, not_lt.1 hlt])
  · exact .inl (channelAt_updateChannel_ne hd chans f)

/-- What a calibration never writes in a channel, and its gray count, which it only clears. -/
abbrev SamePress (ch ch' : Channel) : Prop :=
  ch'.pressed = ch.pressed ∧ ch'.debounceTicks = ch.debounceTicks ∧
    (ch.grayZoneTicks = 0 → ch'.grayZoneTicks = 0)

theorem samePress_updateChannel {f : Channel → Channel} (hf : ∀ ch, SamePress ch (f ch))
    (chans : List Channel) (c d : Nat) :
    SamePress (channelAt chans d) (channelAt (updateChannel chans c f) d) := by
  rcases channelAt_updateChannel_cases chans c d f with h | h <;> rw [h]
  · exact ⟨rfl, rfl, id⟩
  · exact hf _

theorem samePress_updateBufferOf (side : Side) (f : Buffer → Buffer) (ch : Channel) :
    SamePress ch (updateBufferOf side f ch) := by
  cases side <;> exact ⟨rfl, rfl, id⟩

theorem channelChange_samePress {cfg : Params} {c : Nat} {F : List Channel → List Channel}
    (hF : ChannelChange cfg c F) (chans : List Channel) (d : Nat) :
    SamePress (channelAt chans d) (channelAt (F chans) d) := by
  cases hF with
  | push side x => exact samePress_updateChannel (samePress_updateBufferOf side _) chans c d
  | clearGray =>
    exact samePress_updateChannel (f := fun ch => { ch with grayZoneTicks := 0 })
      (fun ch => ⟨rfl, rfl, fun _ => rfl⟩) chans c d
  | setThresholds lo hi =>
    exact samePress_updateChannel
      (f := fun ch => { ch with lowThreshold := lo, highThreshold := hi, needsCalibration := false })
      (fun ch => ⟨rfl, rfl, id⟩) chans c d

/-- A procedure built from such changes. -/
theorem Prog.samePress {events : SenseEvent → Prop} {mods : (List Channel → List Channel) → Prop}
    {seen : Nat → Prop} {α : Type} {f : Eng → Run α} (h : Prog events mods seen f) {cfg : Params}
    (hmods : ∀ F, mods F → ∃ c, ChannelChange cfg c F) (e : Eng) (d : Nat) :
    SamePress (channelAt e.chans d) (channelAt (f e).eng.chans d) := by
  refine h.keeps (fun l => SamePress (channelAt e.chans d) (channelAt l d)) (fun F hF l hl => ?_) e
    ⟨rfl, rfl, id⟩
  obtain ⟨c, hc⟩ := hmods F hF
  obtain ⟨hp, hd, hg⟩ := hl
  obtain ⟨hp', hd', hg'⟩ := channelChange_samePress hc l d
  exact ⟨hp'.trans hp, hd'.trans hd, fun h0 => hg' (hg h0)⟩

/-- Settles O30: every part of a calibration reads and changes its own channel only, so it commutes with
any change of another. -/
theorem calibrationIgnoresOtherChannels : Obligations.CalibrationIgnoresOtherChannels := by
  intro cfg c d e hd
  refine ⟨?_, ((calibrate_prog cfg c).uses e).report, fun f => ?_⟩
  · exact (calibrate_prog cfg c).keeps (fun l => channelAt l d = channelAt e.chans d)
      (fun F hF l hl => (channelChange_other hd hF l).trans hl) e rfl
  · refine (calibrate_prog cfg c).commutes (fun l => updateChannel l d f) (fun F hF l => ?_)
      (fun c' hc' l => ?_) e
    · cases hF with
      | push | clearGray | setThresholds => exact updateChannel_comm hd.symm l f _
    · subst hc'
      exact channelAt_updateChannel_ne hd.symm l f

/-! ### A calibration that completed -/

/-- The engine state a calibration of channel c starts from: its gray count is 0 (R121). -/
def clearGray (c : Nat) (e : Eng) : Eng :=
  { e with chans := updateChannel e.chans c fun ch => { ch with grayZoneTicks := 0 } }

theorem recalibrate_eq (cfg : Params) (c : Nat) (e : Eng) :
    recalibrate cfg c e = calibrate cfg c (clearGray c e) := rfl

section
variable {cfg : Params} {c : Nat} {e e' : Eng}

/-- The parts of a calibration that completed: the search's ordered end, the fine adjustment from there,
and the margins (R122). -/
theorem recalibrate_done (hw : configWf cfg = true) (hok : channelsOk cfg e.chans)
    (h : recalibrate cfg c e = .done () e') :
    ∃ q e₁ r e₂, Ordered q ∧ channelsOk cfg e₁.chans ∧ (∃ new, e₁.log = new ++ e.log) ∧
      fineAdjust cfg c q e₁ = .done r e₂ ∧ e' = finishCalibration cfg c r.1 r.2 e₂ := by
  obtain ⟨q, e₁, hcoarse, h⟩ := Run.andThen_eq_done.1 (show (coarse _ _ _ _ _).andThen _ = _ from h)
  obtain ⟨r, e₂, hfine, h⟩ := Run.andThen_eq_done.1 h
  cases h
  obtain ⟨hq, _⟩ := coarse_done searchStart_ordered hcoarse
  have hok₁ := (coarse_prog cfg c cfg.maxProbeSteps searchStart).keeps (channelsOk cfg)
    (fun F hF l hl => channelChange_ok hw hF hl) (clearGray c e) (channelChange_ok hw .clearGray hok)
  obtain ⟨new, hlog⟩ := (coarse_prog cfg c cfg.maxProbeSteps searchStart).log_grows (clearGray c e)
  rw [show coarse _ _ _ _ (clearGray c e) = _ from hcoarse] at hok₁ hlog
  exact ⟨q, e₁, r, e₂, hq, hok₁, ⟨new, hlog⟩, hfine, rfl⟩

/-- The flags and counters a calibration leaves (R139). -/
theorem recalibrate_flags (hc : c < e.chans.length) (h : recalibrate cfg c e = .done () e') :
    flagsOf (channelAt e'.chans c) =
      ((channelAt e.chans c).pressed, false, 0, (channelAt e.chans c).debounceTicks) := by
  have hcleared : channelAt (clearGray c e).chans c = { channelAt e.chans c with grayZoneTicks := 0 } :=
    channelAt_updateChannel hc _
  have hsame := (calibrate_prog cfg c).samePress (fun F hF => ⟨c, hF⟩) (clearGray c e) c
  have hlen := (calibrate_prog cfg c).keeps (fun l => c < l.length) (fun F hF l hl => by
    cases hF with
    | push | clearGray | setThresholds => simpa using hl) (clearGray c e) (by simpa [clearGray] using hc)
  rw [← recalibrate_eq, h] at hsame hlen
  obtain ⟨hp, hd, hg⟩ := hsame
  rw [hcleared] at hp hd hg
  obtain ⟨q, e₁, _, h⟩ := Run.andThen_eq_done.1 (show (coarse _ _ _ _ _).andThen _ = _ from h)
  obtain ⟨r, e₂, _, h⟩ := Run.andThen_eq_done.1 h
  cases h
  have hn : (channelAt (finishCalibration cfg c r.1 r.2 e₂).chans c).needsCalibration = false := by
    rw [finishCalibration_chans, channelAt_updateChannel (by simpa using hlen)]
  simp only [Run.eng_done] at hp hd hg
  simp only [flagsOf, hp, hd, hg trivial, hn]

/-- A calibration of channel c on a source ended at the thresholds r before the margins. -/
def CalibrationEnds (cfg : Params) (src : Source) (c : Nat) (r : Int × Int) : Prop :=
  ∃ q, Ordered q ∧ LowEnds (fun t => lowOK cfg (sourceSum cfg src c t)) q.lo r.1 ∧
    HighEnds (fun t => highOK cfg (sourceSum cfg src c t)) q.hi r.2

/-- Where a calibration on a source leaves its channel's thresholds (R136). -/
theorem recalibrate_ends (hw : configWf cfg = true) (hc : c < cfg.numChannels)
    (hok : channelsOk cfg e.chans) (h : recalibrate cfg c e = .done () e') {src : Source}
    (hsrc : AnsweredBy src e.log e'.log) : ∃ r, CalibrationEnds cfg src c r ∧
      ((channelAt e'.chans c).lowThreshold.toNat : Int) = max 0 (r.1 - cfg.releaseMargin) ∧
      ((channelAt e'.chans c).highThreshold.toNat : Int) = min 255 (r.2 + cfg.pressMargin) := by
  obtain ⟨q, e₁, r, e₂, hq, hok₁, hgrow₁, hfine, rfl⟩ := recalibrate_done hw hok h
  have hgrow₂ : ∃ new, e₂.log = new ++ e₁.log := by
    simpa [hfine] using (fineAdjust_prog cfg c q).log_grows e₁
  have hsrc₂ : AnsweredBy src e₁.log e₂.log := (hsrc.split hgrow₁ hgrow₂).2
  have ⟨h0, h1, hlt, h2, h255⟩ := hq
  obtain ⟨hL, hH⟩ := fineAdjust_ends hw hc hok₁ hsrc₂ (by omega) hlt (by omega) hfine
  have hok₂ := (fineAdjust_prog cfg c q).keeps (channelsOk cfg)
    (fun F hF l hl => channelChange_ok hw hF hl) e₁ hok₁
  rw [hfine] at hok₂
  have hlen : c < e₂.chans.length := by have := hok₂.1; simp at this; omega
  refine ⟨r, ⟨q, hq, hL, hH⟩, ?_, ?_⟩ <;> rw [finishCalibration_chans, channelAt_updateChannel hlen]
  · exact byte_widenLow_toNat cfg hL.le
  · exact byte_widenHigh_toNat cfg hH.nonneg

/-- The most READs of a calibration (R137). -/
theorem recalibrate_within (cfg : Params) (c : Nat) (e : Eng) :
    Within (calibrationReads cfg) e (recalibrate cfg c e) := by
  refine Within.andThen ((coarse_within ..).of_replies rfl) fun q e₁ hcoarse => ?_
  obtain ⟨⟨h0, h1, hlt, h2, h255⟩, _⟩ := coarse_done searchStart_ordered hcoarse
  exact Within.andThen (l := 0)
    (fineAdjust_within cfg c (q := q) (by omega) (by omega) (by omega) (by omega) e₁)
    fun r e₂ _ => Within.done 0 () rfl

end

/-! ### A command that completed -/

/-- The engine state an accepted TICK or CAL starts from, with the answers at hand. -/
def engineWithAnswers (s : State) : Eng := { engineOf s with replies := leadingReplies s.inputs }

/-- A TICK or CAL that left BUSY = 0 has run its pseudocode to the end. -/
theorem exec_completed {i : Instr} {cmd : EngineCmd} {s t : State} (hs : accepting s)
    (hi : engineCmd i = some cmd) (hc : ∀ c, commandChannel i = some c → c < s.cfg.numChannels)
    (h : exec i s = .next t) (hb : t.busy = false) :
    ∃ e, runCommand s.cfg cmd (engineWithAnswers s) = .done () e ∧
      t.chans = e.chans ∧ t.report = e.report ∧ t.senseLog = e.log := by
  rw [exec_engineCmd hs hi hc] at h
  cases h
  obtain ⟨e, hrun, hadv⟩ := advance_done hb
  rw [hadv]
  exact ⟨e, hrun, rfl, rfl, rfl⟩

/-- What a TICK or CAL leaves that completes with the answers at hand, k of them used. -/
theorem exec_completes {i : Instr} {cmd : EngineCmd} {s : State} {e : Eng} {k : Nat} (hs : accepting s)
    (hi : engineCmd i = some cmd) (hc : ∀ c, commandChannel i = some c → c < s.cfg.numChannels)
    (hrun : runCommand s.cfg cmd (engineWithAnswers s) = .done () e)
    (hk : k ≤ (leadingReplies s.inputs).length) (hr : e.replies = (leadingReplies s.inputs).drop k) :
    exec i s = .next { s with
      chans := e.chans
      report := e.report
      lastErr := 0
      temps := none
      running := none
      outstanding := none
      inputs := s.inputs.drop k
      senseLog := e.log } := by
  have htemps := runCommand_temps hrun rfl
  rw [exec_engineCmd hs hi hc]
  rcases advance_cases ⟨cmd, engineOf s⟩ (begun s) with ⟨e', hrun', hadv⟩ | ⟨q, e', hrun', hadv⟩
  · cases hrun'.symm.trans hrun
    rw [hadv, completeCommand, storeEngine, hr, htemps, begun]
    simp only [inputs_drop _ _ hk, hs.2]
  · cases hrun'.symm.trans hrun

/-- What is new in the history, when it grew, is what a source answered. -/
theorem answeredBy_of_newEvents {src : Source} {s t : State}
    (hgrow : ∃ new, t.senseLog = new ++ s.senseLog) (ho : obeys src (newEvents s t)) :
    AnsweredBy src s.senseLog t.senseLog := by
  obtain ⟨new, hnew⟩ := hgrow
  refine ⟨new, hnew, ?_⟩
  simpa [newEvents, hnew] using ho

/-- That engine state once the DISCHARGE is acknowledged. -/
def engineDischarged (s : State) : Eng :=
  { engineWithAnswers s with
    replies := (leadingReplies s.inputs).tail
    log := .discharge :: s.senseLog }

theorem discharge_engineWithAnswers {s : State} (h : 0 < (leadingReplies s.inputs).length) :
    discharge (engineWithAnswers s) = .done () (engineDischarged s) := by
  obtain ⟨b, rest, hr⟩ := List.exists_cons_of_length_pos h
  rw [discharge_cons (e := engineWithAnswers s) hr, engineDischarged, hr]
  rfl

/-- A sequence that starts with the DISCHARGE and completes goes on from its acknowledgement. -/
theorem done_after_discharge {s : State} {f : Unit → Eng → Run Unit} {e : Eng}
    (h : (discharge (engineWithAnswers s)).andThen f = .done () e) :
    f () (engineDischarged s) = .done () e := by
  obtain ⟨_, e₀, hdis, hf⟩ := Run.andThen_eq_done.1 h
  have hlen : 0 < (leadingReplies s.inputs).length := by
    by_contra hnone
    have hnil : leadingReplies s.inputs = [] := List.length_eq_zero_iff.1 (by omega)
    cases (discharge_nil (e := engineWithAnswers s) hnil).symm.trans hdis
  cases (discharge_engineWithAnswers hlen).symm.trans hdis
  exact hf

/-- What a source answered of a command, it answered of what came after the DISCHARGE. -/
theorem answeredBy_after_discharge {src : Source} {s t : State} {e : Eng} (hlog : t.senseLog = e.log)
    (hgrow : ∃ new, e.log = new ++ (engineDischarged s).log) (ho : obeys src (newEvents s t)) :
    AnsweredBy src (engineDischarged s).log e.log := by
  have hstart : ∃ new, (engineDischarged s).log = new ++ s.senseLog := ⟨[.discharge], rfl⟩
  have hsrc := answeredBy_of_newEvents (s := s) (t := t) (by
    obtain ⟨new, h⟩ := hgrow
    exact ⟨new ++ [.discharge], by rw [hlog, h]; simp [engineDischarged]⟩) ho
  rw [hlog] at hsrc
  exact (hsrc.split hstart hgrow).2

/-- What a completed procedure has used and recorded, started after the DISCHARGE. -/
structure Sensed (s : State) (events : SenseEvent → Prop) (k : Nat) (reads : List SenseEvent) (e : Eng) :
    Prop where
  log : e.log = reads ++ .discharge :: s.senseLog
  replies : e.replies = (leadingReplies s.inputs).drop (reads.length + 1)
  within : reads.length ≤ k
  atHand : reads.length + 1 ≤ (leadingReplies s.inputs).length
  event : ∀ ev ∈ reads, events ev
  report : e.report = s.report

theorem Prog.sensed {events : SenseEvent → Prop} {mods : (List Channel → List Channel) → Prop}
    {seen : Nat → Prop} {f : Eng → Run Unit} (hf : Prog events mods seen f) {s : State} {k : Nat}
    (hw : Within k (engineDischarged s) (f (engineDischarged s)))
    (hk : k + 1 ≤ (leadingReplies s.inputs).length) :
    ∃ e reads, f (engineDischarged s) = .done () e ∧ Sensed s events k reads e := by
  obtain ⟨b, rest, hr⟩ := List.exists_cons_of_length_pos (l := leadingReplies s.inputs) (by omega)
  have hrest : (engineDischarged s).replies = rest := by rw [engineDischarged, hr]; rfl
  rw [hr, List.length_cons] at hk
  obtain ⟨_, e, hdone⟩ := hw.completes (by rw [hrest]; omega)
  have huses := hf.uses (engineDischarged s)
  have hused := hw.used
  rw [hdone] at huses hused
  obtain ⟨reads, used, hlog, hreplies, hlen, hevents⟩ := huses.history
  simp only [hrest, Run.eng_done] at hreplies hused hlog
  rw [hreplies, List.length_append] at hused hk
  refine ⟨e, reads, hdone, hlog, ?_, by omega, ?_, hevents, huses.report⟩
  · rw [hr, List.drop_succ_cons, hreplies, hlen, List.drop_left]
  · rw [hr, List.length_cons, hreplies, List.length_append]
    omega

section
variable {s t : State} {ch : Nat} (hs : accepting s) (hok : channelsOk s.cfg s.chans)
  (hc : ch < s.cfg.numChannels) (h : exec (.cal ch) s = .next t) (hb : t.busy = false)
include hs hok hc h hb

/-- The thresholds a CAL on a source leaves, from where its fine adjustment ended. -/
theorem cal_ends {src : Source} (ho : obeys src (newEvents s t)) :
    ∃ r, CalibrationEnds s.cfg src ch r ∧
      ((channelAt t.chans ch).lowThreshold.toNat : Int) = max 0 (r.1 - s.cfg.releaseMargin) ∧
      ((channelAt t.chans ch).highThreshold.toNat : Int) = min 255 (r.2 + s.cfg.pressMargin) := by
  obtain ⟨e, hrun, hchans, _, hlog⟩ := exec_completed hs (cmd := .cal ch) rfl
    (by rintro c ⟨⟩; exact hc) h hb
  have hrecal : recalibrate s.cfg ch (engineDischarged s) = .done () e := done_after_discharge hrun
  have hgrow : ∃ new, e.log = new ++ (engineDischarged s).log := by
    simpa [hrecal] using (recalibrate_prog s.cfg ch).log_grows (engineDischarged s)
  rw [hchans]
  exact recalibrate_ends hs.1 hc hok hrecal (answeredBy_after_discharge hlog hgrow ho)

end

/-! ### Where a calibration ends on the sources of R141 to R143 -/

theorem LowEnds.eq_top {sat : Int → Bool} {lo r : Int} (h : LowEnds sat lo r)
    (hsat : ∀ t, sat t = true) : r = 255 := by
  obtain ⟨_, _, hnext⟩ := h.up (hsat lo)
  by_contra hne
  exact absurd ((hsat (r + 1)).symm.trans (hnext hne)) (by decide)

theorem LowEnds.eq_zero {sat : Int → Bool} {lo r : Int} (h : LowEnds sat lo r)
    (hsat : ∀ t, sat t = false) : r = 0 := by
  obtain ⟨_, _, hnext⟩ := h.down (hsat lo)
  by_contra hne
  exact absurd ((hsat r).symm.trans (hnext hne)) (by decide)

theorem HighEnds.eq_top {sat : Int → Bool} {hi r : Int} (h : HighEnds sat hi r)
    (hsat : ∀ t, sat t = false) : r = 255 := by
  obtain ⟨_, _, hnext⟩ := h.up (hsat hi)
  by_contra hne
  exact absurd ((hsat r).symm.trans (hnext hne)) (by decide)

theorem HighEnds.eq_zero {sat : Int → Bool} {hi r : Int} (h : HighEnds sat hi r)
    (hsat : ∀ t, sat t = true) : r = 0 := by
  obtain ⟨_, _, hnext⟩ := h.down (hsat hi)
  by_contra hne
  exact absurd ((hsat (r - 1)).symm.trans (hnext hne)) (by decide)

section
variable {cfg : Params} {src : Source} {c : Nat} {r : Int × Int}

theorem CalibrationEnds.range (h : CalibrationEnds cfg src c r) :
    0 ≤ r.1 ∧ r.1 ≤ 255 ∧ 0 ≤ r.2 ∧ r.2 ≤ 255 := by
  obtain ⟨q, _, hL, hH⟩ := h
  exact ⟨hL.nonneg, hL.le, hH.nonneg, hH.le⟩

theorem CalibrationEnds.fixedBoundary (hw : configWf cfg = true) (hlow : cfg.lowFractionPct < 100)
    (hhigh : 0 < cfg.highFractionPct) {boundary : Byte → Nat} (hB : boundary (pinOf cfg c) ≤ 254)
    (h : CalibrationEnds cfg (fixedBoundary boundary) c r) :
    r = ((boundary (pinOf cfg c) : Int), (boundary (pinOf cfg c) : Int) + 1) := by
  obtain ⟨q, ⟨h0, h1, hlt, h2, h255⟩, hL, hH⟩ := h
  exact ends_fixedBoundary hw hlow hhigh hB (by omega) hlt (by omega) hL hH

/-- A pin that always answers 0 never satisfies LowOK, so the low side ends at 0 (R143). -/
theorem CalibrationEnds.zeros (hw : configWf cfg = true)
    (h : CalibrationEnds cfg (fun _ _ => false) c r) :
    r.1 = 0 ∧ (0 < cfg.highFractionPct → r.2 = 0) := by
  obtain ⟨q, _, hL, hH⟩ := h
  exact ⟨hL.eq_zero fun _ => lowOK_zero hw, fun hhigh => hH.eq_zero fun _ => highOK_zero hw hhigh⟩

theorem CalibrationEnds.ones (hw : configWf cfg = true)
    (h : CalibrationEnds cfg (fun _ _ => true) c r) :
    (cfg.lowFractionPct < 100 → r.1 = 255) ∧ r.2 = 255 := by
  obtain ⟨q, _, hL, hH⟩ := h
  exact ⟨fun hlow => hL.eq_top fun _ => lowOK_samplesNum hw hlow,
    hH.eq_top fun _ => highOK_samplesNum hw⟩

end

/-! ### The statements -/

/-- Settles O26. -/
theorem calBracketsTheBoundary : Obligations.CalBracketsTheBoundary := by
  intro s t ch boundary hs hok hc hlow hhigh hB h hb ho
  obtain ⟨r, hends, hlo, hhi⟩ := cal_ends hs hok hc h hb ho
  obtain rfl := hends.fixedBoundary hs.1 hlow hhigh hB
  omega

/-- Settles O27. -/
theorem calOfAConstantPin : Obligations.CalOfAConstantPin := by
  intro s t ch hs hok hc h hb
  obtain ⟨_, _, _, _, _, hpress, hrelease, _⟩ := configWf_bounds hs.1
  refine ⟨fun ho hhigh => ?zeros, fun ho hlow => ?ones⟩
  case zeros =>
    obtain ⟨r, hends, hlo, hhi⟩ := cal_ends hs hok hc h hb ho
    obtain ⟨hzero, hzero'⟩ := hends.zeros hs.1
    rw [hzero] at hlo
    rw [hzero' hhigh] at hhi
    exact ⟨BitVec.eq_of_toNat_eq (by simp; omega), by omega⟩
  case ones =>
    obtain ⟨r, hends, hlo, hhi⟩ := cal_ends hs hok hc h hb ho
    obtain ⟨htop, htop'⟩ := hends.ones hs.1
    rw [htop hlow] at hlo
    rw [htop'] at hhi
    omega

/-- One channel, margins of 0 and three iterations of the coarse search. -/
def crossingConfig : Params := ⟨1, [0x10], 1, 90, 10, 0, 0, 2, 10, 3⟩

/-- Answers of a source that changes its mind: the search closes on 148 and 150, the low walk climbs to
151, the high walk falls to 149. -/
def crossingAnswers : List Bool :=
  [false] ++ [true, false, true, false, true, false] ++ [true, false] ++ [true, true, true, false] ++
    [false, true]

/-- The reset state with these answers to come. -/
def crossingState : State :=
  { State.resetOf crossingConfig with inputs := crossingAnswers.map Input.reply }

/-- The run of R142's third bullet: the thresholds end crossed, 151 above 149. -/
theorem crossing_run : ∃ t, exec (.cal 0) crossingState = .next t ∧ t.busy = false ∧
    (channelAt t.chans 0).lowThreshold = 151 ∧ (channelAt t.chans 0).highThreshold = 149 := by
  refine ⟨_, execCal_accepted (by decide) (by decide), ?_⟩
  decide +kernel

/-- Settles O28: the order follows from where the calibration ends, and `crossing_run` ends crossed. -/
theorem thresholdOrderAfterCalibration : Obligations.ThresholdOrderAfterCalibration := by
  refine ⟨fun s t ch hs hok hc h hb => ⟨fun boundary hB hlow hhigh ho => ?boundary, fun ho => ?zeros,
    fun ho => ?ones⟩, ?crossed⟩
  case boundary =>
    obtain ⟨_, _, hle, hge⟩ := calBracketsTheBoundary s t ch boundary hs hok hc hlow hhigh hB h hb ho
    rw [BitVec.lt_def]
    omega
  case zeros =>
    obtain ⟨r, hends, hlo, hhi⟩ := cal_ends hs hok hc h hb ho
    obtain ⟨hzero, _⟩ := hends.zeros hs.1
    obtain ⟨_, _, _, _⟩ := hends.range
    rw [BitVec.le_def, BitVec.lt_def]
    omega
  case ones =>
    obtain ⟨r, hends, hlo, hhi⟩ := cal_ends hs hok hc h hb ho
    obtain ⟨_, htop⟩ := hends.ones hs.1
    obtain ⟨_, _, _, _⟩ := hends.range
    rw [BitVec.le_def, BitVec.lt_def]
    omega
  case crossed =>
    obtain ⟨t, ht, hb, hlo, hhi⟩ := crossing_run
    refine ⟨crossingState, t, by decide, by decide, by decide, by decide, ht, hb, ?_⟩
    rw [hlo, hhi]
    decide

/-- Settles O29: a calibration takes at most its bound of answers, one for each of its READs. -/
theorem calCompletesAndWritesOneChannel : Obligations.CalCompletesAndWritesOneChannel := by
  intro s ch hs hok hc hlen
  have hprog := recalibrate_prog s.cfg ch
  rw [calTransactions, Nat.add_comm] at hlen
  obtain ⟨e, reads, hrecal, S⟩ := hprog.sensed (recalibrate_within s.cfg ch _) hlen
  have hrun : runCommand s.cfg (.cal ch) (engineWithAnswers s) = .done () e := by
    show (discharge _).andThen _ = _
    rw [discharge_engineWithAnswers (by omega)]
    exact hrecal
  have hexec := exec_completes hs (i := .cal ch) rfl (by rintro c ⟨⟩; exact hc) hrun S.atHand S.replies
  rw [S.log, S.report] at hexec
  have hok' := hprog.keeps (channelsOk s.cfg) (fun F hF l hl => channelChange_ok hs.1 hF hl)
    (engineDischarged s) hok
  have hother := fun d (hd : d ≠ ch) => hprog.keeps (fun l => channelAt l d = channelAt s.chans d)
    (fun F hF l hl => (channelChange_other hd hF l).trans hl) (engineDischarged s) rfl
  have hflags := recalibrate_flags (e := engineDischarged s) (hok.1 ▸ hc) hrecal
  rw [hrecal] at hok' hother
  simp only [flagsOf, Prod.mk.injEq] at hflags
  obtain ⟨hpressed, hflag, hgray, hdebounce⟩ := hflags
  exact ⟨_, reads, hexec, rfl, S.within, S.event, hok', hother, hflag, hgray, hpressed, hdebounce⟩

end Sys2Proof.Machine
end

section
/-! The bands of the low-side rule, the flags after both rules, the ways a press ends, and the statements
about them (42_engine.md R165 to R175; 10_state.md R25). -/

namespace Sys2Proof.Machine

/-! ### The bands of the low-side rule -/

section
variable {cfg : Params} {s : Nat} (ch : Channel)

theorem lowRule_of_le_kRel (h : (s : Int) ≤ kRel cfg) : lowRule cfg s ch = strongRelease cfg ch :=
  if_pos h

theorem lowRule_of_le_kLow (hrel : kRel cfg < s) (hlow : (s : Int) ≤ kLow cfg) :
    lowRule cfg s ch = grayBand cfg ch := by
  rw [lowRule, if_neg hrel.not_ge, if_pos hlow]

theorem lowRule_of_gt (hrel : kRel cfg < s) (hlow : kLow cfg < s) :
    lowRule cfg s ch = steadyBand ch := by
  rw [lowRule, if_neg hrel.not_ge, if_neg hlow.not_ge]

end

theorem strongRelease_of_past {cfg : Params} {ch : Channel}
    (h : min (ch.debounceTicks.toNat + 1) (2 ^ 32 - 1) > cfg.hysteresis) : strongRelease cfg ch =
      { ch with
        pressed := false, needsCalibration := true, grayZoneTicks := 0, debounceTicks := 0 } := by
  rw [← satInc32_toNat] at h
  exact if_pos h

theorem strongRelease_of_not_past {cfg : Params} {ch : Channel}
    (h : min (ch.debounceTicks.toNat + 1) (2 ^ 32 - 1) ≤ cfg.hysteresis) : strongRelease cfg ch =
      { ch with debounceTicks := BitVec.ofNat 32 (min (ch.debounceTicks.toNat + 1) (2 ^ 32 - 1)) } := by
  rw [← satInc32_toNat] at h
  rw [strongRelease, if_neg h.not_gt, satInc32_eq]

/-- Settles O31. -/
theorem lowSideBands : Obligations.LowSideBands := by
  intro cfg s ch _
  refine ⟨fun hrel => ?release, fun hrel hlow => ?gray, fun hlow hrel => lowRule_of_gt ch hrel hlow⟩
  case release =>
    rw [lowRule_of_le_kRel ch hrel]
    exact ⟨strongRelease_of_past, strongRelease_of_not_past, fun h0 => by omega, fun htop => by omega⟩
  case gray =>
    rw [lowRule_of_le_kLow ch hrel hlow]
    exact ⟨grayBand_of_reached, grayBand_of_not_reached⟩

/-! ### Both rules -/

theorem strongPress_eq {ch ch' : Channel} (h : SameBuffersAndThresholds ch ch') : strongPress ch' =
    { ch with
      pressed := true, needsCalibration := true, grayZoneTicks := 0, debounceTicks := 0 } := by
  rw [strongPress, h.lowBuffer, h.highBuffer, h.lowThreshold, h.highThreshold]

/-- Settles O33: a press writes every flag and counter, and step 3 wrote nothing else. -/
theorem pressWinsOverRelease : Obligations.PressWinsOverRelease := by
  intro cfg ch hpress
  rw [decideChannel, highRule_of_kPress_le hpress, strongPress_eq (lowRule_keeps cfg _ ch)]

theorem grayBand_grayZoneTicks (cfg : Params) (ch : Channel) :
    (grayBand cfg ch).grayZoneTicks = satInc32 ch.grayZoneTicks := by
  unfold grayBand
  dsimp only
  split_ifs <;> rfl

/-- Settles O34. -/
theorem grayCountIsShared : Obligations.GrayCountIsShared := by
  refine fun cfg s h ch => ⟨fun hband => ?_, fun hhigh hpress => ?_⟩
  · by_cases hpress : kPress cfg ≤ h
    · rw [highRule_of_kPress_le hpress, strongPress_grayZoneTicks]
    · rw [highRule_of_lt_kHigh (hband.resolve_right hpress) (not_le.1 hpress), steadyBand_grayZoneTicks]
  · rw [highRule_of_kHigh_le hhigh hpress, grayBand_grayZoneTicks, satInc32_toNat]

/-! ### How a press ends -/

/-- The ways a press ends in steps 3 and 4 (R175). -/
def EndsPress (cfg : Params) (low high : Nat) (ch : Channel) : Prop :=
  ((low : Int) ≤ kRel cfg ∧ cfg.hysteresis < min (ch.debounceTicks.toNat + 1) (2 ^ 32 - 1)) ∨
  (kRel cfg < low ∧ (low : Int) ≤ kLow cfg ∧
    cfg.maxTimeInGrayzone ≤ min (ch.grayZoneTicks.toNat + 1) (2 ^ 32 - 1)) ∨
  (kHigh cfg ≤ high ∧ (high : Int) < kPress cfg ∧
    cfg.maxTimeInGrayzone ≤ min ((lowRule cfg low ch).grayZoneTicks.toNat + 1) (2 ^ 32 - 1))

/-- Only the flags and counters matter for it. -/
theorem EndsPress.of_flags {cfg : Params} {low high : Nat} {ch ch' : Channel}
    (h : EndsPress cfg low high ch) (hflags : flagsOf ch = flagsOf ch') : EndsPress cfg low high ch' := by
  have hlow := lowRule_flags cfg low hflags
  simp only [flagsOf, Prod.mk.injEq] at hflags hlow
  obtain ⟨_, _, hgray, hdebounce⟩ := hflags
  obtain ⟨_, _, hgray', _⟩ := hlow
  unfold EndsPress at h ⊢
  rwa [hgray, hdebounce, hgray'] at h

theorem grayBand_pressed {cfg : Params} {ch : Channel} (h : (grayBand cfg ch).pressed = false) :
    ch.pressed = false ∨
      cfg.maxTimeInGrayzone ≤ min (ch.grayZoneTicks.toNat + 1) (2 ^ 32 - 1) := by
  by_cases hlimit : cfg.maxTimeInGrayzone ≤ min (ch.grayZoneTicks.toNat + 1) (2 ^ 32 - 1)
  · exact .inr hlimit
  · rw [grayBand_of_not_reached (not_le.1 hlimit)] at h
    exact .inl h

/-- Step 3 ends a press by a release past HYSTERESIS or by its watchdog. -/
theorem lowRule_pressed {cfg : Params} {s : Nat} {ch : Channel}
    (h : (lowRule cfg s ch).pressed = false) : ch.pressed = false ∨
      ((s : Int) ≤ kRel cfg ∧ cfg.hysteresis < min (ch.debounceTicks.toNat + 1) (2 ^ 32 - 1)) ∨
      (kRel cfg < s ∧ (s : Int) ≤ kLow cfg ∧
        cfg.maxTimeInGrayzone ≤ min (ch.grayZoneTicks.toNat + 1) (2 ^ 32 - 1)) := by
  rcases le_or_gt (s : Int) (kRel cfg) with hrel | hrel
  · rw [lowRule_of_le_kRel ch hrel] at h
    by_cases hpast : cfg.hysteresis < min (ch.debounceTicks.toNat + 1) (2 ^ 32 - 1)
    · exact .inr (.inl ⟨hrel, hpast⟩)
    · rw [strongRelease_of_not_past (not_lt.1 hpast)] at h
      exact .inl h
  · rcases le_or_gt (s : Int) (kLow cfg) with hlow | hlow
    · rw [lowRule_of_le_kLow ch hrel hlow] at h
      exact (grayBand_pressed h).imp id fun hlimit => .inr ⟨hrel, hlow, hlimit⟩
    · rw [lowRule_of_gt ch hrel hlow] at h
      exact .inl h

/-- Step 4 ends a press by its watchdog alone. -/
theorem highRule_pressed {cfg : Params} {h : Nat} {ch : Channel}
    (hp : (highRule cfg h ch).pressed = false) : ch.pressed = false ∨
      (kHigh cfg ≤ h ∧ (h : Int) < kPress cfg ∧
        cfg.maxTimeInGrayzone ≤ min (ch.grayZoneTicks.toNat + 1) (2 ^ 32 - 1)) := by
  rcases le_or_gt (kPress cfg) (h : Int) with hpress | hpress
  · rw [highRule_of_kPress_le hpress, strongPress_pressed] at hp
    cases hp
  · rcases le_or_gt (kHigh cfg) (h : Int) with hhigh | hhigh
    · rw [highRule_of_kHigh_le hhigh hpress] at hp
      exact (grayBand_pressed hp).imp id fun hlimit => ⟨hhigh, hpress, hlimit⟩
    · rw [highRule_of_lt_kHigh hhigh hpress] at hp
      exact .inl hp

theorem decideChannel_endsPress {cfg : Params} {ch : Channel} (hp : ch.pressed = true)
    (h : (decideChannel cfg ch).pressed = false) :
    EndsPress cfg ch.lowBuffer.sum.toNat ch.highBuffer.sum.toNat ch := by
  rcases highRule_pressed h with hlow | hhigh
  · rcases lowRule_pressed hlow with hnone | hrelease | hgray
    · cases hp.symm.trans hnone
    · exact .inl hrelease
    · exact .inr (.inl hgray)
  · exact .inr (.inr hhigh)

/-! ### What turns a press on -/

theorem initialChannels_pressed (cfg : Params) (c : Nat) :
    (channelAt (initialChannels cfg) c).pressed = false := by
  by_cases hc : c < cfg.numChannels
  · rw [channelAt_initialChannels hc]
    rfl
  · simp [channelAt, initialChannels, List.getD_eq_getElem?_getD, hc, Channel.initial]

/-- A TICK that waits and a CAL leave every channel's `pressed` as it was. -/
theorem advance_pressed (p : InProgress) (s : State) (c : Nat) :
    (channelAt (advance p s).chans c).pressed = (channelAt p.start.chans c).pressed ∨
      p.cmd = .tick ∧ (advance p s).busy = false := by
  have hsensing : ∀ (cmd : EngineCmd) (e : Eng),
      (channelAt (runCommand s.cfg cmd e).eng.chans c).pressed = (channelAt e.chans c).pressed ∨
        cmd = .tick ∧ ∃ e', runCommand s.cfg cmd e = .done () e' := fun cmd e => by
    cases cmd with
    | cal ch => exact .inl ((runCal_prog s.cfg).samePress (fun F hF => ⟨ch, hF⟩) e c).1
    | tick =>
      cases hrun : runCommand s.cfg .tick e with
      | done u e' => exact .inr ⟨rfl, e', rfl⟩
      | waiting q e' =>
        have hsame := (tickUntilDecided_prog s.cfg).samePress (fun F ⟨ch, _, hF⟩ => ⟨ch, hF⟩) e c
        rw [runTick_waiting hrun] at hsame
        exact .inl hsame.1
  have hrun' := hsensing p.cmd (receive (leadingReplies s.inputs) p).start
  rcases advance_cases p s with ⟨e, hrun, hadv⟩ | ⟨q, e, hrun, hadv⟩ <;> rw [hadv] <;>
    rw [hrun] at hrun'
  · exact hrun'.imp id fun ⟨htick, _⟩ => ⟨htick, rfl⟩
  · rcases hrun' with hkeep | ⟨_, _, hdone⟩
    · exact .inl hkeep
    · cases hdone

/-- Settles O36. -/
theorem onlyTickSetsPressed : Obligations.OnlyTickSetsPressed := by
  intro i s t c h hoff hon
  obtain ⟨_, ⟨err, rfl⟩ | ⟨_, _, rfl⟩⟩ := exec_cases h
  · cases hoff.symm.trans hon
  · cases i with
    | nop => cases hoff.symm.trans hon
    | bufReset ch side | bufPush ch side val =>
      obtain ⟨hsame, _⟩ := samePress_updateChannel (samePress_updateBufferOf side _) s.chans ch c
      cases (hsame.trans hoff).symm.trans hon
    | init => cases (initialChannels_pressed s.cfg c).symm.trans hon
    | tick =>
      rcases advance_pressed ⟨.tick, engineOf s⟩ (begun s) c with hkeep | ⟨_, hidle⟩
      · cases (hkeep.trans hoff).symm.trans hon
      · exact ⟨rfl, hidle⟩
    | cal ch =>
      rcases advance_pressed ⟨.cal ch, engineOf s⟩ (begun s) c with hkeep | ⟨htick, _⟩
      · cases (hkeep.trans hoff).symm.trans hon
      · cases htick

end Sys2Proof.Machine
end

section
/-! A completed TICK, step by step, on any source, and the statements about TICK (42_engine.md R160 to
R178; 70_reset_and_hazards.md R252). -/

namespace Sys2Proof.Machine

/-! ### Steps 1 and 2 over the channels -/

section
variable {cfg : Params}

/-- Step 1 leaves a channel that is not flagged as it was (R161). -/
theorem calibrateAll_unflagged (cs : List Nat) {e e' : Eng} {u : Unit} {d : Nat}
    (hd : (channelAt e.chans d).needsCalibration = false)
    (h : forChannels (calibrateFlagged cfg) cs e = .done u e') :
    channelAt e'.chans d = channelAt e.chans d := by
  induction cs generalizing e with
  | nil => cases h; rfl
  | cons c cs ih =>
    obtain ⟨_, e₁, h₁, h₂⟩ := Run.andThen_eq_done.1
      (show (calibrateFlagged cfg c e).andThen _ = _ from h)
    have hsame : channelAt e₁.chans d = channelAt e.chans d := by
      by_cases hdc : d = c
      · subst hdc
        rw [calibrateFlagged, if_neg (by simp [hd])] at h₁
        cases h₁
        rfl
      · exact calibrateFlagged_other hdc h₁
    rw [ih (by rw [hsame]; exact hd) h₂, hsame]

theorem forChannels_grows {body : Nat → Eng → Run Unit} {cs : List Nat}
    (hb : ∀ c, ProgOn cfg c (body c)) {e e' : Eng} {u : Unit} (h : forChannels body cs e = .done u e') :
    ∃ new, e'.log = new ++ e.log := by
  induction cs generalizing e with
  | nil => cases h; exact ⟨[], rfl⟩
  | cons c cs ih =>
    obtain ⟨_, e₁, h₁, h₂⟩ := Run.andThen_eq_done.1 (show (body c e).andThen _ = _ from h)
    obtain ⟨new₁, hlog₁⟩ := (hb c).log_grows e
    obtain ⟨new₂, hlog₂⟩ := ih h₂
    rw [h₁, Run.eng_done] at hlog₁
    exact ⟨new₂ ++ new₁, by rw [hlog₂, hlog₁, List.append_assoc]⟩

/-- Step 1 on a source, for a list of channels: each flagged one is calibrated on it (R161). -/
theorem calibrateAll_ends (hw : configWf cfg = true) {src : Source} {cs : List Nat} {e e' : Eng} {u : Unit}
    (hok : channelsOk cfg e.chans) (hn : cs.Nodup) (hlt : ∀ c ∈ cs, c < cfg.numChannels)
    (h : forChannels (calibrateFlagged cfg) cs e = .done u e') (hsrc : AnsweredBy src e.log e'.log)
    {c : Nat} (hc : c ∈ cs) (hflag : (channelAt e.chans c).needsCalibration = true) :
    ∃ r, CalibrationEnds cfg src c r ∧
      ((channelAt e'.chans c).lowThreshold.toNat : Int) = max 0 (r.1 - cfg.releaseMargin) ∧
      ((channelAt e'.chans c).highThreshold.toNat : Int) = min 255 (r.2 + cfg.pressMargin) := by
  induction cs generalizing e with
  | nil => cases hc
  | cons a cs ih =>
    obtain ⟨_, e₁, h₁, h₂⟩ := Run.andThen_eq_done.1
      (show (calibrateFlagged cfg a e).andThen _ = _ from h)
    rw [List.nodup_cons] at hn
    have hgrow₁ : ∃ new, e₁.log = new ++ e.log := by
      simpa [h₁] using (calibrateFlagged_prog cfg a).log_grows e
    have hgrow₂ := forChannels_grows (calibrateFlagged_prog cfg) h₂
    have ⟨hsrc₁, hsrc₂⟩ := hsrc.split hgrow₁ hgrow₂
    have hok₁ := calibrateFlagged_ok hw hok h₁
    rcases List.mem_cons.1 hc with rfl | hmem
    · obtain ⟨_, hkeep, _⟩ := calibrateAll_flags hw cs hok₁ hn.2 (fun d hd => hlt d (by simp [hd])) h₂
      rw [hkeep c hn.1]
      rw [calibrateFlagged, if_pos hflag] at h₁
      exact recalibrate_ends hw (hlt c (by simp)) hok h₁ hsrc₁
    · have hne : c ≠ a := ne_of_mem_of_not_mem hmem hn.1
      exact ih hok₁ hn.2 (fun d hd => hlt d (by simp [hd])) h₂ hsrc₂ hmem
        (by rw [calibrateFlagged_other hne h₁]; exact hflag)

/-- What step 2 for a list of channels leaves: buffers apart, every channel is as it was; the channels
not listed are wholly so (R162). -/
theorem sampleAll_registers (hw : configWf cfg = true) {cs : List Nat} {e e' : Eng} {u : Unit}
    (hok : channelsOk cfg e.chans) (hlt : ∀ c ∈ cs, c < cfg.numChannels)
    (h : forChannels (sampleChannel cfg) cs e = .done u e') :
    (∀ d, ∃ lb hb, channelAt e'.chans d = { channelAt e.chans d with lowBuffer := lb, highBuffer := hb }) ∧
      ∀ d, d ∉ cs → channelAt e'.chans d = channelAt e.chans d := by
  induction cs generalizing e with
  | nil => cases h; exact ⟨fun d => ⟨_, _, rfl⟩, fun d _ => rfl⟩
  | cons c cs ih =>
    obtain ⟨_, e₂, h₂, h₃⟩ := Run.andThen_eq_done.1
      (show (sampleChannel cfg c e).andThen _ = _ from h)
    obtain ⟨_, e₁, h₁, h₂⟩ := Run.andThen_eq_done.1 (show (fill _ _ _ _ _).andThen _ = _ from h₂)
    have F₁ := fill_filled hw hok (hlt c (by simp)) h₁
    have F₂ := fill_filled hw F₁.ok (hlt c (by simp)) h₂
    obtain ⟨hreg, hkeep⟩ := ih F₂.ok (fun d hd => hlt d (by simp [hd])) h₃
    refine ⟨fun d => ?_, fun d hd => ?_⟩
    · obtain ⟨lb₁, hb₁, hd₁⟩ := F₁.registers d
      obtain ⟨lb₂, hb₂, hd₂⟩ := F₂.registers d
      obtain ⟨lb, hb, hd⟩ := hreg d
      exact ⟨lb, hb, by rw [hd, hd₂, hd₁]⟩
    · rw [List.mem_cons, not_or] at hd
      rw [hkeep d hd.2, F₂.other d hd.1, F₁.other d hd.1]

/-- A fill on a source (R104). -/
theorem Filled.sum_of_answeredBy {c : Nat} {side : Side} {t : Byte} {e e' : Eng}
    (F : Filled cfg c side t e e') {src : Source} (h : AnsweredBy src e.log e'.log) :
    sumAt e'.chans c side = sourceSum cfg src c t.toNat := by
  obtain ⟨new, hlog, ho⟩ := h
  rw [F.sum_of_obeys hlog ho, sourceSum, byte_toNat_self]

/-- Step 2 on a source: each listed channel's sums are those the source gives at its thresholds. -/
theorem sampleAll_sums (hw : configWf cfg = true) {src : Source} {cs : List Nat} {e e' : Eng} {u : Unit}
    (hok : channelsOk cfg e.chans) (hn : cs.Nodup) (hlt : ∀ c ∈ cs, c < cfg.numChannels)
    (h : forChannels (sampleChannel cfg) cs e = .done u e') (hsrc : AnsweredBy src e.log e'.log)
    {c : Nat} (hc : c ∈ cs) :
    sumAt e'.chans c .low = sourceSum cfg src c (channelAt e.chans c).lowThreshold.toNat ∧
      sumAt e'.chans c .high = sourceSum cfg src c (channelAt e.chans c).highThreshold.toNat := by
  induction cs generalizing e with
  | nil => cases hc
  | cons a cs ih =>
    obtain ⟨_, e₂, hsample, h₃⟩ := Run.andThen_eq_done.1
      (show (sampleChannel cfg a e).andThen _ = _ from h)
    obtain ⟨_, e₁, h₁, h₂⟩ := Run.andThen_eq_done.1
      (show (fill _ _ _ _ _).andThen _ = _ from hsample)
    rw [List.nodup_cons] at hn
    have hlt' : ∀ d ∈ cs, d < cfg.numChannels := fun d hd => hlt d (by simp [hd])
    have F₁ := fill_filled hw hok (hlt a (by simp)) h₁
    have F₂ := fill_filled hw F₁.ok (hlt a (by simp)) h₂
    have hgrow : ∃ new, e₂.log = new ++ e.log := by
      simpa [hsample] using (sampleChannel_prog cfg a).log_grows e
    obtain ⟨hsrc', hsrc₃⟩ := hsrc.split hgrow (forChannels_grows (sampleChannel_prog cfg) h₃)
    obtain ⟨hsrc₁, hsrc₂⟩ := hsrc'.split ⟨_, F₁.log⟩ ⟨_, F₂.log⟩
    obtain ⟨lb, hb, hreg₁⟩ := F₁.registers a
    rcases List.mem_cons.1 hc with rfl | hmem
    · obtain ⟨_, hkeep⟩ := sampleAll_registers hw F₂.ok hlt' h₃
      rw [sumAt, sumAt, bufferAt, bufferAt, hkeep c hn.1]
      refine ⟨?_, ?_⟩
      · show (bufferAt e₂.chans c .low).sum.toNat = _
        rw [F₂.otherSide .low (by decide)]
        exact F₁.sum_of_answeredBy hsrc₁
      · have hsum := F₂.sum_of_answeredBy hsrc₂
        rw [hreg₁] at hsum
        exact hsum
    · have hne : c ≠ a := ne_of_mem_of_not_mem hmem hn.1
      have hsums := ih F₂.ok hn.2 hlt' h₃ hsrc₃ hmem
      rwa [F₂.other c hne, F₁.other c hne] at hsums

theorem sampleChannel_within (cfg : Params) (c : Nat) (e : Eng) :
    Within (2 * cfg.samplesNum) e (sampleChannel cfg c e) := by
  rw [Nat.two_mul]
  exact (fill_within ..).andThen fun _ _ _ => fill_within ..

theorem calibrateFlagged_within (cfg : Params) (c : Nat) (e : Eng) :
    Within (calibrationReads cfg) e (calibrateFlagged cfg c e) := by
  unfold calibrateFlagged
  split_ifs
  · exact recalibrate_within cfg c e
  · exact .done _ () rfl

theorem forChannels_within {body : Nat → Eng → Run Unit} {k : Nat} (hb : ∀ c e, Within k e (body c e))
    (cs : List Nat) (e : Eng) : Within (cs.length * k) e (forChannels body cs e) := by
  induction cs generalizing e with
  | nil => exact .done _ () rfl
  | cons c cs ih =>
    rw [List.length_cons, Nat.succ_mul, Nat.add_comm]
    exact (hb c e).andThen fun _ e₁ _ => ih e₁

/-- The most READs of a TICK (R176). -/
theorem tickSensing_within (cfg : Params) (e : Eng) :
    Within (cfg.numChannels * calibrationReads cfg + cfg.numChannels * (2 * cfg.samplesNum)) e
      (tickSensing cfg e) := by
  have hcal := forChannels_within (calibrateFlagged_within cfg) (List.range cfg.numChannels)
  have hsample := forChannels_within (sampleChannel_within cfg) (List.range cfg.numChannels)
  rw [List.length_range] at hcal hsample
  exact (hcal e).andThen fun _ e₁ _ => hsample e₁

end

/-! ### A TICK that completed -/

/-- What a completed TICK leaves, e being the engine state its sensing part ended in. -/
structure Ticked (s t : State) (e : Eng) : Prop where
  sensed : tickSensing s.cfg (engineDischarged s) = .done () e
  chans : t.chans = e.chans.map (decideChannel s.cfg)
  report : t.report = reportWord s.cfg t.chans
  log : t.senseLog = e.log

theorem tick_ticked {s t : State} (hs : accepting s) (h : exec .tick s = .next t) (hb : t.busy = false) :
    ∃ e, Ticked s t e := by
  obtain ⟨e', hrun, hchans, hreport, hlog⟩ := exec_completed hs (cmd := .tick) rfl
    (by rintro c ⟨⟩) h hb
  obtain ⟨e, hsensing, rfl⟩ := runTick_done (show runTick _ _ = _ from hrun)
  exact ⟨e, done_after_discharge hsensing, hchans, by rw [hreport, hchans]; rfl, hlog⟩

section
variable {s t : State} {e : Eng} (T : Ticked s t e)
include T

theorem Ticked.length : e.chans.length = s.chans.length := by
  have hkeep := (tickSensing_prog s.cfg).keeps (fun l => l.length = s.chans.length)
    (fun F ⟨c, _, hF⟩ l hl => by
      cases hF with
      | push | clearGray | setThresholds => simpa using hl) (engineDischarged s) rfl
  rw [T.sensed] at hkeep
  exact hkeep

theorem Ticked.channel {c : Nat} (hc : c < s.chans.length) :
    channelAt t.chans c = decideChannel s.cfg (channelAt e.chans c) := by
  rw [T.chans, channelAt_map _ (T.length.symm ▸ hc)]

/-- A tick's rules keep the buffers and the thresholds its sensing part left. -/
theorem Ticked.buffer {c : Nat} (hc : c < s.chans.length) (side : Side) :
    bufferAt t.chans c side = bufferAt e.chans c side := by
  have hkeep := decideChannel_keeps s.cfg (channelAt e.chans c)
  rw [bufferAt, bufferAt, T.channel hc]
  cases side with
  | low => exact hkeep.lowBuffer
  | high => exact hkeep.highBuffer

theorem Ticked.sum {c : Nat} (hc : c < s.chans.length) (side : Side) :
    sumAt t.chans c side = sumAt e.chans c side :=
  congrArg (·.sum.toNat) (T.buffer hc side)

theorem Ticked.thresholds {c : Nat} (hc : c < s.chans.length) :
    (channelAt t.chans c).lowThreshold = (channelAt e.chans c).lowThreshold ∧
      (channelAt t.chans c).highThreshold = (channelAt e.chans c).highThreshold := by
  have hkeep := decideChannel_keeps s.cfg (channelAt e.chans c)
  rw [T.channel hc]
  exact ⟨hkeep.lowThreshold, hkeep.highThreshold⟩

theorem Ticked.report_bit (hlen : s.chans.length = s.cfg.numChannels) {c : Nat} (hc : c < 32) :
    t.report.getLsbD c = (decide (c < s.cfg.numChannels) && (channelAt t.chans c).pressed) := by
  rw [T.report]
  exact reportWord_bit s.cfg (by rw [T.chans, List.length_map, T.length, hlen]) hc

variable (hw : configWf s.cfg = true) (hok : channelsOk s.cfg s.chans)
include hw hok

/-- The flags and counters a TICK leaves, from its own sums (R163, R164). -/
theorem Ticked.flags {c : Nat} (hc : c < s.cfg.numChannels) : flagsOf (channelAt t.chans c) =
    flagsOf (highRule s.cfg (sumAt t.chans c .high)
      (lowRule s.cfg (sumAt t.chans c .low) (afterStepOne (channelAt s.chans c)))) := by
  obtain ⟨_, hflags⟩ := tickSensing_flags hw hok T.sensed
  have hc' : c < s.chans.length := hok.1 ▸ hc
  rw [T.channel hc', T.sum hc', T.sum hc']
  exact highRule_flags s.cfg _ (lowRule_flags s.cfg _ (hflags c hc))

/-- On a source, the sums of a TICK are those the source gives at the thresholds step 2 found. -/
theorem Ticked.sums {src : Source} (ho : obeys src (newEvents s t)) {c : Nat}
    (hc : c < s.cfg.numChannels) :
    sumAt t.chans c .low = sourceSum s.cfg src c (channelAt t.chans c).lowThreshold.toNat ∧
      sumAt t.chans c .high = sourceSum s.cfg src c (channelAt t.chans c).highThreshold.toNat ∧
      ((channelAt s.chans c).needsCalibration = true → ∃ r, CalibrationEnds s.cfg src c r ∧
        ((channelAt t.chans c).lowThreshold.toNat : Int) = max 0 (r.1 - s.cfg.releaseMargin) ∧
        ((channelAt t.chans c).highThreshold.toNat : Int) = min 255 (r.2 + s.cfg.pressMargin)) := by
  have hc' : c < s.chans.length := hok.1 ▸ hc
  have hmem : c ∈ List.range s.cfg.numChannels := List.mem_range.2 hc
  have hrange : ∀ d ∈ List.range s.cfg.numChannels, d < s.cfg.numChannels := fun d => List.mem_range.1
  obtain ⟨_, e₁, h₁, h₂⟩ := Run.andThen_eq_done.1
    (show (forChannels _ _ _).andThen _ = _ from T.sensed)
  have hgrow₁ := forChannels_grows (calibrateFlagged_prog s.cfg) h₁
  have hgrow₂ := forChannels_grows (sampleChannel_prog s.cfg) h₂
  have hgrow : ∃ new, e.log = new ++ (engineDischarged s).log := by
    simpa [T.sensed] using (tickSensing_prog s.cfg).log_grows (engineDischarged s)
  have ⟨hsrc₁, hsrc₂⟩ := (answeredBy_after_discharge T.log hgrow ho).split hgrow₁ hgrow₂
  obtain ⟨hok₁, _⟩ := calibrateAll_flags hw _ hok List.nodup_range hrange h₁
  obtain ⟨lb, hb, hreg⟩ := (sampleAll_registers hw hok₁ hrange h₂).1 c
  obtain ⟨hlow, hhigh⟩ := T.thresholds hc'
  rw [hreg] at hlow hhigh
  have hsums := sampleAll_sums hw hok₁ List.nodup_range hrange h₂ hsrc₂ hmem
  rw [T.sum hc', T.sum hc', hlow, hhigh]
  exact ⟨hsums.1, hsums.2, calibrateAll_ends hw hok List.nodup_range hrange h₁ hsrc₁ hmem⟩

end

/-! ### The statements on a completed TICK -/

/-- Settles O37. -/
theorem reportHoldsThePressedBits : Obligations.ReportHoldsThePressedBits := by
  intro s t hs hlen h hb c hc
  obtain ⟨e, T⟩ := tick_ticked hs h hb
  exact T.report_bit hlen hc

theorem lt_length_of_pressed {chans : List Channel} {c : Nat} (h : (channelAt chans c).pressed = true) :
    c < chans.length := by
  by_contra hge
  rw [channelAt, List.getD_eq_default _ _ (not_lt.1 hge)] at h
  cases h

theorem afterStepOne_pressed (ch : Channel) : (afterStepOne ch).pressed = ch.pressed := by
  unfold afterStepOne
  split_ifs <;> rfl

/-- Settles O35: the rules start from the flags and counters of step 1 and from the sums of the TICK. -/
theorem pressEndsOnlyByReleaseOrWatchdog : Obligations.PressEndsOnlyByReleaseOrWatchdog := by
  refine ⟨fun s t c hs hok h hb hon hoff => ?_, fun cfg ch => decideChannel_endsPress⟩
  obtain ⟨e, T⟩ := tick_ticked hs h hb
  have hc := lt_length_of_pressed hon
  obtain ⟨_, hflags⟩ := tickSensing_flags hs.1 hok T.sensed
  have hflags : flagsOf (channelAt e.chans c) = flagsOf (afterStepOne (channelAt s.chans c)) :=
    hflags c (hok.1 ▸ hc)
  have hpressed : (channelAt e.chans c).pressed = true := by
    rw [show (channelAt e.chans c).pressed = _ from congrArg Prod.fst hflags]
    exact (afterStepOne_pressed _).trans hon
  rw [T.channel hc] at hoff
  have hends := (decideChannel_endsPress hpressed hoff).of_flags hflags
  have hlow : sumAt t.chans c .low = _ := T.sum hc .low
  have hhigh : sumAt t.chans c .high = _ := T.sum hc .high
  show EndsPress s.cfg (sumAt t.chans c .low) (sumAt t.chans c .high) _
  rw [hlow, hhigh]
  exact hends

end Sys2Proof.Machine
end

section
/-! TICK with its answers at hand, and on the sources of R178 and R252 (42_engine.md R160 to R178;
70_reset_and_hazards.md R252). -/

namespace Sys2Proof.Machine

/-! ### TICK with its answers at hand -/

/-- A TICK whose sensing part completes with k answers after the acknowledgement completes. -/
theorem exec_tick_of_sensed {s : State} {e : Eng} {k : Nat} (hs : accepting s)
    (hsensed : tickSensing s.cfg (engineDischarged s) = .done () e)
    (hk : k + 1 ≤ (leadingReplies s.inputs).length)
    (hr : e.replies = (leadingReplies s.inputs).drop (k + 1)) :
    ∃ t, exec .tick s = .next t ∧ t = { s with
        chans := t.chans
        report := t.report
        lastErr := 0
        temps := none
        running := none
        outstanding := none
        inputs := s.inputs.drop (k + 1)
        senseLog := e.log } ∧ Ticked s t e := by
  have hrun : runCommand s.cfg .tick (engineWithAnswers s) = .done () (decideAndReport s.cfg e) := by
    show runTick s.cfg _ = _
    rw [runTick_eq, discharge_engineWithAnswers (by omega), Run.andThen_done, hsensed, Run.andThen_done]
  exact ⟨_, exec_completes hs (i := .tick) rfl (by rintro c ⟨⟩) hrun hk hr, rfl, hsensed, rfl, rfl, rfl⟩

/-- Settles O38. -/
theorem tickCompletes : Obligations.TickCompletes := by
  intro s hs hok hlen
  have hbound : tickTransactions s.cfg = s.cfg.numChannels * calibrationReads s.cfg +
      s.cfg.numChannels * (2 * s.cfg.samplesNum) + 1 := by
    rw [tickTransactions]
    ring
  rw [hbound] at hlen ⊢
  obtain ⟨e, reads, hsensed, S⟩ := (tickSensing_prog s.cfg).sensed (tickSensing_within s.cfg _) hlen
  obtain ⟨t, hexec, ht, T⟩ := exec_tick_of_sensed hs hsensed S.atHand S.replies
  have hokₑ := (tickSensing_prog s.cfg).keeps (channelsOk s.cfg)
    (fun F ⟨_, _, hF⟩ l hl => channelChange_ok hs.1 hF hl) (engineDischarged s) hok
  rw [hsensed] at hokₑ
  rw [S.log] at ht
  refine ⟨t, reads, hexec, ht, Nat.succ_le_succ S.within, S.event, ?_, fun c hc hflag => ?_,
    fun c hc => T.flags hs.1 hok hc⟩
  · rw [T.chans]
    exact channelsOk_decide hokₑ
  · obtain ⟨_, e₁, h₁, h₂⟩ := Run.andThen_eq_done.1
      (show (forChannels _ _ _).andThen _ = _ from hsensed)
    have hrange : ∀ d ∈ List.range s.cfg.numChannels, d < s.cfg.numChannels := fun d => List.mem_range.1
    obtain ⟨hok₁, _⟩ := calibrateAll_flags hs.1 _ hok List.nodup_range hrange h₁
    obtain ⟨lb, hb, hreg⟩ := (sampleAll_registers hs.1 hok₁ hrange h₂).1 c
    have hthr := T.thresholds (hok.1 ▸ hc)
    rw [hreg] at hthr
    have hkeep : channelAt e₁.chans c = channelAt s.chans c := calibrateAll_unflagged _ hflag h₁
    rwa [hkeep] at hthr

theorem afterStepOne_unflagged {ch : Channel} (h : ch.needsCalibration = false) :
    afterStepOne ch = ch := if_neg (by simp [h])

/-- Settles O39: step 1 does nothing, so the answers are those of step 2's fills in turn. -/
theorem tickWithoutCalibrationExactly : Obligations.TickWithoutCalibrationExactly := by
  intro s hs hok hflags hlen answers low high
  have hflag : ∀ c < s.cfg.numChannels, (channelAt s.chans c).needsCalibration = false :=
    fun c hc => hflags _ (channelAt_mem (hok.1 ▸ hc))
  have hstart : (engineDischarged s).replies = answers := List.drop_one.symm
  have hstep₁ := calibrateFlagged_none s.cfg (List.range s.cfg.numChannels) (engineDischarged s)
    fun c hc => hflag c (List.mem_range.1 hc)
  obtain ⟨e, hstep₂, S⟩ := sampleChannels_sampled hs.1 s.cfg.numChannels 0 (engineDischarged s) hok
    (by omega) (by rw [hstart, List.length_drop]; omega)
  rw [← List.range_eq_range'] at hstep₂
  have hsensed : tickSensing s.cfg (engineDischarged s) = .done () e := by
    rw [tickSensing, hstep₁, Run.andThen_done, hstep₂]
  rw [Nat.add_comm] at hlen ⊢
  obtain ⟨t, hexec, ht, T⟩ := exec_tick_of_sensed hs hsensed hlen
    (by rw [S.replies, hstart, List.drop_drop, Nat.add_comm])
  have hlog := S.log
  rw [hstart, ← List.range_eq_range', samplingEvents] at hlog
  simp only [Nat.sub_zero] at hlog
  rw [hlog] at ht
  refine ⟨t, hexec, ht, by rw [T.chans, List.length_map, T.length], fun c hc => ?_,
    fun c hc => T.report_bit hok.1 hc⟩
  have hc' : c < s.chans.length := hok.1 ▸ hc
  obtain ⟨hlowSum, hlowCursor⟩ := S.low c (Nat.zero_le c) (by omega)
  obtain ⟨hhighSum, hhighCursor⟩ := S.high c (Nat.zero_le c) (by omega)
  rw [hstart, Nat.sub_zero, ← T.buffer hc'] at hlowSum hhighSum
  rw [← T.buffer hc'] at hlowCursor hhighCursor
  obtain ⟨lb, hb, hreg⟩ := S.registers c
  obtain ⟨hlowThr, hhighThr⟩ := T.thresholds hc'
  rw [hreg] at hlowThr hhighThr
  refine ⟨?_, hlowThr, hhighThr, hlowSum, hhighSum, hlowCursor, hhighCursor⟩
  have hrules := T.flags hs.1 hok hc
  rw [afterStepOne_unflagged (hflag c hc)] at hrules
  rw [hrules, sumAt, sumAt, hlowSum, hhighSum]

/-! ### The rules on fills that are all ones or all zeros -/

section
variable {cfg : Params} (hw : configWf cfg = true) (ch : Channel)
include hw

theorem highRule_all_ones : highRule cfg cfg.samplesNum ch = strongPress ch := by
  obtain ⟨_, _, _, _, ⟨_, hpress⟩⟩ := decisionConstantsAreExact cfg hw
  exact highRule_of_kPress_le hpress ch

theorem highRule_all_zeros (hhigh : 0 < cfg.highFractionPct) : highRule cfg 0 ch = steadyBand ch := by
  obtain ⟨hexact, _⟩ := decisionConstantsAreExact cfg hw
  obtain ⟨_, _, _, _, hpress⟩ := hexact 0 (Nat.zero_le _)
  obtain ⟨_, _, ⟨hn, _⟩, _⟩ := configWf_bounds hw
  have hhigh' : ((0 : Nat) : Int) < kHigh cfg := of_decide_eq_true (highOK_zero hw hhigh)
  exact highRule_of_lt_kHigh hhigh' (lt_of_not_ge fun hle => by have := hpress.1 hle; omega) ch

theorem lowRule_all_ones (hlow : cfg.lowFractionPct < 100) :
    lowRule cfg cfg.samplesNum ch = steadyBand ch := by
  obtain ⟨hexact, _⟩ := decisionConstantsAreExact cfg hw
  obtain ⟨hrel, _⟩ := hexact cfg.samplesNum le_rfl
  obtain ⟨_, _, ⟨hn, _⟩, _⟩ := configWf_bounds hw
  have hlow' : kLow cfg < (cfg.samplesNum : Int) := of_decide_eq_true (lowOK_samplesNum hw hlow)
  exact lowRule_of_gt ch (lt_of_not_ge fun hle => by have := hrel.1 hle; omega) hlow'

theorem lowRule_all_zeros : lowRule cfg 0 ch = strongRelease cfg ch := by
  obtain ⟨_, ⟨hrel, _⟩, _⟩ := decisionConstantsAreExact cfg hw
  exact lowRule_of_le_kRel ch hrel

end

theorem afterStepOne_debounceTicks (ch : Channel) :
    (afterStepOne ch).debounceTicks = ch.debounceTicks := by
  unfold afterStepOne
  split_ifs <;> rfl

theorem afterStepOne_needsCalibration (ch : Channel) : (afterStepOne ch).needsCalibration = false := by
  unfold afterStepOne
  split_ifs with h
  · rfl
  · simpa using h

theorem sourceSum_ones (cfg : Params) (c : Nat) (t : Int) :
    sourceSum cfg (fun _ _ => true) c t = cfg.samplesNum := rfl

theorem sourceSum_zeros (cfg : Params) (c : Nat) (t : Int) :
    sourceSum cfg (fun _ _ => false) c t = 0 := rfl

/-- A report word all of whose channels are pressed. -/
theorem report_all_pressed {s t : State} {e : Eng} (T : Ticked s t e) (hw : configWf s.cfg = true)
    (hlen : s.chans.length = s.cfg.numChannels)
    (hall : ∀ c < s.cfg.numChannels, (channelAt t.chans c).pressed = true) :
    t.report.toNat = 2 ^ s.cfg.numChannels - 1 := by
  obtain ⟨⟨_, hC⟩, _⟩ := configWf_bounds hw
  apply Nat.eq_of_testBit_eq
  intro c
  rw [BitVec.testBit_toNat, Nat.testBit_two_pow_sub_one]
  by_cases hc : c < s.cfg.numChannels
  · rw [T.report_bit hlen (by omega), hall c hc]
    simp
  · by_cases h32 : c < 32
    · rw [T.report_bit hlen h32]
      simp [hc]
    · rw [BitVec.getLsbD_of_ge _ _ (not_lt.1 h32)]
      simp [hc]

/-- Settles O41. -/
theorem tickOnConstantPins : Obligations.TickOnConstantPins := by
  intro s t hs hok h hb
  obtain ⟨e, T⟩ := tick_ticked hs h hb
  refine ⟨fun ho => ?ones, fun ho hhigh c hc => ?zeros⟩
  case ones =>
    have hflags : ∀ c < s.cfg.numChannels, flagsOf (channelAt t.chans c) = (true, true, 0, 0) :=
      fun c hc => by
        obtain ⟨_, hsum, _⟩ := T.sums hs.1 hok ho hc
        rw [T.flags hs.1 hok hc, hsum, sourceSum_ones, highRule_all_ones hs.1]
        rfl
    exact ⟨report_all_pressed T hs.1 hok.1 fun c hc => congrArg Prod.fst (hflags c hc), hflags⟩
  case zeros =>
    obtain ⟨hlow, hhigh', _⟩ := T.sums hs.1 hok ho hc
    have hdebounce := afterStepOne_debounceTicks (channelAt s.chans c)
    have hpressed := afterStepOne_pressed (channelAt s.chans c)
    have hflag := afterStepOne_needsCalibration (channelAt s.chans c)
    rw [T.flags hs.1 hok hc, hlow, hhigh', sourceSum_zeros, sourceSum_zeros,
      highRule_all_zeros hs.1 _ hhigh, lowRule_all_zeros hs.1]
    refine ⟨fun hpast => ?_, fun hwithin => ?_⟩ <;> rw [← hdebounce] at *
    · rw [strongRelease_of_past hpast]
      rfl
    · rw [strongRelease_of_not_past hwithin, flagsOf, ← hpressed, ← hflag]
      rfl

/-! ### The first TICK after reset -/

/-- A TICK calibrates a flagged channel to the boundary of its pin; its low fill is then all ones and its
high fill all zeros, so both rules find it steady (R141, R167, R170). -/
theorem Ticked.flagged_on_boundary {s t : State} {e : Eng} (T : Ticked s t e)
    (hw : configWf s.cfg = true) (hok : channelsOk s.cfg s.chans) (hlow : s.cfg.lowFractionPct < 100)
    (hhigh : 0 < s.cfg.highFractionPct) {boundary : Byte → Nat}
    (ho : obeys (fixedBoundary boundary) (newEvents s t)) {c : Nat} (hc : c < s.cfg.numChannels)
    (hB : boundary (pinOf s.cfg c) ≤ 254) (hflag : (channelAt s.chans c).needsCalibration = true) :
    flagsOf (channelAt t.chans c) =
        ((channelAt s.chans c).pressed, false, 0, (channelAt s.chans c).debounceTicks) ∧
      (channelAt t.chans c).lowThreshold.toNat = boundary (pinOf s.cfg c) - s.cfg.releaseMargin ∧
      (channelAt t.chans c).highThreshold.toNat =
        min 255 (boundary (pinOf s.cfg c) + 1 + s.cfg.pressMargin) ∧
      sumAt t.chans c .low = s.cfg.samplesNum ∧ sumAt t.chans c .high = 0 := by
  obtain ⟨hlowSum, hhighSum, hcal⟩ := T.sums hw hok ho hc
  obtain ⟨r, hends, hlo, hhi⟩ := hcal hflag
  obtain rfl := hends.fixedBoundary hw hlow hhigh hB
  simp only at hlo hhi
  rw [sourceSum_fixedBoundary s.cfg boundary c (by omega) (by omega), if_pos (by omega)] at hlowSum
  rw [sourceSum_fixedBoundary s.cfg boundary c (by omega) (by omega), if_neg (by omega)] at hhighSum
  refine ⟨?_, by omega, by omega, hlowSum, hhighSum⟩
  rw [T.flags hw hok hc, hlowSum, hhighSum, lowRule_all_ones hw _ hlow, highRule_all_zeros hw _ hhigh,
    afterStepOne, if_pos hflag]
  rfl

/-- A report word none of whose channels is pressed. -/
theorem report_none_pressed {s t : State} {e : Eng} (T : Ticked s t e)
    (hlen : s.chans.length = s.cfg.numChannels)
    (hall : ∀ c < s.cfg.numChannels, (channelAt t.chans c).pressed = false) : t.report = 0 := by
  apply BitVec.eq_of_getLsbD_eq
  intro c hc
  rw [T.report_bit hlen hc]
  by_cases hcC : c < s.cfg.numChannels
  · simp [hall c hcC]
  · simp [hcC]

/-- A TICK on boundaries from the creation state, with nothing sensed before. -/
theorem first_tick {s t : State} (hs : accepting s) (hchans : s.chans = initialChannels s.cfg)
    (hlog : s.senseLog = []) (hlow : s.cfg.lowFractionPct < 100) (hhigh : 0 < s.cfg.highFractionPct)
    {boundary : Byte → Nat} (hB : ∀ pin, boundary pin ≤ 254) (h : exec .tick s = .next t)
    (hb : t.busy = false) (ho : obeys (fixedBoundary boundary) t.senseLog) :
    t.report = 0 ∧ ∀ c < s.cfg.numChannels,
      flagsOf (channelAt t.chans c) = (false, false, 0, 0) ∧
      (channelAt t.chans c).lowThreshold.toNat = boundary (pinOf s.cfg c) - s.cfg.releaseMargin ∧
      (channelAt t.chans c).highThreshold.toNat =
        min 255 (boundary (pinOf s.cfg c) + 1 + s.cfg.pressMargin) ∧
      sumAt t.chans c .low = s.cfg.samplesNum ∧ sumAt t.chans c .high = 0 := by
  have hok : channelsOk s.cfg s.chans := hchans ▸ initialChannels_ok hs.1
  have hnew : newEvents s t = t.senseLog := by simp [newEvents, hlog]
  rw [← hnew] at ho
  obtain ⟨e, T⟩ := tick_ticked hs h hb
  have hchannel : ∀ c < s.cfg.numChannels, _ := fun c hc => by
    have hinit : channelAt s.chans c = Channel.initial s.cfg.samplesNum := by
      rw [hchans, channelAt_initialChannels hc]
    have hc := T.flagged_on_boundary hs.1 hok hlow hhigh ho hc (hB _) (by rw [hinit]; rfl)
    rw [hinit] at hc
    exact hc
  exact ⟨report_none_pressed T hok.1 fun c hc => congrArg Prod.fst (hchannel c hc).1, hchannel⟩

/-- Settles O40: the reset state is the creation state, every channel flagged and unpressed. -/
theorem firstTickFindsEveryBoundary : Obligations.FirstTickFindsEveryBoundary :=
  fun cfg ins _ _ hw hlow hhigh hB h hb ho =>
    first_tick (s := { State.resetOf cfg with inputs := ins }) ⟨hw, rfl⟩ rfl rfl hlow hhigh hB h hb ho

end Sys2Proof.Machine
end

section
/-! Reads of the register map, idle and while BUSY, and the statements about them (10_state.md R39;
20_memory.md R63, R65). -/

namespace Sys2Proof.Machine

theorem regWord_channel_busy {s : State} (hb : s.busy = true) (c : Nat) (r : ChannelReg) :
    regWord s (.channel c r) = busyChannelWord s c (Config.busyRead s.draws) r := by
  simp [regWord, hb]

/-- Settles O54. -/
theorem readsFollowTheRegisterMap : Obligations.ReadsFollowTheRegisterMap := by
  intro s off rest hw hi ha
  refine ⟨_, _, step_read hw ha hi, fun h => by rw [h]; rfl, fun h => by rw [h]; rfl,
    fun h => by rw [h]; rfl, fun h => by rw [h]; rfl, fun h => by rw [h]; rfl, fun h => by rw [h]; rfl,
    fun h => by rw [h]; rfl, fun c hc hb => ?_⟩
  have hword : ∀ {k r}, k < 0x20 → channelRegAt k = some r → off.toNat = 0x100 + 0x20 * c + k →
      regWord { s with inputs := rest } (selectReg s.cfg off.toNat) = channelWord s c r :=
    fun {k r} hk hr h => by
      rw [selectReg_channel hc hk hr h, regWord_channel_idle (s := { s with inputs := rest }) hb]
      cases r <;> rfl
  exact ⟨hword (k := 0x00) (by decide) rfl, hword (k := 0x04) (by decide) rfl,
    hword (k := 0x08) (by decide) rfl, hword (k := 0x0C) (by decide) rfl,
    hword (k := 0x10) (by decide) rfl⟩

/-- The fields that stay exact while BUSY (20_memory.md R65). -/
theorem busyChannelWord_fields (s : State) (c : Nat) (draw : Word) :
    (busyChannelWord s c draw .thr).extractLsb' 24 8 = pinOf s.cfg c ∧
      (busyChannelWord s c draw .thr).extractLsb' 18 6 = 0 ∧
      (busyChannelWord s c draw .lbuf).extractLsb' 16 16 = 0 ∧
      (busyChannelWord s c draw .hbuf).extractLsb' 16 16 = 0 :=
  ⟨field_above (field_above BitVec.extractLsb'_eq_self), field_above lowest_field,
    field_above BitVec.extractLsb'_eq_self, field_above BitVec.extractLsb'_eq_self⟩

/-- Settles O56. -/
theorem busyChannelReadsKeepFixedFields : Obligations.BusyChannelReadsKeepFixedFields := by
  intro s c k off rest hw hb hc hk hoff hi
  obtain ⟨hpin, hreserved, hlbuf, hhbuf⟩ :=
    busyChannelWord_fields { s with inputs := rest } c (Config.busyRead s.draws)
  have hstep : ∀ {r}, channelRegAt k = some r → step s = .next { s with
      inputs := rest
      hostReads :=
        (off, busyChannelWord { s with inputs := rest } c (Config.busyRead s.draws) r) :: s.hostReads
      draws := s.draws + 1 } := fun {r} hr => by
    have hlt : k < 0x20 := by
      simp only [List.mem_cons, List.not_mem_nil, or_false] at hk
      omega
    have ha : off.toNat % 4 = 0 := by
      simp only [List.mem_cons, List.not_mem_nil, or_false] at hk
      omega
    rw [step_read hw ha hi, selectReg_channel hc hlt hr hoff,
      regWord_channel_busy (s := { s with inputs := rest }) hb, drawsWord]
    simp only [hb, Bool.toNat_true]
  simp only [List.mem_cons, List.not_mem_nil, or_false] at hk
  rcases hk with rfl | rfl | rfl | rfl | rfl
  · exact ⟨_, hstep rfl, fun _ => ⟨hpin, hreserved⟩, by simp⟩
  · exact ⟨_, hstep rfl, by simp, by simp⟩
  · exact ⟨_, hstep rfl, by simp, by simp⟩
  · exact ⟨_, hstep rfl, by simp, fun _ => hlbuf⟩
  · exact ⟨_, hstep rfl, by simp, fun _ => hhbuf⟩

end Sys2Proof.Machine
end

section
/-! Host programs against the block: WAIT as a loop, TICKW and CALW as a command and a WAIT, and the
statements about them (30_encoding.md R88 to R90). -/

namespace Sys2Proof.Machine

/-! ### WAIT -/

theorem runHost_wait (world : World) (s : State) : runHost [.wait] world s = waitLoop world s :=
  runOps_one .wait world s

/-- A WAIT that ended: every read before the last found BUSY = 1, the last one BUSY = 0. -/
theorem waitLoop_ended {world rest : World} {s t : State} (hw : configWf s.cfg = true)
    (h : NoAccess (s.inputs ++ world.flatten)) (hrun : waitLoop world s = .ended t rest) :
    ∃ found : List Word, world.length = found.length + 1 + rest.length ∧
      rest = world.drop (found.length + 1) ∧ (∀ w ∈ found, w.getLsbD 0 = true) ∧ t.busy = false ∧
      t.hostReads = (4, statusWord t) :: found.map (fun w => (4, w)) ++ s.hostReads := by
  induction world generalizing s with
  | nil => cases hrun
  | cons events world ih =>
    rw [List.flatten_cons, ← List.append_assoc] at h
    obtain ⟨u, K, _, hturn⟩ := waitLoop_turn world hw fun x hx => h x (List.mem_append_left _ hx)
    rw [hturn] at hrun
    by_cases hb : u.busy = true
    case neg =>
      rw [if_neg hb] at hrun
      cases hrun
      exact ⟨[], by simp; omega, rfl, by simp, Bool.eq_false_iff.2 hb,
        congrArg ((4, statusWord u) :: ·) K.hostReads⟩
    case pos =>
      rw [if_pos hb] at hrun
      obtain ⟨found, hlen, hrest, hfound, hidle, hreads⟩ := ih
        (s := { u with hostReads := (4, statusWord u) :: u.hostReads }) (by rw [K.cfg]; exact hw)
        (fun x hx => (List.mem_append.1 hx).elim (K.noAccess x) fun hmem =>
          h x (List.mem_append_right _ hmem)) hrun
      refine ⟨found ++ [statusWord u], by simp; omega, by simpa using hrest, fun w hmem => ?_, hidle, ?_⟩
      · rcases List.mem_append.1 hmem with hmem | hmem
        · exact hfound w hmem
        · rw [List.mem_singleton.1 hmem, statusWord_busy, hb]
      · rw [hreads, K.hostReads]
        simp

theorem waitLoop_busy (n : Nat) {s : State} (hw : configWf s.cfg = true) (hi : s.inputs = [])
    (hb : s.busy = true) : waitLoop (List.replicate n []) s = .goingOn
      { s with hostReads := List.replicate n (4, statusWord s) ++ s.hostReads } := by
  induction n generalizing s with
  | zero => rfl
  | succ n ih =>
    rw [List.replicate_succ, waitLoop_quiet _ hw hi, if_pos hb]
    refine (ih (s := { s with hostReads := (4, statusWord s) :: s.hostReads }) hw hi hb).trans ?_
    have hreads : List.replicate (n + 1) ((4 : Offset), statusWord s) ++ s.hostReads =
        List.replicate n (4, statusWord s) ++ (4, statusWord s) :: s.hostReads := by
      rw [List.replicate_succ', List.append_assoc]
      rfl
    rw [hreads]
    rfl

/-- Settles O60. -/
theorem waitEndsAtTheFirstIdleRead : Obligations.WaitEndsAtTheFirstIdleRead := by
  refine ⟨fun s t world rest hw h hrun => ?_, fun s world hw hi hb => ?_, fun s n hw hi hb => ?_⟩
  · rw [runHost_wait] at hrun
    exact waitLoop_ended hw h hrun
  · rw [runHost_wait, waitLoop_quiet world hw hi, hb]
    rfl
  · rw [runHost_wait]
    exact waitLoop_busy n hw hi hb

/-! ### TICKW and CALW -/

/-- The host's write of a command's word, while nothing else happens and nothing is in progress. -/
theorem hostAccess_command {i : Instr} {s a : State} (hi : i.wf = true) (hs : accepting s)
    (hin : s.inputs = []) (h : exec i s = .next a) :
    hostAccess [] (.write 0 4 (encodeWord i)) s = .next a := by
  have hself : ({ s with inputs := s.inputs ++ [] } : State) = s := by rw [List.append_nil]
  unfold hostAccess
  rw [hself, takeInputs_nil hin]
  show step { s with inputs := .write 0 4 (encodeWord i) :: s.inputs } = _
  rw [step_write_cmd (s := { s with inputs := .write 0 4 (encodeWord i) :: s.inputs }) hs.1 rfl]
  exact (onCmdWrite_legal (s := s) hs.2 (decodeWord_encodeWord hi)).trans h

theorem advance_hostReads (p : InProgress) (s : State) (reads : List (Offset × Word)) :
    advance p { s with hostReads := reads } = { advance p s with hostReads := reads } := by
  unfold advance
  dsimp only
  cases runCommand s.cfg p.cmd (receive (leadingReplies s.inputs) p).start <;> rfl

theorem onReply_hostReads (s : State) (reads : List (Offset × Word)) :
    onReply { s with hostReads := reads } = { onReply s with hostReads := reads } := by
  unfold onReply
  dsimp only
  cases s.running with
  | none => rfl
  | some p => exact advance_hostReads p s reads

/-- Answers that no command waits for are dropped one a step, and then nothing happens. -/
theorem run_leftover (n : Nat) {s : State} {bs : List Bool} (hw : configWf s.cfg = true)
    (hrun : s.running = none) (hi : s.inputs = bs.map Input.reply) (hn : bs.length ≤ n) :
    Sys2Proof.core.run n s = .next { s with inputs := [] } := by
  induction n generalizing s bs with
  | zero =>
    obtain rfl : bs = [] := List.length_eq_zero_iff.1 (by omega)
    have hself : s = { s with inputs := [] } := by rw [← show s.inputs = [] from hi]
    exact congrArg Host.Outcome.next hself
  | succ n ih =>
    cases bs with
    | nil => exact (core_run_succ n (step_nothing hw hi)).trans (ih hw hrun hi (Nat.zero_le n))
    | cons b bs =>
      refine (core_run_succ n (step_reply_idle hw hrun hi)).trans ?_
      exact ih (s := { s with inputs := bs.map Input.reply }) (bs := bs) hw hrun rfl
        (by simpa using hn)

/-- A command that completed has used its first answer, the acknowledgement, and left a last part. -/
theorem runCommand_leftover {s : State} {cmd : EngineCmd} {e : Eng}
    (h : runCommand s.cfg cmd (engineWithAnswers s) = .done () e) :
    ∃ used, (leadingReplies s.inputs).tail = used ++ e.replies := by
  cases cmd with
  | cal ch =>
    have hrecal : recalibrate s.cfg ch (engineDischarged s) = .done () e := done_after_discharge h
    obtain ⟨_, used, _, hreplies, _⟩ := ((recalibrate_prog s.cfg ch).uses (engineDischarged s)).history
    rw [hrecal] at hreplies
    exact ⟨used, hreplies⟩
  | tick =>
    obtain ⟨e₁, h₁, rfl⟩ := runTick_done (show runTick _ _ = _ from h)
    have hsensed : tickSensing s.cfg (engineDischarged s) = .done () e₁ := done_after_discharge h₁
    obtain ⟨_, used, _, hreplies, _⟩ := ((tickSensing_prog s.cfg).uses (engineDischarged s)).history
    rw [hsensed] at hreplies
    exact ⟨used, hreplies⟩

/-- What a TICK or CAL that completes with the answers at hand leaves among the inputs: some of them, but
not the first. -/
theorem exec_completed_inputs {i : Instr} {cmd : EngineCmd} {s u : State} {answers : List Bool}
    (hs : accepting s) (hi : engineCmd i = some cmd)
    (hc : ∀ c, commandChannel i = some c → c < s.cfg.numChannels)
    (hin : s.inputs = answers.map Input.reply) (h : exec i s = .next u) (hb : u.busy = false) :
    u.running = none ∧ u.hostReads = s.hostReads ∧ u.cfg = s.cfg ∧
      ∃ bs : List Bool, u.inputs = bs.map Input.reply ∧ bs.length ≤ answers.length - 1 := by
  rw [exec_engineCmd hs hi hc] at h
  cases h
  obtain ⟨e, hrun, hadv⟩ := advance_done hb
  obtain ⟨used, htail⟩ := runCommand_leftover (show runCommand s.cfg cmd (engineWithAnswers s) = _ from hrun)
  rw [hin, leadingReplies_map] at htail
  have hafter : afterReplies (begun s).inputs = [] := by
    show afterReplies s.inputs = []
    rw [hin]
    simpa [afterReplies] using afterReplies_append answers []
  rw [hadv]
  refine ⟨rfl, rfl, rfl, e.replies, ?_, ?_⟩
  · rw [completeCommand_inputs, hafter, List.append_nil]
  · have hlen := congrArg List.length htail
    rw [List.length_tail, List.length_append] at hlen
    omega

/-- A TICK or CAL that waits takes the answers that come and is done (R90). -/
theorem takeInputs_answers {i : Instr} {s a u : State} {answers : List Bool}
    (reads : List (Offset × Word)) (hs : accepting s) (hin : s.inputs = []) (ha : exec i s = .next a)
    (hbusy : a.busy = true) (hu : exec i { s with inputs := answers.map Input.reply } = .next u)
    (hidle : u.busy = false) :
    takeInputs { a with hostReads := reads, inputs := answers.map Input.reply } =
      .next { u with hostReads := reads, inputs := [] } := by
  have hself : ({ s with inputs := ([] : List Bool).map Input.reply } : State) = s := by
    rw [List.map_nil, ← hin]
  have hne : answers ≠ [] := by
    rintro rfl
    rw [hself, ha] at hu
    cases hu
    cases hbusy.symm.trans hidle
  obtain ⟨b, bs, rfl⟩ := List.exists_cons_of_ne_nil hne
  obtain ⟨cmd, hcmd, hc, _⟩ := exec_busy hs ha hbusy
  obtain ⟨hrun, _, hcfg, left, hleft, hlen⟩ :=
    exec_completed_inputs (s := { s with inputs := (b :: bs).map Input.reply }) hs hcmd hc rfl hu hidle
  have hstep := answersMayComeInParts i s a [] (b :: bs) [] hs hne (by rw [hself]; exact ha) hbusy
  have hwa : configWf a.cfg = true := by rw [exec_cfg ha]; exact hs.1
  have hwu : configWf u.cfg = true := by rw [hcfg]; exact hs.1
  simp only [List.append_nil, List.nil_append] at hstep
  rw [hu, step_reply (s := { a with inputs := (b :: bs).map Input.reply }) hwa rfl] at hstep
  injection hstep with hstep
  have hfirst : step { a with hostReads := reads, inputs := (b :: bs).map Input.reply } =
      .next { u with hostReads := reads } := by
    rw [step_reply (s := { a with hostReads := reads, inputs := (b :: bs).map Input.reply }) hwa rfl,
      ← hstep]
    exact congrArg Host.Outcome.next
      (onReply_hostReads { a with inputs := (b :: bs).map Input.reply } reads)
  have hrest := run_leftover bs.length (s := { u with hostReads := reads }) hwu hrun hleft
    (by simpa using hlen)
  have hlength : ((b :: bs).map Input.reply).length = bs.length + 1 := by simp
  unfold takeInputs
  rw [hlength]
  exact (core_run_succ bs.length hfirst).trans hrest

/-- A command that waits with nothing coming leaves nothing among the inputs. -/
theorem exec_busy_inputs {i : Instr} {s a : State} (hs : accepting s) (hin : s.inputs = [])
    (h : exec i s = .next a) (hb : a.busy = true) : a.inputs = [] ∧ a.hostReads = s.hostReads := by
  obtain ⟨cmd, _, _, rfl⟩ := exec_busy hs h hb
  rcases advance_cases ⟨cmd, engineOf s⟩ (begun s) with ⟨e, _, hadv⟩ | ⟨q, e, _, hadv⟩
  · rw [hadv] at hb
    cases hb
  · rw [hadv]
    refine ⟨?_, rfl⟩
    show afterReplies s.inputs = []
    rw [hin]
    rfl

/-- One turn of WAIT whose events leave an idle state with nothing coming. -/
theorem waitLoop_ends {s u : State} {events : List Input} (world : World) (hw : configWf s.cfg = true)
    (h : NoAccess (s.inputs ++ events))
    (htake : takeInputs { s with inputs := s.inputs ++ events } = .next u) (hb : u.busy = false) :
    waitLoop (events :: world) s =
      .ended { u with hostReads := (4, statusWord u) :: u.hostReads } world := by
  obtain ⟨u', _, htake', hturn⟩ := waitLoop_turn world hw h
  obtain rfl : u' = u := by
    rw [htake] at htake'
    injection htake' with heq
    exact heq.symm
  rw [hturn, if_neg (by simp [hb])]

/-- A command's word, then WAIT: the first read of STATUS finds the command waiting, the answers come, the
second read finds it done (R90). -/
theorem runOps_command_wait {i : Instr} {s a u : State} {answers : List Bool} (world : World)
    (hwf : i.wf = true) (hs : accepting s) (hin : s.inputs = []) (ha : exec i s = .next a)
    (hbusy : a.busy = true) (hu : exec i { s with inputs := answers.map Input.reply } = .next u)
    (hidle : u.busy = false) :
    runOps [.write 0 (encodeWord i), .wait] ([] :: [] :: answers.map Input.reply :: world) s = .ended
      { u with
        inputs := []
        hostReads := (4, statusWord u) :: (4, statusWord a) :: u.hostReads } world := by
  obtain ⟨hainputs, hareads⟩ := exec_busy_inputs hs hin ha hbusy
  obtain ⟨cmd, hcmd, hc, _⟩ := exec_busy hs ha hbusy
  obtain ⟨_, hureads, _⟩ :=
    exec_completed_inputs (s := { s with inputs := answers.map Input.reply }) hs hcmd hc rfl hu hidle
  have hwa : configWf a.cfg = true := by rw [exec_cfg ha]; exact hs.1
  have htake := takeInputs_answers ((4, statusWord a) :: a.hostReads) hs hin ha hbusy hu hidle
  rw [runOps, runOp, accessOnce_next _ (hostAccess_command hwf hs hin ha), HostRun.andThen_ended, runOps_one]
  show waitLoop _ a = _
  rw [waitLoop_quiet _ hwa hainputs, if_pos hbusy]
  have hend := waitLoop_ends (s := { a with hostReads := (4, statusWord a) :: a.hostReads })
    (u := { u with hostReads := (4, statusWord a) :: a.hostReads, inputs := [] }) (events := answers.map Input.reply) world hwa
    (by rw [hainputs, List.nil_append]; exact noAccess_replies answers)
    (by simpa only [hainputs, List.nil_append] using htake) hidle
  rw [hend, hareads, hureads]
  rfl

/-- Settles O58. -/
theorem hostStatementsAreTheirAccesses : Obligations.HostStatementsAreTheirAccesses := by
  refine ⟨fun _ _ => rfl, fun _ _ => rfl, fun _ _ _ => rfl, fun _ _ => rfl, fun _ => rfl, fun _ _ => rfl,
    fun polls => List.append_nil _, fun s => by rw [waitEnds, statusWord_busy],
    fun i stmt s a u answers world hstmt hwf hs hin ha hbusy hu hidle => ?_⟩
  have hexpand : [stmt].flatMap expandStmt = [.write 0 (encodeWord i), .wait] := by
    rcases hstmt with ⟨rfl, rfl⟩ | ⟨ch, rfl, rfl⟩ <;> rfl
  rw [runHost, hexpand]
  exact runOps_command_wait world hwf hs hin ha hbusy hu hidle

end Sys2Proof.Machine
end
